-- ==== Sys2Proof/Config.lean ====
section
/-!
DEFINITION. The configuration of PBB-CORE: the implementation parameters, which are arguments of the model, with the range each may
take (00_scope R10); the values this hardware takes; the constants no model may vary (R11); and the values the spec leaves free
(93_implementation_defined rows 1 and 2; log 6).
-/

namespace Sys2Proof

/-- The implementation parameters and the range a model may take of each (R10). -/
structure Config where
  /-- SAMPLE_RATE in Hz. It enters no hardware rule; register PARAM4 shows it. -/
  sampleRate : Nat
  /-- BUF_LEN: words of one delivery buffer. -/
  bufLen : Nat
  /-- DAC_BITS, B: width of a device-native code. -/
  dacBits : Nat
  /-- N_NODES: nodes of the node table. -/
  nNodes : Nat
  /-- LIB_BYTES: bytes of the LIB space. -/
  libBytes : Nat
  /-- TANK_LEN, L: Samples of one delay tank. -/
  tankLen : Nat
  /-- CMD_FIFO_DEPTH: commands the FIFO holds. -/
  fifoDepth : Nat
  /-- ATT_SHIFT_BASE: the looper's attack shift at divisor 1. -/
  attShiftBase : Nat
  /-- REL_SHIFT_BASE: the looper's release shift at divisor 1. -/
  relShiftBase : Nat
  /-- DLY_SLEW_SHIFT: the slew shift of a delay. -/
  dlySlewShift : Nat
  sampleRate_range : 1 ≤ sampleRate
  bufLen_range : 1 ≤ bufLen ∧ bufLen ≤ 255
  dacBits_range : 1 ≤ dacBits ∧ dacBits ≤ 14
  nNodes_range : 1 ≤ nNodes ∧ nNodes ≤ 256
  libBytes_range : 1 ≤ libBytes ∧ libBytes ≤ 2 ^ 20
  tankLen_range : 4 ≤ tankLen ∧ tankLen ≤ 65536
  fifoDepth_range : 1 ≤ fifoDepth ∧ fifoDepth ≤ 255
  attShiftBase_range : 2 ≤ attShiftBase ∧ attShiftBase ≤ 15
  relShiftBase_range : 2 ≤ relShiftBase ∧ relShiftBase ≤ 15
  dlySlewShift_range : 1 ≤ dlySlewShift ∧ dlySlewShift ≤ 15
deriving DecidableEq, Repr

namespace Config

/-- The values this hardware takes (R10). -/
abbrev hardware : Config where
  sampleRate := 48000
  bufLen := 96
  dacBits := 10
  nNodes := 16
  libBytes := 1048576
  tankLen := 8192
  fifoDepth := 16
  attShiftBase := 6
  relShiftBase := 12
  dlySlewShift := 5
  sampleRate_range := by decide
  bufLen_range := by decide
  dacBits_range := by decide
  nNodes_range := by decide
  libBytes_range := by decide
  tankLen_range := by decide
  fifoDepth_range := by decide
  attShiftBase_range := by decide
  relShiftBase_range := by decide
  dlySlewShift_range := by decide

theorem bufLen_pos (C : Config) : 0 < C.bufLen := C.bufLen_range.1

theorem nNodes_pos (C : Config) : 0 < C.nNodes := C.nNodes_range.1

theorem tankLen_pos (C : Config) : 0 < C.tankLen := Nat.lt_of_lt_of_le (by decide) C.tankLen_range.1

/-- AMP_LO = 2^29, 0.5 in UQ2.30 (R11, R350). -/
abbrev ampLo : Nat := 536870912

/-- AMP_HI = round(0.9 · 2^30) (R11, R350). -/
abbrev ampHi : Nat := 966367642

/-- F_MAX (R11, R400). -/
abbrev fMax : Nat := 23170

/-- Q_MAX = 2^14 - 1 (R11, R400). -/
abbrev qMax : Nat := 16383

/-- FBK_MAX = floor(0.995 · 2^15) (R11, R431). -/
abbrev fbkMax : Nat := 32604

/-- The value of register ID (R44): "PBB", interface version 1. -/
abbrev idValue : BitVec 32 := 0x50424201#32

/-- Host byte address of LIB address 0 (R101). -/
abbrev libWindow : Nat := 0x100000

/-- LIB_INIT, the power-on contents of LIB: every byte a fixed unknown value (R102, R602; free value, log 4). -/
opaque libInit : Nat → BitVec 8

/-- The value the (n+1)-th FILL leaves in FILL_CYCLES (R53, R253; free value, log 5). -/
opaque fillCycles : Nat → BitVec 32

/-- What PARAM4 shows of a SAMPLE_RATE that 32 bits do not hold (R10, R55; free value, log 6). -/
opaque wideSampleRate : Nat → BitVec 32

end Config

end Sys2Proof
end

