-- ==== Sys2Proof/Word.lean ====
section
/-!
DEFINITION. The word types: what the spec stores in N bits is a BitVec N, so that a stored value has its width by its type
(00_scope R12). Intermediate values are exact integers (R12, R202, log 15).
-/

namespace Sys2Proof

/-- A byte of LIB or of the host bus. -/
abbrev Byte := BitVec 8

/-- A 16-bit field. -/
abbrev Half := BitVec 16

/-- A 32-bit register, bus word or node field. -/
abbrev Word := BitVec 32

/-- A Sample: s16 in Q2.13 (R200). Its integer is `toInt`. -/
abbrev Sample := BitVec 16

/-- A device-native output code of B bits (R51, R220). -/
abbrev Code (C : Config := Config.hardware) := BitVec C.dacBits

end Sys2Proof
end

