-- ==== Sys2Proof/Syntax.lean ====
section
/-!
DEFINITION. PBB-CMD version 1 and the produce operations as one inductive: a constructor for every row of spec/opcode_table.json
(30_encoding R145, R146), the command triple (R140) and the produce call (41_delivery_engine R260).
-/

namespace Sys2Proof

/-- The seven node types (10_state R61). -/
inductive NodeType where
  | silence | osc | player | looper | mixer | filter | delay
deriving DecidableEq, Repr

/-- A command as the host issues it: the triple (CMD_WORD, ARG0, ARG1) (R140). -/
structure Command where
  word : Word
  arg0 : Word
  arg1 : Word
deriving DecidableEq, Repr

/-- A call produce(k, n) as the machine selects it: the type code of node k, k and n (R146, R260; log 12). -/
structure ProduceCall where
  code  : BitVec 4
  node  : BitVec 8
  count : Nat
deriving DecidableEq, Repr

/-- The two shapes an instruction is selected from. -/
inductive Encoded where
  | command (c : Command)
  | call (p : ProduceCall)
deriving DecidableEq, Repr

/-- One constructor per row of the opcode table. Command operands have the widths of R142; `node` is CMD_WORD[15:8].
TYPE and DIVC of CFG_NODE stay raw codes because R150 tests them after the node range. -/
inductive Instr where
  /-- NOP (R270). -/
  | nop
  /-- CFG_NODE (R271). -/
  | cfgNode (node : BitVec 8) (typ : BitVec 4) (divc : BitVec 2) (childA childB : BitVec 8)
  /-- INSTALL (R272). -/
  | install (node : BitVec 8)
  /-- OSC_NOTE (R315). -/
  | oscNote (node : BitVec 8) (inc dur : Word)
  /-- SMP_LOAD (R325). -/
  | smpLoad (node : BitVec 8) (base len : Word)
  /-- SMP_PLAY (R326). -/
  | smpPlay (node : BitVec 8) (amp : Word)
  /-- LOOP_SETPOS (R345). -/
  | loopSetpos (node : BitVec 8) (frac : Half)
  /-- LOOP_GATE (R346). -/
  | loopGate (node : BitVec 8) (value thresh rmin rmax : Half)
  /-- FLT_SET (R401). -/
  | fltSet (node : BitVec 8) (f q : Half)
  /-- DLY_SET_DELAY (R430). -/
  | dlySetDelay (node : BitVec 8) (delay : Word)
  /-- DLY_SET_FEEDBACK (R431). -/
  | dlySetFeedback (node : BitVec 8) (fb : Half)
  /-- NODETYPE.SILENCE: produce(k, n) of a SILENCE node (R300). -/
  | produceSilence (node : BitVec 8) (count : Nat)
  /-- NODETYPE.OSC: produce(k, n) of an OSC node (R310). -/
  | produceOsc (node : BitVec 8) (count : Nat)
  /-- NODETYPE.PLAYER: produce(k, n) of a PLAYER node (R321). -/
  | producePlayer (node : BitVec 8) (count : Nat)
  /-- NODETYPE.LOOPER: produce(k, n) of a LOOPER node (R340). -/
  | produceLooper (node : BitVec 8) (count : Nat)
  /-- NODETYPE.MIXER: produce(k, n) of a MIXER node (R380). -/
  | produceMixer (node : BitVec 8) (count : Nat)
  /-- NODETYPE.FILTER: produce(k, n) of a FILTER node (R405). -/
  | produceFilter (node : BitVec 8) (count : Nat)
  /-- NODETYPE.DELAY: produce(k, n) of a DELAY node (R432). -/
  | produceDelay (node : BitVec 8) (count : Nat)
deriving DecidableEq, Repr

/-- The produce operation of a node type (the dispatch table of R260). -/
def Instr.ofType (ty : NodeType) (k : BitVec 8) (n : Nat) : Instr :=
  match ty with
  | .silence => .produceSilence k n
  | .osc => .produceOsc k n
  | .player => .producePlayer k n
  | .looper => .produceLooper k n
  | .mixer => .produceMixer k n
  | .filter => .produceFilter k n
  | .delay => .produceDelay k n

/-- Is it one of the 11 commands (rather than a produce operation)? -/
def Instr.isCommand : Instr → Bool
  | .nop | .cfgNode .. | .install .. | .oscNote .. | .smpLoad .. | .smpPlay .. | .loopSetpos .. | .loopGate ..
  | .fltSet .. | .dlySetDelay .. | .dlySetFeedback .. => true
  | .produceSilence .. | .produceOsc .. | .producePlayer .. | .produceLooper .. | .produceMixer .. | .produceFilter ..
  | .produceDelay .. => false

end Sys2Proof
end

