-- ==== Sys2Proof/WellFormed.lean ====
section
/-!
DEFINITION. Well-formed instructions: the checks of 30_encoding R150 that need no state (node range, type and divisor codes,
children, load range) and the count of a produce call (41_delivery_engine R260, R261), in the ranges a configuration gives (R10).
-/

namespace Sys2Proof

/-- NODE is an index 0..N_NODES-1 (R140, R150 step 3). -/
def nodeInRange (C : Config) (k : BitVec 8) : Bool := decide (k.toNat < C.nNodes)

/-- TYPE is 0..6, DIVC is 0..2, and DIVC is 0 but for PLAYER (2) and LOOPER (3) (R143). -/
def typeCodeOk (typ : BitVec 4) (divc : BitVec 2) : Bool :=
  decide (typ.toNat < 7) && divc != 3#2 && (divc == 0#2 || typ == 2#4 || typ == 3#4)

/-- A used child index c of node k satisfies k < c < N_NODES (R61). -/
def childAbove (C : Config) (k c : BitVec 8) : Bool := decide (k.toNat < c.toNat) && decide (c.toNat < C.nNodes)

/-- The child fields are as R61 requires for the type code: MIXER (4) uses both, FILTER (5) and DELAY (6) the first; an unused
one is 0 (R143, R271). -/
def childrenOk (C : Config) (k : BitVec 8) (typ : BitVec 4) (a b : BitVec 8) : Bool :=
  if typ = 4#4 then childAbove C k a && childAbove C k b
  else if typ = 5#4 ∨ typ = 6#4 then childAbove C k a && b == 0#8
  else a == 0#8 && b == 0#8

/-- The range of SMP_LOAD lies inside LIB (R325). -/
def loadInRange (C : Config) (base len : Word) : Bool := decide (base.toNat + len.toNat ≤ C.libBytes)

/-- A count produce is called with: 1..BUF_LEN (R260). -/
def countOk (C : Config) (n : Nat) : Bool := decide (0 < n) && decide (n ≤ C.bufLen)

/-- Every check of the spec that the instruction alone decides. -/
def Instr.wellFormed (C : Config) : Instr → Bool
  | .nop => true
  | .cfgNode k typ divc a b => nodeInRange C k && typeCodeOk typ divc && childrenOk C k typ a b
  | .install k => nodeInRange C k
  | .oscNote k _ _ => nodeInRange C k
  | .smpLoad k base len => nodeInRange C k && loadInRange C base len
  | .smpPlay k _ => nodeInRange C k
  | .loopSetpos k _ => nodeInRange C k
  | .loopGate k _ _ _ _ => nodeInRange C k
  | .fltSet k _ _ => nodeInRange C k
  | .dlySetDelay k _ => nodeInRange C k
  | .dlySetFeedback k _ => nodeInRange C k
  | .produceSilence k n => nodeInRange C k && countOk C n
  | .produceOsc k n => nodeInRange C k && countOk C n
  | .producePlayer k n => nodeInRange C k && countOk C n
  | .produceLooper k n => nodeInRange C k && countOk C n
  | .produceMixer k n => nodeInRange C k && countOk C n
  | .produceFilter k n => nodeInRange C k && countOk C n
  | .produceDelay k n => nodeInRange C k && countOk C n

end Sys2Proof
end

