-- ==== Sys2Proof/Decode.lean ====
section
/-!
DEFINITION. The decoder of PBB-CMD version 1 (30_encoding R140 to R152), total on any triple of words and rejecting by name, the
selection of a produce operation by a node-type code (R146), and after them the encoder, written from the same tables.
-/

namespace Sys2Proof

/-- Why a decode is rejected: R150 step 1, R150 step 2, and a reserved node-type code (R61, R152). -/
inductive DecodeError where
  | reservedOpcode
  | reservedBits
  | reservedTypeCode
deriving DecidableEq, Repr

/-- OPC = CMD_WORD[7:0] (R140). -/
def opcOf (w : Word) : BitVec 8 := w.extractLsb' 0 8

/-- NODE = CMD_WORD[15:8] (R140). -/
def nodeOf (w : Word) : BitVec 8 := w.extractLsb' 8 8

/-- RSVD = CMD_WORD[31:16] (R140). -/
def rsvdOf (w : Word) : BitVec 16 := w.extractLsb' 16 16

/-- The low half of an argument word, bits [15:0] (R142). -/
def loHalf (a : Word) : Half := a.extractLsb' 0 16

/-- The high half of an argument word, bits [31:16] (R142). -/
def hiHalf (a : Word) : Half := a.extractLsb' 16 16

/-- The second decode check (R150 step 2): every reserved bit of the words read is 0. -/
def whenClear (clear : Bool) (i : Instr) : Except DecodeError Instr :=
  if clear then .ok i else .error .reservedBits

/-- The decoder of a command: OPC alone selects the row (R141, R145), then the reserved bits are checked (R150 steps 1 and 2). -/
def decode (c : Command) : Except DecodeError Instr :=
  let k := nodeOf c.word
  let w0 := rsvdOf c.word == 0#16
  match (opcOf c.word).toNat with
  | 0x00 => whenClear (w0 && k == 0#8) .nop
  | 0x01 => whenClear (w0 && c.arg0.extractLsb' 6 26 == 0#26 && c.arg1.extractLsb' 16 16 == 0#16)
      (.cfgNode k (c.arg0.extractLsb' 0 4) (c.arg0.extractLsb' 4 2) (c.arg1.extractLsb' 0 8) (c.arg1.extractLsb' 8 8))
  | 0x02 => whenClear w0 (.install k)
  | 0x03 => whenClear w0 (.oscNote k c.arg0 c.arg1)
  | 0x04 => whenClear w0 (.smpLoad k c.arg0 c.arg1)
  | 0x05 => whenClear w0 (.smpPlay k c.arg0)
  | 0x06 => whenClear (w0 && hiHalf c.arg0 == 0#16) (.loopSetpos k (loHalf c.arg0))
  | 0x07 => whenClear w0 (.loopGate k (loHalf c.arg0) (hiHalf c.arg0) (loHalf c.arg1) (hiHalf c.arg1))
  | 0x08 => whenClear (w0 && hiHalf c.arg0 == 0#16 && hiHalf c.arg1 == 0#16) (.fltSet k (loHalf c.arg0) (loHalf c.arg1))
  | 0x09 => whenClear w0 (.dlySetDelay k c.arg0)
  | 0x0A => whenClear (w0 && hiHalf c.arg0 == 0#16) (.dlySetFeedback k (loHalf c.arg0))
  | _ => .error .reservedOpcode

/-- The node type of a TYPE code (R61, R143); 7..15 are reserved. -/
def NodeType.ofCode? (code : BitVec 4) : Option NodeType :=
  match code.toNat with
  | 0 => some .silence
  | 1 => some .osc
  | 2 => some .player
  | 3 => some .looper
  | 4 => some .mixer
  | 5 => some .filter
  | 6 => some .delay
  | _ => none

/-- The TYPE code of a node type (R61). -/
def NodeType.code : NodeType → BitVec 4
  | .silence => 0#4
  | .osc => 1#4
  | .player => 2#4
  | .looper => 3#4
  | .mixer => 4#4
  | .filter => 5#4
  | .delay => 6#4

/-- The selection of a produce operation by the node-type code (R146, R260). -/
def decodeCall (p : ProduceCall) : Except DecodeError Instr :=
  match NodeType.ofCode? p.code with
  | some ty => .ok (Instr.ofType ty p.node p.count)
  | none => .error .reservedTypeCode

/-- The whole decoder. -/
def decodeEncoded : Encoded → Except DecodeError Instr
  | .command c => decode c
  | .call p => decodeCall p

/-- A command word {0, NODE, OPC} (R140). -/
def cmdWord (opc node : BitVec 8) : Word := 0#16 ++ node ++ opc

/-- A half word zero-extended to an argument word (R142). -/
def argHalf (h : Half) : Word := 0#16 ++ h

/-- The encoder. A word the command does not read is encoded as 0 (R142, R155). -/
def encode : Instr → Encoded
  | .nop => .command ⟨cmdWord 0x00#8 0#8, 0, 0⟩
  | .cfgNode k typ divc a b => .command ⟨cmdWord 0x01#8 k, 0#26 ++ divc ++ typ, 0#16 ++ b ++ a⟩
  | .install k => .command ⟨cmdWord 0x02#8 k, 0, 0⟩
  | .oscNote k inc dur => .command ⟨cmdWord 0x03#8 k, inc, dur⟩
  | .smpLoad k base len => .command ⟨cmdWord 0x04#8 k, base, len⟩
  | .smpPlay k amp => .command ⟨cmdWord 0x05#8 k, amp, 0⟩
  | .loopSetpos k frac => .command ⟨cmdWord 0x06#8 k, argHalf frac, 0⟩
  | .loopGate k value thresh rmin rmax => .command ⟨cmdWord 0x07#8 k, thresh ++ value, rmax ++ rmin⟩
  | .fltSet k f q => .command ⟨cmdWord 0x08#8 k, argHalf f, argHalf q⟩
  | .dlySetDelay k delay => .command ⟨cmdWord 0x09#8 k, delay, 0⟩
  | .dlySetFeedback k fb => .command ⟨cmdWord 0x0A#8 k, argHalf fb, 0⟩
  | .produceSilence k n => .call ⟨NodeType.code .silence, k, n⟩
  | .produceOsc k n => .call ⟨NodeType.code .osc, k, n⟩
  | .producePlayer k n => .call ⟨NodeType.code .player, k, n⟩
  | .produceLooper k n => .call ⟨NodeType.code .looper, k, n⟩
  | .produceMixer k n => .call ⟨NodeType.code .mixer, k, n⟩
  | .produceFilter k n => .call ⟨NodeType.code .filter, k, n⟩
  | .produceDelay k n => .call ⟨NodeType.code .delay, k, n⟩

/-- Bits [lo+31:lo] of a row's bits. -/
def tableWord (w lo : Nat) : Word := BitVec.ofNat 32 (w / 2 ^ lo)

/-- The instruction the decoder reads from a row of the opcode table. A row of more than 8 bits is a command: CMD_WORD is its
bits [31:0], ARG0 its bits [63:32], ARG1 its bits [95:64]. A row of at most 8 bits is a NODETYPE row: its bits [3:0] are the
type code, and the call is produce(0, BUF_LEN), the one a FILL after reset makes (log 12). -/
def decodeTableWord (nbits w : Nat) : Option Instr :=
  let e : Encoded :=
    if nbits ≤ 8 then .call ⟨BitVec.ofNat 4 w, 0#8, Config.hardware.bufLen⟩
    else .command ⟨tableWord w 0, tableWord w 32, tableWord w 64⟩
  match decodeEncoded e with
  | .ok i => some i
  | .error _ => none

end Sys2Proof
end

