-- ==== Sys2Proof/Machine/State.lean ====
section
/-!
DEFINITION. The state of PBB-CORE as plain data (10_state, 20_memory R100 to R105), the agent steps still to come (00_scope R19), the
reasons for a stop, and the state right after reset (70_reset_and_hazards R600).

Everything that a parameter of R10 sizes takes the configuration as its argument; written without it, a type is this hardware's.
-/

namespace Sys2Proof.Machine

/-- The two delivery buffers (10_state R51, R70). -/
inductive BufId where
  | A | B
deriving DecidableEq, Repr

/-- The divisor of a PLAYER or LOOPER (R60, R320). -/
inductive Divisor where
  | one | two | four
deriving DecidableEq, Repr

/-- OSC fields (R63). -/
structure Osc where
  phase : Word
  inc   : Word
  amp   : Word
  dec   : Word
deriving DecidableEq, Repr

/-- PLAYER fields (R64). -/
structure Player where
  base : Word
  len  : Word
  idx  : Word
  j    : BitVec 2
  amp  : Word
deriving DecidableEq, Repr

/-- LOOPER fields (R65). -/
structure Looper where
  base   : Word
  len    : Word
  idx    : Word
  j      : BitVec 2
  amp    : Word
  target : Word
  gated  : Bool
  frac   : Half
deriving DecidableEq, Repr

/-- MIXER fields (R66, 20_memory R105). -/
structure Mixer (C : Config := Config.hardware) where
  scratch : Vector Sample C.bufLen
deriving DecidableEq, Repr

/-- FILTER fields (R67); fb, b0 and b1 are two's complement. -/
structure Filter where
  f  : Half
  q  : Half
  fb : Word
  b0 : Word
  b1 : Word
deriving DecidableEq, Repr

/-- DELAY fields (R68). `tank` lists the slots that are not 0, by rising index (log 17). -/
structure Delay (C : Config := Config.hardware) where
  tank  : List (Nat × Sample)
  wp    : Fin C.tankLen
  dTgt  : Word
  dRun  : Word
  fbTgt : Word
  fbRun : Word
deriving DecidableEq, Repr

/-- The type of a node with the fields of that type (R60 to R68). -/
inductive NodeBody (C : Config := Config.hardware) where
  | silence
  | osc (o : Osc)
  | player (p : Player)
  | looper (l : Looper)
  | mixer (m : Mixer C)
  | filter (f : Filter)
  | delay (d : Delay C)
deriving DecidableEq, Repr

/-- A node of the node table: the common fields and the type's own (R60). -/
structure Node (C : Config := Config.hardware) where
  div    : Divisor
  childA : BitVec 8
  childB : BitVec 8
  body   : NodeBody C
deriving DecidableEq, Repr

/-- The node table (R60). -/
abbrev NodeTable (C : Config := Config.hardware) := Vector (Node C) C.nNodes

/-- The LIB space: the bytes the host has written, by rising LIB address; every other byte is its power-on value (log 4). -/
abbrev Lib := List Host.Cell

/-- The size of a host access (20_memory R101). -/
inductive AccessSize where
  | b1 | b2 | b4
deriving DecidableEq, Repr

/-- One entry of the schedule: a step of one of the four agents (00_scope R19), or a change of the input PERIPH_READY (R77). -/
inductive Event where
  /-- HOST: MemRead(addr, n). -/
  | hostRead (addr : Word) (n : AccessSize)
  /-- HOST: MemWrite(addr, n, v). -/
  | hostWrite (addr : Word) (n : AccessSize) (v : Word)
  /-- TICK: one strobe of the external sample timer. -/
  | tick
  /-- FILL: the refill of the fillable buffer. -/
  | fill
  /-- RESET. -/
  | reset
  /-- The external bring-up drives PERIPH_READY to a level. -/
  | periphReady (level : Bool)
deriving DecidableEq, Repr

/-- Why the machine stops with a fault. -/
inductive Fault where
  /-- Raised by PLAYER and LOOPER produce when the node's entry does not lie inside LIB: an access to a LIB address that does not
  exist (20_memory R102). No run reaches it, since SMP_LOAD refuses such an entry (R325). Safe: the model stops. -/
  | libOutsideSpace
deriving DecidableEq, Repr

/-- Why a form has no meaning. -/
inductive Refusal where
  /-- Raised by an arm of exec whose instruction has no meaning yet. Safe. -/
  | notModelled (mnemonic : String)
  /-- Raised by a produce operation called with n = 0 or n > BUF_LEN, which no rule calls (41 R261, 93 row 17). Safe. -/
  | produceCount
  /-- Raised by a produce operation on a node index that is not 0..N_NODES-1, which no rule calls (R260). Safe. -/
  | produceNodeRange
  /-- Raised by the produce operation of one type on a node of another, which no rule calls (R260, 93 row 16). Safe. -/
  | produceTypeMismatch
  /-- Raised by a produce whose calls nest deeper than N_NODES, which a graph that meets R61 never does (R264). Safe. -/
  | graphTooDeep
deriving DecidableEq, Repr

/-- All the state of PBB-CORE, its input level and the model's own four fields (INVENTORY.md, State). -/
structure State (C : Config := Config.hardware) where
  /-- RUNNING (R74). -/
  running : Bool
  /-- INFLIGHT (R70). -/
  inflight : BufId
  /-- FILL_REQ (R72). -/
  fillReq : Bool
  /-- DRAIN_IDX (R71). -/
  drainIdx : Fin C.bufLen
  /-- BUF[A] (R51). -/
  bufA : Vector (Code C) C.bufLen
  /-- BUF[B] (R51). -/
  bufB : Vector (Code C) C.bufLen
  /-- FIFO, head first (R73). -/
  fifo : List Command
  /-- ROOT_IDX (R75). -/
  rootIdx : Fin C.nNodes
  /-- DAC_WORD (R76). -/
  dacWord : Code C
  /-- The sticky bits STATUS[8:3]; bit i is STATUS bit i + 3 (R46). -/
  sticky : BitVec 6
  /-- IRQ_EN[8:3]; bit i is IRQ_EN bit i + 3 (R47). -/
  irqEn : BitVec 6
  /-- ERR_CAUSE.CODE (R48). -/
  errCode : BitVec 8
  /-- ERR_CAUSE.VALID (R48). -/
  errValid : Bool
  /-- ERR_INFO (R49). -/
  errInfo : Word
  /-- COMPLETIONS (R50). -/
  completions : Word
  /-- TICKS (R52). -/
  ticks : Word
  /-- FILL_CYCLES (R53). -/
  fillCycles : Word
  /-- CMD_ARG0 (R57). -/
  cmdArg0 : Word
  /-- CMD_ARG1 (R57). -/
  cmdArg1 : Word
  /-- The node table (R60). -/
  nodes : NodeTable C
  /-- LIB (20_memory R102). -/
  lib : Lib
  /-- The level of the input PERIPH_READY (R77, log 3). -/
  periphReady : Bool
  /-- The model's own: the agent steps still to come, next first (log 1). -/
  sched : List Event
  /-- The model's own: the value the last host read returned (log 8). -/
  busData : Word
  /-- The model's own: the Samples the last produce operation returned (log 9). -/
  dest : List Sample
  /-- The model's own: how many FILL_CYCLES values have been drawn (log 5). -/
  fillDraws : Nat
deriving DecidableEq, Repr

/-- A node right after reset: SILENCE, div 1, children 0 (R60, R600). -/
def Node.atReset {C : Config} : Node C := ⟨.one, 0#8, 0#8, .silence⟩

/-- The code of a zero signal, 2^(B−1): what every buffer word and DAC_WORD hold after reset (R51, R76, R600). -/
def zeroCode (C : Config) : Code C := BitVec.ofNat _ (2 ^ (C.dacBits - 1))

/-- The machine of a configuration right after reset (R80, R600); PERIPH_READY, busData and fillDraws as logs 3, 8 and 5 say. -/
def State.resetOf (C : Config) : State C where
  running := false
  inflight := .A
  fillReq := false
  drainIdx := ⟨0, C.bufLen_pos⟩
  bufA := Vector.replicate _ (zeroCode C)
  bufB := Vector.replicate _ (zeroCode C)
  fifo := []
  rootIdx := ⟨0, C.nNodes_pos⟩
  dacWord := zeroCode C
  sticky := 0#6
  irqEn := 0#6
  errCode := 0#8
  errValid := false
  errInfo := 0#32
  completions := 0#32
  ticks := 0#32
  fillCycles := 0#32
  cmdArg0 := 0#32
  cmdArg1 := 0#32
  nodes := Vector.replicate _ Node.atReset
  lib := []
  periphReady := true
  sched := []
  busData := 0#32
  dest := []
  fillDraws := 0

/-- This hardware right after reset. -/
def State.reset : State := State.resetOf Config.hardware

end Sys2Proof.Machine
end

