-- ==== Sys2Proof/Machine/Operands.lean ====
section
/-!
DEFINITION. The fixed-point layer of 40_fixed_point: rounding, saturation, the DAC converter, library values, and the operand
forms of the DSP rules. Every intermediate value is an exact integer (R12, R202).
-/

namespace Sys2Proof.Machine

/-- `rshr_round(x, s)`: x / 2^s to the nearest integer, ties up (R210). -/
def rshrRound (x : Int) : Nat → Int
  | 0 => x
  | s + 1 => (x + 2 ^ s) / 2 ^ (s + 1)

/-- `clamp(v, lo, hi)` (R15). -/
def clampInt (v lo hi : Int) : Int := min (max v lo) hi

/-- `sat16` (R213). -/
def sat16 (x : Int) : Int := clampInt x (-32768) 32767

/-- `sat32` (R213). -/
def sat32 (x : Int) : Int := clampInt x (-2147483648) 2147483647

/-- The Sample that stores `sat16(x)` (R214). -/
def toSample (x : Int) : Sample := BitVec.ofInt 16 (sat16 x)

/-- The s32 field that stores `sat32(x)` (R214). -/
def toS32 (x : Int) : Word := BitVec.ofInt 32 (sat32 x)

/-- The DAC converter: the device-native code of a Sample (R220). -/
def native (C : Config) (s : Sample) : Code C :=
  BitVec.ofInt C.dacBits
    (clampInt (rshrRound s.toInt (14 - C.dacBits) + 2 ^ (C.dacBits - 1)) 0 (2 ^ C.dacBits - 1))

/-- The divisor D (R320). -/
def Divisor.toNat : Divisor → Nat
  | .one => 1
  | .two => 2
  | .four => 4

/-- k_D = log2 D (R320). -/
def Divisor.log2 : Divisor → Nat
  | .one => 0
  | .two => 1
  | .four => 2

/-- The divisor of a DIVC code; 3 is reserved (30_encoding R143). -/
def Divisor.ofCode? (divc : BitVec 2) : Option Divisor :=
  match divc.toNat with
  | 0 => some .one
  | 1 => some .two
  | 2 => some .four
  | _ => none

/-- The triangle of R310: `rshr_round(t, 17) − 8192` of the phase folded around 0.5. -/
def triangle (phase : Word) : Int :=
  let t : Int := if phase.toNat < 2 ^ 31 then phase.toNat else 2 ^ 32 - phase.toNat
  rshrRound t 17 - 8192

/-- D times the interpolated library value at window position j (R321, R340). -/
def interpolate (D j : Nat) (c nx : Int) : Int := ((D : Int) - j) * c + j * nx

/-- The player and looper output: the interpolated value as a Sample, times the amplitude (R321, R340). -/
def scaled (acc : Int) (amp : Word) (kD : Nat) : Sample := toSample (rshrRound (acc * 64 * amp.toNat) (30 + kD))

/-- One slew step `v <- v + rshr_round(t − v, s)` of a u32 value (R212, R432). -/
def slew (v t : Word) (s : Nat) : Word :=
  BitVec.ofInt 32 ((v.toNat : Int) + rshrRound ((t.toNat : Int) - v.toNat) s)

/-- The delay's tap: linear interpolation between two tank slots, `fr` in UQ0.16 (R432). -/
def tapOf (t0 t1 : Sample) (fr : Nat) : Int :=
  rshrRound (t0.toInt * (2 ^ 16 - fr) + t1.toInt * fr) 16

/-- `ceil(a / b)` for b ≥ 1 (R15, R225). -/
def ceilDiv (a b : Nat) : Nat := (a + b - 1) / b

/-- `clamp` of a natural number (R15). -/
def clampNat (v lo hi : Nat) : Nat := min (max v lo) hi

end Sys2Proof.Machine
end

