-- ==== Sys2Proof/Machine/Flags.lean ====
section
/-!
DEFINITION. The STATUS bits, the error codes with the bit each sets, the STATUS word, the W1C write and the interrupt line (10_state
R46, R47; 60_exceptions R500, R501, R520).
-/

namespace Sys2Proof.Machine

variable {C : Config}

/-- The six sticky bits (R46). -/
inductive StatusBit where
  | bufDone | overrun | cmdErr | cmdOvf | busErr | startErr
deriving DecidableEq, Repr

/-- The bit's index in STATUS and IRQ_EN (R46, R47). -/
def StatusBit.index : StatusBit → Nat
  | .bufDone => 3
  | .overrun => 4
  | .cmdErr => 5
  | .cmdOvf => 6
  | .busErr => 7
  | .startErr => 8

/-- The bit alone, in the 6-bit field STATUS[8:3]. -/
def StatusBit.mask (b : StatusBit) : BitVec 6 := BitVec.twoPow 6 (b.index - 3)

/-- The complete list of errors (R500). -/
inductive ErrorCode where
  | cmdReservedOpcode | cmdReservedBits | cmdNodeRange | cmdWrongType | cmdBadTypeCode | cmdBadChild | cmdLoadRange
  | cmdFifoOverflow | busUnmapped | busSizeAlign | startNotReady | overrun
deriving DecidableEq, Repr

/-- The value recorded in ERR_CAUSE.CODE (R500). -/
def ErrorCode.code : ErrorCode → BitVec 8
  | .cmdReservedOpcode => 0x01#8
  | .cmdReservedBits => 0x02#8
  | .cmdNodeRange => 0x03#8
  | .cmdWrongType => 0x04#8
  | .cmdBadTypeCode => 0x05#8
  | .cmdBadChild => 0x06#8
  | .cmdLoadRange => 0x07#8
  | .cmdFifoOverflow => 0x10#8
  | .busUnmapped => 0x20#8
  | .busSizeAlign => 0x21#8
  | .startNotReady => 0x30#8
  | .overrun => 0x40#8

/-- The STATUS bit the error sets (R500). -/
def ErrorCode.bit : ErrorCode → StatusBit
  | .cmdReservedOpcode | .cmdReservedBits | .cmdNodeRange | .cmdWrongType | .cmdBadTypeCode | .cmdBadChild
  | .cmdLoadRange => .cmdErr
  | .cmdFifoOverflow => .cmdOvf
  | .busUnmapped | .busSizeAlign => .busErr
  | .startNotReady => .startErr
  | .overrun => .overrun

/-- The error a rejected decode of a command records (30_encoding R150 steps 1 and 2). A command never meets the last reason:
its TYPE code is checked by CFG_NODE (R150 step 5). -/
def errorOfDecode : DecodeError → ErrorCode
  | .reservedOpcode => .cmdReservedOpcode
  | .reservedBits => .cmdReservedBits
  | .reservedTypeCode => .cmdBadTypeCode

/-- Set one sticky bit (R501). -/
def setSticky (b : StatusBit) (s : State C) : State C := { s with sticky := s.sticky ||| b.mask }

/-- The W1C write to STATUS: each of bits [8:3] written as 1 is cleared, and nothing else changes (R46). -/
def clearSticky (v : Word) (s : State C) : State C := { s with sticky := s.sticky &&& ~~~ (v.extractLsb' 3 6) }

/-- INFLIGHT as a STATUS bit: 0 = A, 1 = B (R46). -/
def BufId.bit : BufId → Bool
  | .A => false
  | .B => true

/-- The STATUS word (R46). -/
def statusWord (s : State C) : Word :=
  0#8 ++ BitVec.ofNat 8 s.fifo.length ++ 0#6 ++ BitVec.ofBool s.periphReady ++ s.sticky ++ BitVec.ofBool s.fillReq
    ++ BitVec.ofBool s.inflight.bit ++ BitVec.ofBool s.running

/-- The ERR_CAUSE word (R48). -/
def errCauseWord (s : State C) : Word := BitVec.ofBool s.errValid ++ 0#23 ++ s.errCode

/-- The IRQ_EN word (R47). -/
def irqEnWord (s : State C) : Word := 0#23 ++ s.irqEn ++ 0#3

/-- The interrupt line: OR over i in 3..8 of STATUS[i] AND IRQ_EN[i] (R520). -/
def irq (s : State C) : Bool := s.sticky &&& s.irqEn != 0#6

end Sys2Proof.Machine
end

