-- ==== Sys2Proof/Machine/Ops.lean ====
section
/-!
DEFINITION. The named operations over memory, buffers, nodes and the error latch: sparse memories in canonical form, LIB and tank
accesses (20_memory R102, R104), node access, and recording an error (60_exceptions R505), which is all that "taking an exception"
is in PBB-CORE (R515), beside its clearing (R516).
-/

namespace Sys2Proof.Machine

variable {C : Config}

/-! ### Sequencing -/

/-- Go on with the next state, or stop as the first step stopped. -/
def andThen {α β : Type} (o : Host.Outcome α Fault Refusal) (k : α → Host.Outcome β Fault Refusal) :
    Host.Outcome β Fault Refusal :=
  match o with
  | .next a => k a
  | .fault r => .fault r
  | .refused r => .refused r

/-! ### Sparse memories -/

/-- The entry listed for an address. -/
def cellGet {α : Type} : List (Nat × α) → Nat → Option α
  | [], _ => none
  | (b, v) :: m, a => if a = b then some v else cellGet m a

/-- List an entry, keeping the addresses rising. -/
def cellPut {α : Type} : List (Nat × α) → Nat → α → List (Nat × α)
  | [], a, v => [(a, v)]
  | (b, w) :: m, a, v =>
    if a < b then (a, v) :: (b, w) :: m else if a = b then (a, v) :: m else (b, w) :: cellPut m a v

/-- Remove the entry of an address. -/
def cellDrop {α : Type} : List (Nat × α) → Nat → List (Nat × α)
  | [], _ => []
  | (b, w) :: m, a => if a = b then cellDrop m a else (b, w) :: cellDrop m a

/-- The addresses rise strictly and stay below a bound. -/
def risingBelow {α : Type} (bound : Nat) (m : List (Nat × α)) : Bool :=
  decide (m.Pairwise fun x y => x.1 < y.1) && m.all fun x => decide (x.1 < bound)

/-! ### LIB (20_memory R102) -/

/-- The canonical form of LIB: written addresses rise strictly and exist (log 4). -/
def Lib.wf (C : Config) (m : Lib) : Bool := risingBelow C.libBytes m

/-- `LibRead8(a)`: the byte last written, else the power-on byte (R102). -/
def libRead8 (m : Lib) (a : Nat) : Byte := (cellGet m a).getD (Config.libInit a)

/-- `LibWrite8(a, v)` (R102). -/
def libWrite8 (m : Lib) (a : Nat) (v : Byte) : Lib := cellPut m a v

/-- Σ_{i<n} LibRead8(a+i) · 2^(8i): the little-endian read (R110, R111). -/
def libReadN (m : Lib) (a : Nat) : Nat → Nat
  | 0 => 0
  | n + 1 => (libRead8 m a).toNat + 256 * libReadN m (a + 1) n

/-- for i < n: LibWrite8(a+i, v[8i+7:8i]): the little-endian write (R110, R111). -/
def libWriteN (m : Lib) (a v : Nat) : Nat → Lib
  | 0 => m
  | n + 1 => libWriteN (libWrite8 m a (BitVec.ofNat 8 v)) (a + 1) (v / 256) n

/-- L(i) = sext_8(LibRead8(base + i)) (40_fixed_point R204, 42_leaf_sources R321). -/
def libValue (m : Lib) (base : Word) (i : Nat) : Int := (libRead8 m (base.toNat + i)).toInt

/-! ### Delay tanks (20_memory R104) -/

/-- The canonical form of a tank: indices rise strictly below TANK_LEN and no listed slot is 0 (log 17). -/
def tankWf (C : Config) (t : List (Nat × Sample)) : Bool := risingBelow C.tankLen t && t.all fun x => x.2 != 0#16

/-- `TankRead(k, i)`: slot i mod TANK_LEN (R104). -/
def tankRead (C : Config) (t : List (Nat × Sample)) (i : Nat) : Sample := (cellGet t (i % C.tankLen)).getD 0#16

/-- `TankWrite(k, i, v)` (R104). -/
def tankWrite (C : Config) (t : List (Nat × Sample)) (i : Nat) (v : Sample) : List (Nat × Sample) :=
  if v = 0#16 then cellDrop t (i % C.tankLen) else cellPut t (i % C.tankLen) v

/-! ### Buffers (10_state R51, R70) -/

/-- The other buffer: FILLABLE = other(INFLIGHT) (R70). -/
def BufId.other : BufId → BufId
  | .A => .B
  | .B => .A

/-- BUF[x]. -/
def State.buf (s : State C) : BufId → Vector (Code C) C.bufLen
  | .A => s.bufA
  | .B => s.bufB

/-- Write all of BUF[x]. -/
def State.setBuf (s : State C) (x : BufId) (w : Vector (Code C) C.bufLen) : State C :=
  match x with
  | .A => { s with bufA := w }
  | .B => { s with bufB := w }

/-! ### Nodes (10_state R60 to R69) -/

/-- The node index of a NODE or child field, if it is below N_NODES. -/
def nodeIdx? (C : Config) (k : BitVec 8) : Option (Fin C.nNodes) :=
  if h : k.toNat < C.nNodes then some ⟨k.toNat, h⟩ else none

/-- The type of a node (R60, R61). -/
def NodeBody.type : NodeBody C → NodeType
  | .silence => .silence
  | .osc _ => .osc
  | .player _ => .player
  | .looper _ => .looper
  | .mixer _ => .mixer
  | .filter _ => .filter
  | .delay _ => .delay

/-- The initial fields CFG_NODE gives a type (R62 to R68). -/
def initialBody : NodeType → NodeBody C
  | .silence => .silence
  | .osc => .osc ⟨0, 0, 0, 0⟩
  | .player => .player ⟨0, 0, 0, 0, 0⟩
  | .looper => .looper ⟨0, 0, 0, 0, 0, 0, false, 0⟩
  | .mixer => .mixer ⟨Vector.replicate _ 0⟩
  | .filter => .filter ⟨0, 0, 0, 0, 0⟩
  | .delay => .delay ⟨[], ⟨0, C.tankLen_pos⟩, 0x00010000#32, 0x00010000#32, 0, 0⟩

/-- Replace the type's own fields of node i, its div and children kept. -/
def setBody (t : NodeTable C) (i : Fin C.nNodes) (b : NodeBody C) : NodeTable C := t.set i { t[i] with body := b }

/-- The state with node i's own fields replaced. -/
def State.setBody (s : State C) (i : Fin C.nNodes) (b : NodeBody C) : State C :=
  { s with nodes := Machine.setBody s.nodes i b }

/-! ### Errors (60_exceptions R505, R516) -/

/-- record(code, info): set the STATUS bit; the latch keeps the first error (R505). -/
def recordError (e : ErrorCode) (info : Word) (s : State C) : State C :=
  let s := setSticky e.bit s
  if s.errValid then s else { s with errCode := e.code, errInfo := info, errValid := true }

/-- Any write to ERR_CAUSE: CODE, VALID and ERR_INFO become 0 (R48, R505). -/
def clearCause (s : State C) : State C := { s with errCode := 0, errValid := false, errInfo := 0 }

/-- `raise Error(code, w)` of a command: the record, and no other effect (00_scope R18, R507). -/
def raiseCmd (e : ErrorCode) (w : Word) (s : State C) : Host.Outcome (State C) Fault Refusal := .next (recordError e w s)

/-- R150 step 3 of the command word w: NODE ≥ N_NODES is CMD_NODE_RANGE; otherwise go on with the node's index. -/
def onNode (w : Word) (k : BitVec 8) (s : State C) (f : Fin C.nNodes → Host.Outcome (State C) Fault Refusal) :
    Host.Outcome (State C) Fault Refusal :=
  match nodeIdx? C k with
  | none => raiseCmd .cmdNodeRange w s
  | some i => f i

end Sys2Proof.Machine
end

