-- ==== Sys2Proof/Machine/Graph.lean ====
section
/-!
DEFINITION. The graph commands NOP, CFG_NODE and INSTALL (41_delivery_engine R270 to R272).
-/

namespace Sys2Proof.Machine

variable {C : Config}

/-- NOP (R270): no effect. -/
def execNop (s : State C) : Host.Outcome (State C) Fault Refusal := .next s

/-- The children R61 allows node k of a type: `valid` of R271. -/
def childrenValid (C : Config) (ty : NodeType) (k a b : BitVec 8) : Bool :=
  match ty with
  | .mixer => childAbove C k a && childAbove C k b
  | .filter | .delay => childAbove C k a && b == 0#8
  | .silence | .osc | .player | .looper => a == 0#8 && b == 0#8

/-- The type and divisor R271 reads from TYPE and DIVC; none where it raises CMD_BAD_TYPE_CODE. -/
def cfgType? (typ : BitVec 4) (divc : BitVec 2) : Option (NodeType × Divisor) :=
  match NodeType.ofCode? typ, Divisor.ofCode? divc with
  | some ty, some d => if d = .one ∨ ty = .player ∨ ty = .looper then some (ty, d) else none
  | _, _ => none

/-- CFG_NODE (R271): node k becomes a fresh node of the type. -/
def execCfgNode (k : BitVec 8) (typ : BitVec 4) (divc : BitVec 2) (a b : BitVec 8) (s : State C) :
    Host.Outcome (State C) Fault Refusal :=
  let w := cmdWord 0x01#8 k
  onNode w k s fun i =>
    match cfgType? typ divc with
    | none => raiseCmd .cmdBadTypeCode w s
    | some (ty, d) =>
      if childrenValid C ty k a b then .next { s with nodes := s.nodes.set i ⟨d, a, b, initialBody ty⟩ }
      else raiseCmd .cmdBadChild w s

/-- INSTALL (R272): node k becomes the root. -/
def execInstall (k : BitVec 8) (s : State C) : Host.Outcome (State C) Fault Refusal :=
  onNode (cmdWord 0x02#8 k) k s fun i => .next { s with rootIdx := i }

end Sys2Proof.Machine
end

