-- ==== Sys2Proof/Machine/Combinator.lean ====
section
/-!
DEFINITION. Combinator sources (43_combinators): the per-sample bodies of MIXER, FILTER and DELAY produce, and the commands FLT_SET,
DLY_SET_DELAY and DLY_SET_FEEDBACK.
-/

namespace Sys2Proof.Machine

variable {C : Config}

/-- Run a per-sample body over a child's Samples, in sample order (43_combinators, introduction; R262). -/
def mapSamples {σ : Type} (body : σ → Sample → Sample × σ) : List Sample → σ → List Sample × σ
  | [], st => ([], st)
  | x :: xs, st =>
    let r := body st x
    let t := mapSamples body xs r.2
    (r.1 :: t.1, t.2)

/-! ### The per-sample bodies -/

/-- MIXER: the saturated sums (R380). -/
def mixSamples (a b : List Sample) : List Sample := List.zipWith (fun x y => toSample (x.toInt + y.toInt)) a b

/-- MIXER: scratch[0..n−1] takes childB's Samples, the rest stays (R380). -/
def fillScratch (m : Mixer C) (b : List Sample) : Mixer C := ⟨Vector.ofFn fun i => b.getD i m.scratch[i]⟩

/-- FILTER, one sample (R405). -/
def filterSample (f : Filter) (x : Sample) : Sample × Filter :=
  let b0 := f.b0.toInt
  let b1 := f.b1.toInt
  let t := rshrRound (f.fb.toInt * (b0 - b1)) 14
  let u := x.toInt * 2 ^ 16 - b0 + t
  let b0' := toS32 (b0 + rshrRound (f.f.toNat * u) 14)
  let b1' := toS32 (b1 + rshrRound (f.f.toNat * (b0'.toInt - b1)) 14)
  (toSample (rshrRound b1'.toInt 16), { f with b0 := b0', b1 := b1' })

/-- (wp − 1) mod L (R432). -/
def prevSlot (wp : Fin C.tankLen) : Fin C.tankLen :=
  ⟨(wp.val + (C.tankLen - 1)) % C.tankLen, Nat.mod_lt _ C.tankLen_pos⟩

/-- The delayed tap of a DELAY: the tank read at wp + d_run (R432). -/
def delayTap (d : Delay C) : Int :=
  let di := d.dRun.toNat / 2 ^ 16
  tapOf (tankRead C d.tank (d.wp.val + di)) (tankRead C d.tank (d.wp.val + di + 1)) (d.dRun.toNat % 2 ^ 16)

/-- DELAY, one sample (R432). -/
def delaySample (d : Delay C) (x : Sample) : Sample × Delay C :=
  let tap := delayTap d
  (toSample (x.toInt + tap),
   { d with
     tank := tankWrite C d.tank d.wp.val (toSample (x.toInt + rshrRound (tap * d.fbRun.toNat) 30))
     wp := prevSlot d.wp
     dRun := slew d.dRun d.dTgt C.dlySlewShift
     fbRun := slew d.fbRun d.fbTgt C.dlySlewShift })

/-! ### The commands -/

/-- The feedback coefficient of clamped f and q: q + q / (1 − f), truncated toward 0, with the divisor 1 at f = 1.0 (R401,
90_conflicts C4). -/
def filterFb (f q : Nat) : Int :=
  let d : Int := 2 ^ 14 - f
  let d := if d = 0 then 1 else d
  let m : Nat := q * 2 ^ 14 / d.natAbs
  if 0 < d then (q : Int) + m else (q : Int) - m

/-- FLT_SET (R401); b0 and b1 are kept. -/
def execFltSet (k : BitVec 8) (fArg qArg : Half) (s : State C) : Host.Outcome (State C) Fault Refusal :=
  let w := cmdWord 0x08#8 k
  onNode w k s fun i =>
    match s.nodes[i].body with
    | .filter n =>
      let f := min fArg.toNat Config.fMax
      let q := min qArg.toNat Config.qMax
      .next (s.setBody i (.filter
        { n with f := BitVec.ofNat 16 f, q := BitVec.ofNat 16 q, fb := BitVec.ofInt 32 (filterFb f q) }))
    | _ => raiseCmd .cmdWrongType w s

/-- DLY_SET_DELAY (R430): clamp(DELAY, 0x00010000, (TANK_LEN − 1) · 2^16 − 1). -/
def execDlySetDelay (k : BitVec 8) (delay : Word) (s : State C) : Host.Outcome (State C) Fault Refusal :=
  let w := cmdWord 0x09#8 k
  onNode w k s fun i =>
    match s.nodes[i].body with
    | .delay n =>
      .next (s.setBody i (.delay
        { n with dTgt := BitVec.ofNat 32 (clampNat delay.toNat 0x00010000 ((C.tankLen - 1) * 2 ^ 16 - 1)) }))
    | _ => raiseCmd .cmdWrongType w s

/-- DLY_SET_FEEDBACK (R431): min(FB, FBK_MAX) · 2^15. -/
def execDlySetFeedback (k : BitVec 8) (fb : Half) (s : State C) : Host.Outcome (State C) Fault Refusal :=
  let w := cmdWord 0x0A#8 k
  onNode w k s fun i =>
    match s.nodes[i].body with
    | .delay n =>
      .next (s.setBody i (.delay { n with fbTgt := BitVec.ofNat 32 (min fb.toNat Config.fbkMax * 2 ^ 15) }))
    | _ => raiseCmd .cmdWrongType w s

end Sys2Proof.Machine
end

