-- ==== Sys2Proof/Machine/Leaf.lean ====
section
/-!
DEFINITION. Leaf sources (42_leaf_sources): the per-sample bodies of SILENCE, OSC, PLAYER and LOOPER produce, and the commands
OSC_NOTE, SMP_LOAD, SMP_PLAY, LOOP_SETPOS and LOOP_GATE.
-/

namespace Sys2Proof.Machine

variable {C : Config}

/-- Run a per-sample body n times: the output of a sample comes from the state before it (42_leaf_sources, introduction). -/
def runSamples {σ : Type} (body : σ → Sample × σ) : Nat → σ → List Sample × σ
  | 0, st => ([], st)
  | n + 1, st =>
    let r := body st
    let t := runSamples body n r.2
    (r.1 :: t.1, t.2)

/-! ### The per-sample bodies -/

/-- SILENCE (R300). -/
def silenceRun (n : Nat) : List Sample := List.replicate n 0#16

/-- OSC, one sample (R310). -/
def oscSample (o : Osc) : Sample × Osc :=
  (toSample (rshrRound (triangle o.phase * o.amp.toNat) 30),
   { o with phase := o.phase + o.inc, amp := BitVec.ofNat 32 (o.amp.toNat - o.dec.toNat) })

/-- PLAYER, one sample (R321). -/
def playerSample (lib : Lib) (d : Divisor) (p : Player) : Sample × Player :=
  if p.len.toNat ≤ p.idx.toNat then (0#16, p)
  else
    let i := p.idx.toNat
    let nx := if i + 1 < p.len.toNat then libValue lib p.base (i + 1) else 0
    let out := scaled (interpolate d.toNat p.j.toNat (libValue lib p.base i) nx) p.amp d.log2
    (out, if p.j.toNat + 1 = d.toNat then { p with j := 0#2, idx := p.idx + 1#32 } else { p with j := p.j + 1#2 })

/-- The looper's amplitude slew, once per window: attack or release (R340). -/
def looperSlew (C : Config) (d : Divisor) (amp target : Word) : Word :=
  if amp.toNat < target.toNat then slew amp target (C.attShiftBase - d.log2)
  else if target.toNat < amp.toNat then slew amp target (C.relShiftBase - d.log2)
  else amp

/-- (i + 1) mod len: the looper's position wraps at the end of the entry (R342). -/
def loopNext (len i : Word) : Word := BitVec.ofNat 32 ((i.toNat + 1) % len.toNat)

/-- The looper's output of one sample: 0 without material (R340). -/
def looperOut (lib : Lib) (d : Divisor) (l : Looper) : Sample :=
  if l.len = 0#32 then 0#16
  else scaled (interpolate d.toNat l.j.toNat (libValue lib l.base l.idx.toNat)
    (libValue lib l.base (loopNext l.len l.idx).toNat)) l.amp d.log2

/-- LOOPER, one sample (R340). -/
def looperSample (C : Config) (lib : Lib) (d : Divisor) (l : Looper) : Sample × Looper :=
  (looperOut lib d l,
   if l.j.toNat + 1 = d.toNat then
     { l with
       j := 0#2
       idx := if l.len = 0#32 then l.idx else loopNext l.len l.idx
       amp := looperSlew C d l.amp l.target }
   else { l with j := l.j + 1#2 })

/-- The entry of a PLAYER lies inside LIB, so that produce reads only LIB addresses that exist (R323, R325; log 14). -/
def playerInLib (C : Config) (p : Player) : Bool := decide (p.base.toNat + p.len.toNat ≤ C.libBytes)

/-- The entry of a LOOPER lies inside LIB and its position inside the entry (R343, R325; log 14). -/
def looperInLib (C : Config) (l : Looper) : Bool :=
  decide (l.base.toNat + l.len.toNat ≤ C.libBytes) && (l.len == 0#32 || decide (l.idx.toNat < l.len.toNat))

/-! ### The commands -/

/-- The fields OSC_NOTE gives an OSC (R315). -/
def noteOsc (inc dur : Word) : Osc :=
  { phase := 0x40000000#32
    inc := inc
    amp := 0x40000000#32
    dec := BitVec.ofNat 32 (ceilDiv (2 ^ 30) (max dur.toNat 1)) }

/-- OSC_NOTE (R315). -/
def execOscNote (k : BitVec 8) (inc dur : Word) (s : State C) : Host.Outcome (State C) Fault Refusal :=
  let w := cmdWord 0x03#8 k
  onNode w k s fun i =>
    match s.nodes[i].body with
    | .osc _ => .next (s.setBody i (.osc (noteOsc inc dur)))
    | _ => raiseCmd .cmdWrongType w s

/-- SMP_LOAD (R325): a PLAYER becomes finished, a LOOPER restarts. -/
def execSmpLoad (k : BitVec 8) (base len : Word) (s : State C) : Host.Outcome (State C) Fault Refusal :=
  let w := cmdWord 0x04#8 k
  onNode w k s fun i =>
    match s.nodes[i].body with
    | .player p =>
      if loadInRange C base len then .next (s.setBody i (.player { p with base := base, len := len, j := 0#2, idx := len }))
      else raiseCmd .cmdLoadRange w s
    | .looper l =>
      if loadInRange C base len then .next (s.setBody i (.looper { l with base := base, len := len, j := 0#2, idx := 0#32 }))
      else raiseCmd .cmdLoadRange w s
    | _ => raiseCmd .cmdWrongType w s

/-- SMP_PLAY (R326). -/
def execSmpPlay (k : BitVec 8) (amp : Word) (s : State C) : Host.Outcome (State C) Fault Refusal :=
  let w := cmdWord 0x05#8 k
  onNode w k s fun i =>
    match s.nodes[i].body with
    | .player p => .next (s.setBody i (.player { p with idx := 0#32, j := 0#2, amp := amp }))
    | _ => raiseCmd .cmdWrongType w s

/-- LOOP_SETPOS (R345). -/
def execLoopSetpos (k : BitVec 8) (frac : Half) (s : State C) : Host.Outcome (State C) Fault Refusal :=
  let w := cmdWord 0x06#8 k
  onNode w k s fun i =>
    match s.nodes[i].body with
    | .looper l => .next (s.setBody i (.looper { l with frac := frac }))
    | _ => raiseCmd .cmdWrongType w s

/-- The gate map: the target amplitude t (R346). -/
def gateTarget (value thresh rmin rmax : Half) : Nat :=
  if value.toNat < thresh.toNat then 0
  else if rmax.toNat ≤ rmin.toNat then Config.ampHi
  else
    Config.ampLo + (clampNat value.toNat rmin.toNat rmax.toNat - rmin.toNat) * (Config.ampHi - Config.ampLo)
      / (rmax.toNat - rmin.toNat)

/-- The start offset in library values: floor(frac · len / 65536) (R346). -/
def strikeIdx (l : Looper) : Word := BitVec.ofNat 32 (l.frac.toNat * l.len.toNat / 65536)

/-- A looper after a gate with target t: a strike where it was not gated (R346). -/
def gateLooper (l : Looper) (t : Nat) : Looper :=
  let l := if 0 < t ∧ l.gated = false then { l with idx := strikeIdx l, j := 0#2 } else l
  { l with gated := decide (0 < t), target := BitVec.ofNat 32 t }

/-- LOOP_GATE (R346). -/
def execLoopGate (k : BitVec 8) (value thresh rmin rmax : Half) (s : State C) : Host.Outcome (State C) Fault Refusal :=
  let w := cmdWord 0x07#8 k
  onNode w k s fun i =>
    match s.nodes[i].body with
    | .looper l => .next (s.setBody i (.looper (gateLooper l (gateTarget value thresh rmin rmax))))
    | _ => raiseCmd .cmdWrongType w s

end Sys2Proof.Machine
end

