-- ==== Sys2Proof/Machine/Produce.lean ====
section
/-!
DEFINITION. The produce operation of the node graph (41_delivery_engine R260 to R265) and the seven produce instructions over it.
Its type says what R265 says: it reads the node table, LIB and its arguments and writes the node table only.
-/

namespace Sys2Proof.Machine

variable {C : Config}

/-- What a produce gives: the Samples and the node table after it, or a stop. -/
abbrev Produced (C : Config) := Host.Outcome (List Sample × NodeTable C) Fault Refusal

/-- Store the fields a per-sample loop leaves in node i, and give its Samples. -/
def finish {σ : Type} (t : NodeTable C) (i : Fin C.nNodes) (mk : σ → NodeBody C) (r : List Sample × σ) : Produced C :=
  .next (r.1, setBody t i (mk r.2))

/-- produce(k, n) (R260): dispatch on the node's type; a combinator first calls produce on childA, then (MIXER) on childB, then
runs its own loop (R262). `depth` bounds the nesting of calls by N_NODES (R264). -/
def produceAt (lib : Lib) : (depth : Nat) → (k : BitVec 8) → (n : Nat) → (t : NodeTable C) → Produced C
  | 0, _, _, _ => .refused .graphTooDeep
  | depth + 1, k, n, t =>
    match nodeIdx? C k with
    | none => .refused .produceNodeRange
    | some i =>
      match t[i].body with
      | .silence => .next (silenceRun n, t)
      | .osc o => finish t i .osc (runSamples oscSample n o)
      | .player p =>
        if playerInLib C p then finish t i .player (runSamples (playerSample lib t[i].div) n p) else .fault .libOutsideSpace
      | .looper l =>
        if looperInLib C l then finish t i .looper (runSamples (looperSample C lib t[i].div) n l) else .fault .libOutsideSpace
      | .mixer m =>
        andThen (produceAt lib depth t[i].childA n t) fun a =>
          andThen (produceAt lib depth t[i].childB n a.2) fun b =>
            finish b.2 i .mixer (mixSamples a.1 b.1, fillScratch m b.1)
      | .filter f =>
        andThen (produceAt lib depth t[i].childA n t) fun x => finish x.2 i .filter (mapSamples filterSample x.1 f)
      | .delay d =>
        andThen (produceAt lib depth t[i].childA n t) fun x => finish x.2 i .delay (mapSamples delaySample x.1 d)

/-- The produce instruction of a type on node k for n Samples: the Samples go to `dest` (log 9). A form no rule calls is refused
by name (log 10). -/
def produceOp (ty : NodeType) (k : BitVec 8) (n : Nat) (s : State C) : Host.Outcome (State C) Fault Refusal :=
  if countOk C n then
    match nodeIdx? C k with
    | none => .refused .produceNodeRange
    | some i =>
      if s.nodes[i].body.type = ty then
        andThen (produceAt s.lib C.nNodes k n s.nodes) fun r => .next { s with nodes := r.2, dest := r.1 }
      else .refused .produceTypeMismatch
  else .refused .produceCount

/-- SILENCE produce (R300). -/
def execProduceSilence (k : BitVec 8) (n : Nat) (s : State C) : Host.Outcome (State C) Fault Refusal := produceOp .silence k n s

/-- OSC produce (R310). -/
def execProduceOsc (k : BitVec 8) (n : Nat) (s : State C) : Host.Outcome (State C) Fault Refusal := produceOp .osc k n s

/-- PLAYER produce (R321). -/
def execProducePlayer (k : BitVec 8) (n : Nat) (s : State C) : Host.Outcome (State C) Fault Refusal := produceOp .player k n s

/-- LOOPER produce (R340). -/
def execProduceLooper (k : BitVec 8) (n : Nat) (s : State C) : Host.Outcome (State C) Fault Refusal := produceOp .looper k n s

/-- MIXER produce (R380). -/
def execProduceMixer (k : BitVec 8) (n : Nat) (s : State C) : Host.Outcome (State C) Fault Refusal := produceOp .mixer k n s

/-- FILTER produce (R405). -/
def execProduceFilter (k : BitVec 8) (n : Nat) (s : State C) : Host.Outcome (State C) Fault Refusal := produceOp .filter k n s

/-- DELAY produce (R432). -/
def execProduceDelay (k : BitVec 8) (n : Nat) (s : State C) : Host.Outcome (State C) Fault Refusal := produceOp .delay k n s

end Sys2Proof.Machine
end

