-- ==== Sys2Proof/Machine/Perform.lean ====
section
/-!
DEFINITION. The effect of an instruction on the machine of any configuration (00_scope R10): the same meanings as the arms of exec,
which is this hardware's.
-/

namespace Sys2Proof.Machine

/-- The effect of an instruction, whatever the parameters. -/
def perform {C : Config} (i : Instr) (s : State C) : Host.Outcome (State C) Fault Refusal :=
  match i with
  | .nop => execNop s
  | .cfgNode node typ divc childA childB => execCfgNode node typ divc childA childB s
  | .install node => execInstall node s
  | .oscNote node inc dur => execOscNote node inc dur s
  | .smpLoad node base len => execSmpLoad node base len s
  | .smpPlay node amp => execSmpPlay node amp s
  | .loopSetpos node frac => execLoopSetpos node frac s
  | .loopGate node value thresh rmin rmax => execLoopGate node value thresh rmin rmax s
  | .fltSet node f q => execFltSet node f q s
  | .dlySetDelay node delay => execDlySetDelay node delay s
  | .dlySetFeedback node fb => execDlySetFeedback node fb s
  | .produceSilence node count => execProduceSilence node count s
  | .produceOsc node count => execProduceOsc node count s
  | .producePlayer node count => execProducePlayer node count s
  | .produceLooper node count => execProduceLooper node count s
  | .produceMixer node count => execProduceMixer node count s
  | .produceFilter node count => execProduceFilter node count s
  | .produceDelay node count => execProduceDelay node count s

end Sys2Proof.Machine
end

