-- ==== Sys2Proof/Machine/Engine.lean ====
section
/-!
DEFINITION. The delivery engine (41_delivery_engine): applying and issuing commands, filling a buffer, START, TICK and FILL; and the
RESET step (70_reset_and_hazards R600).
-/

namespace Sys2Proof.Machine

variable {C : Config}

/-- apply(c) (R247): the decode checks, then the instruction's own meaning. -/
def applyCommand (c : Command) (s : State C) : Host.Outcome (State C) Fault Refusal :=
  match decode c with
  | .ok i => perform i s
  | .error e => raiseCmd (errorOfDecode e) c.word s

/-- for c in FIFO, head first: apply(c) (R253). -/
def applyAll : List Command → State C → Host.Outcome (State C) Fault Refusal
  | [], s => .next s
  | c :: cs, s => andThen (applyCommand c s) (applyAll cs)

/-- Command issue by a write of w to CMD_WORD (R245, R246). -/
def issue (w : Word) (s : State C) : Host.Outcome (State C) Fault Refusal :=
  let c : Command := ⟨w, s.cmdArg0, s.cmdArg1⟩
  if s.running = false then applyCommand c s
  else if s.fifo.length < C.fifoDepth then .next { s with fifo := s.fifo ++ [c] }
  else .next (recordError .cmdFifoOverflow w s)

/-- The instruction a fill runs: produce(ROOT_IDX, BUF_LEN) of the root's type (R254, R260). -/
def rootInstr (s : State C) : Instr :=
  Instr.ofType s.nodes[s.rootIdx].body.type (BitVec.ofNat 8 s.rootIdx.val) C.bufLen

/-- native(s[i]) for i = 0..BUF_LEN−1 (R254). -/
def codesOf (C : Config) (xs : List Sample) : Vector (Code C) C.bufLen := Vector.ofFn fun i => native C (xs.getD i.val 0#16)

/-- BUF[x][i] <- native(s[i]) for every i, with the Samples the last produce returned (R254). -/
def storeDest (x : BufId) (s : State C) : State C := { s.setBuf x (codesOf C s.dest) with dest := [] }

/-- fill_into(x) (R254). -/
def fillInto (x : BufId) (s : State C) : Host.Outcome (State C) Fault Refusal :=
  andThen (perform (rootInstr s) s) fun s => .next (storeDest x s)

/-- START (R241). -/
def startEngine (s : State C) : Host.Outcome (State C) Fault Refusal :=
  if s.running then .next s
  else if s.periphReady = false then .next (recordError .startNotReady 0#32 s)
  else
    andThen (fillInto .A s) fun s =>
      andThen (fillInto .B s) fun s =>
        .next { s with inflight := .A, drainIdx := ⟨0, C.bufLen_pos⟩, fillReq := false, running := true }

/-- drain_complete() (R251, R252). -/
def drainComplete (s : State C) : State C :=
  let s := setSticky .bufDone { s with completions := s.completions + 1#32 }
  let s := if s.fillReq then recordError .overrun s.completions s else s
  { s with inflight := s.inflight.other, fillReq := true }

/-- TICK (R250); not enabled, it is no step (log 2). -/
def tickStep (s : State C) : State C :=
  if s.running = false then s
  else
    let s := { s with dacWord := (s.buf s.inflight)[s.drainIdx], ticks := s.ticks + 1#32 }
    if h : s.drainIdx.val + 1 < C.bufLen then { s with drainIdx := ⟨s.drainIdx.val + 1, h⟩ }
    else drainComplete { s with drainIdx := ⟨0, C.bufLen_pos⟩ }

/-- FILL (R253); not enabled, it is no step (log 2). -/
def fillStep (s : State C) : Host.Outcome (State C) Fault Refusal :=
  if s.running = false ∨ s.fillReq = false then .next s
  else
    andThen (applyAll s.fifo { s with fillReq := false }) fun s =>
      andThen (fillInto s.inflight.other { s with fifo := [] }) fun s =>
        .next { s with fillCycles := Config.fillCycles s.fillDraws, fillDraws := s.fillDraws + 1 }

/-- RESET (R600): every piece of PBB-CORE's state takes its reset value but LIB. PERIPH_READY is an input (R77); the schedule, the
host's last read value and the count of draws are not the block's (logs 1, 8, 5). -/
def resetStep (s : State C) : State C :=
  { State.resetOf C with
    lib := s.lib, periphReady := s.periphReady, sched := s.sched, busData := s.busData, fillDraws := s.fillDraws }

end Sys2Proof.Machine
end

