-- ==== Sys2Proof/Machine/Bus.lean ====
section
/-!
DEFINITION. The host bus (20_memory R101, R110 to R113, R130) and the host registers (10_state section 3).
-/

namespace Sys2Proof.Machine

variable {C : Config}

/-- The host registers and the words of the buffer windows (10_state section 3, R59). -/
inductive Reg (C : Config) where
  | id | ctrl | status | irqEn | errCause | errInfo | completions | ticks | fillCycles | root
  | param (i : Fin 5) | dacOut | cmdArg0 | cmdArg1 | cmdWord
  | bufA (i : Fin C.bufLen) | bufB (i : Fin C.bufLen)
deriving DecidableEq, Repr

/-- n of an access (R101). -/
def AccessSize.bytes : AccessSize → Nat
  | .b1 => 1
  | .b2 => 2
  | .b4 => 4

/-- The register at word index q of the register space, that is at byte offset 4q (R130). -/
def regAt? (C : Config) (q : Nat) : Option (Reg C) :=
  match q with
  | 0 => some .id
  | 1 => some .ctrl
  | 2 => some .status
  | 3 => some .irqEn
  | 4 => some .errCause
  | 5 => some .errInfo
  | 6 => some .completions
  | 7 => some .ticks
  | 8 => some .fillCycles
  | 9 => some .root
  | 10 => some (.param 0)
  | 11 => some (.param 1)
  | 12 => some (.param 2)
  | 13 => some (.param 3)
  | 14 => some (.param 4)
  | 15 => some .dacOut
  | 16 => some .cmdArg0
  | 17 => some .cmdArg1
  | 18 => some .cmdWord
  | q =>
    if 0x200 ≤ q then (if h : q - 0x200 < C.bufLen then some (.bufB ⟨q - 0x200, h⟩) else none)
    else if 0x100 ≤ q then (if h : q - 0x100 < C.bufLen then some (.bufA ⟨q - 0x100, h⟩) else none)
    else none

/-- What a host access reaches. -/
inductive Target (C : Config) where
  | reg (r : Reg C)
  | lib (a : Nat)
  | bad (e : ErrorCode)
deriving DecidableEq, Repr

/-- The decoding of a host access of n bytes at a byte address, the first matching case deciding (R110). -/
def busTarget (C : Config) (addr n : Nat) : Target C :=
  if addr + n ≤ 0x1000 then
    if n ≠ 4 ∨ addr % 4 ≠ 0 then .bad .busSizeAlign
    else match regAt? C (addr / 4) with
      | some r => .reg r
      | none => .bad .busUnmapped
  else if Config.libWindow ≤ addr ∧ addr + n ≤ Config.libWindow + C.libBytes then
    if addr % n ≠ 0 then .bad .busSizeAlign else .lib (addr - Config.libWindow)
  else .bad .busUnmapped

/-- PARAM0..PARAM4 (R55). A SAMPLE_RATE of 2^32 or more, which PARAM4 cannot hold, shows as a free value (log 6). -/
def paramWord (C : Config) (i : Fin 5) : Word :=
  match i with
  | 0 => BitVec.ofNat 16 C.nNodes ++ BitVec.ofNat 16 C.bufLen
  | 1 => BitVec.ofNat 32 C.libBytes
  | 2 => BitVec.ofNat 32 C.tankLen
  | 3 => 0#4 ++ BitVec.ofNat 4 C.dlySlewShift ++ BitVec.ofNat 4 C.relShiftBase
      ++ BitVec.ofNat 4 C.attShiftBase ++ BitVec.ofNat 8 C.fifoDepth ++ BitVec.ofNat 8 C.dacBits
  | 4 => if C.sampleRate < 2 ^ 32 then BitVec.ofNat 32 C.sampleRate else Config.wideSampleRate C.sampleRate

/-- The value a register reads as (R44 to R59); write-only registers read as 0 (R40). -/
def readReg (r : Reg C) (s : State C) : Word :=
  match r with
  | .id => Config.idValue
  | .ctrl => 0
  | .status => statusWord s
  | .irqEn => irqEnWord s
  | .errCause => errCauseWord s
  | .errInfo => s.errInfo
  | .completions => s.completions
  | .ticks => s.ticks
  | .fillCycles => s.fillCycles
  | .root => BitVec.ofNat 32 s.rootIdx.val
  | .param i => paramWord C i
  | .dacOut => s.dacWord.setWidth 32
  | .cmdArg0 => s.cmdArg0
  | .cmdArg1 => s.cmdArg1
  | .cmdWord => 0
  | .bufA i => s.bufA[i].setWidth 32
  | .bufB i => s.bufB[i].setWidth 32

/-- A write of v to a register (R44 to R59); a write to a read-only register is ignored (R40). -/
def writeReg (r : Reg C) (v : Word) (s : State C) : Host.Outcome (State C) Fault Refusal :=
  match r with
  | .ctrl => if v.getLsbD 0 then startEngine s else .next s
  | .status => .next (clearSticky v s)
  | .irqEn => .next { s with irqEn := v.extractLsb' 3 6 }
  | .errCause => .next (clearCause s)
  | .cmdArg0 => .next { s with cmdArg0 := v }
  | .cmdArg1 => .next { s with cmdArg1 := v }
  | .cmdWord => issue v s
  | .id | .errInfo | .completions | .ticks | .fillCycles | .root | .param _ | .dacOut | .bufA _ | .bufB _ => .next s

/-- MemRead(addr, n) (R110): the value goes to busData (log 8). -/
def hostRead (addr : Word) (n : AccessSize) (s : State C) : State C :=
  match busTarget C addr.toNat n.bytes with
  | .reg r => { s with busData := readReg r s }
  | .lib a => { s with busData := BitVec.ofNat 32 (libReadN s.lib a n.bytes) }
  | .bad e => { recordError e addr s with busData := 0 }

/-- MemWrite(addr, n, v) (R110). -/
def hostWrite (addr : Word) (n : AccessSize) (v : Word) (s : State C) : Host.Outcome (State C) Fault Refusal :=
  match busTarget C addr.toNat n.bytes with
  | .reg r => writeReg r v s
  | .lib a => .next { s with lib := libWriteN s.lib a v.toNat n.bytes }
  | .bad e => .next (recordError e addr s)

/-- One entry of the schedule (00_scope R19, 10_state R77). -/
def runEvent (e : Event) (s : State C) : Host.Outcome (State C) Fault Refusal :=
  match e with
  | .hostRead addr n => .next (hostRead addr n s)
  | .hostWrite addr n v => hostWrite addr n v s
  | .tick => .next (tickStep s)
  | .fill => fillStep s
  | .reset => .next (resetStep s)
  | .periphReady level => .next { s with periphReady := level }

/-- One step of the machine of any configuration: the next entry of the schedule is taken and run (log 1). With no agent step to come
the machine rests (log 2). -/
def stepOf (s : State C) : Host.Outcome (State C) Fault Refusal :=
  match s.sched with
  | [] => .next s
  | e :: rest => runEvent e { s with sched := rest }

/-- A node of a type with its initial fields, wired to the nodes 1 and 2 where the type uses children. -/
def freshNode (ty : NodeType) : Node :=
  match ty with
  | .mixer => ⟨.one, 1#8, 2#8, initialBody ty⟩
  | .filter | .delay => ⟨.one, 1#8, 0#8, initialBody ty⟩
  | .silence | .osc | .player | .looper => ⟨.one, 0#8, 0#8, initialBody ty⟩

/-- The state whose next step is the host's write of a command word, its arguments staged and the engine idle, so that the step
applies the command (log 11). -/
def placeCommand (c : Command) (s : State) : State :=
  { s with
    running := false, cmdArg0 := c.arg0, cmdArg1 := c.arg1,
    sched := .hostWrite 0x048#32 .b4 c.word :: s.sched }

/-- The state whose next step is a FILL of a root of the type, no command queued (log 11). -/
def placeRoot (ty : NodeType) (s : State) : State :=
  { s with
    running := true, fillReq := true, fifo := [], rootIdx := 0, nodes := s.nodes.set 0 (freshNode ty),
    sched := .fill :: s.sched }

end Sys2Proof.Machine
end

