-- ==== Sys2Proof/Machine/Dispatch.lean ====
section
/-!
DEFINITION. The dispatch of an instruction to its meaning: one arm per constructor of Instr.
-/

namespace Sys2Proof.Machine

def exec (i : Instr) (s : State) : Host.Outcome State Fault Refusal :=
  match i with
  | .nop => Sys2Proof.Machine.execNop s
  | .cfgNode node typ divc childA childB => Sys2Proof.Machine.execCfgNode node typ divc childA childB s
  | .install node => Sys2Proof.Machine.execInstall node s
  | .oscNote node inc dur => Sys2Proof.Machine.execOscNote node inc dur s
  | .smpLoad node base len => Sys2Proof.Machine.execSmpLoad node base len s
  | .smpPlay node amp => Sys2Proof.Machine.execSmpPlay node amp s
  | .loopSetpos node frac => Sys2Proof.Machine.execLoopSetpos node frac s
  | .loopGate node value thresh rmin rmax => Sys2Proof.Machine.execLoopGate node value thresh rmin rmax s
  | .fltSet node f q => Sys2Proof.Machine.execFltSet node f q s
  | .dlySetDelay node delay => Sys2Proof.Machine.execDlySetDelay node delay s
  | .dlySetFeedback node fb => Sys2Proof.Machine.execDlySetFeedback node fb s
  | .produceSilence node count => Sys2Proof.Machine.execProduceSilence node count s
  | .produceOsc node count => Sys2Proof.Machine.execProduceOsc node count s
  | .producePlayer node count => Sys2Proof.Machine.execProducePlayer node count s
  | .produceLooper node count => Sys2Proof.Machine.execProduceLooper node count s
  | .produceMixer node count => Sys2Proof.Machine.execProduceMixer node count s
  | .produceFilter node count => Sys2Proof.Machine.execProduceFilter node count s
  | .produceDelay node count => Sys2Proof.Machine.execProduceDelay node count s

end Sys2Proof.Machine
end

