-- ==== Sys2Proof/Machine/Step.lean ====
section
/-!
DEFINITION. The step of this hardware (R10), and the placing of one instruction where the next step takes it.
-/

namespace Sys2Proof.Machine

/-- One step of this hardware's machine. -/
def step (s : State) : Host.Outcome State Fault Refusal := stepOf s

/-- The state whose very next step runs the instruction of a row's word (log 11): a command row through the host's write of
CMD_WORD, a node-type row through a FILL whose root has that type. -/
def State.withFetchWord (s : State) (nbits w : Nat) : State :=
  if nbits ≤ 8 then
    match NodeType.ofCode? (BitVec.ofNat 4 w) with
    | some ty => placeRoot ty s
    | none => s
  else placeCommand ⟨tableWord w 0, tableWord w 32, tableWord w 64⟩ s

end Sys2Proof.Machine
end

