-- ==== Sys2Proof/Machine/Driver.lean ====
section
/-!
DEFINITION. The host's side of PBB-CMD: the host writes a command line assembles to (30_encoding R155), the pseudo-instructions
(R156), the report (41_delivery_engine R257), and the driver reference conversions (42_leaf_sources R318, R329, R348; 43_combinators R419, R438). No hardware rule depends
on them (00_scope R9).
-/

namespace Sys2Proof.Machine

/-! ### Assembly -/

/-- `w32 addr, v` (R156). -/
def w32 (addr v : Word) : Event := .hostWrite addr .b4 v

/-- `r32 addr` (R156). -/
def r32 (addr : Word) : Event := .hostRead addr .b4

/-- Does the command read ARG0 (R142, R155)? -/
def usesArg0 : Instr → Bool
  | .cfgNode .. | .oscNote .. | .smpLoad .. | .smpPlay .. | .loopSetpos .. | .loopGate .. | .fltSet .. | .dlySetDelay ..
  | .dlySetFeedback .. => true
  | .nop | .install .. | .produceSilence .. | .produceOsc .. | .producePlayer .. | .produceLooper .. | .produceMixer ..
  | .produceFilter .. | .produceDelay .. => false

/-- Does the command read ARG1 (R142, R155)? -/
def usesArg1 : Instr → Bool
  | .cfgNode .. | .oscNote .. | .smpLoad .. | .loopGate .. | .fltSet .. => true
  | .nop | .install .. | .smpPlay .. | .loopSetpos .. | .dlySetDelay .. | .dlySetFeedback .. | .produceSilence ..
  | .produceOsc .. | .producePlayer .. | .produceLooper .. | .produceMixer .. | .produceFilter .. | .produceDelay .. => false

/-- The host writes of one command line: the arguments the command reads, then the command word (R140, R155). A produce operation
is no command line and assembles to nothing. -/
def assemble (i : Instr) : List Event :=
  match encode i with
  | .command c =>
    (if usesArg0 i then [w32 0x040#32 c.arg0] else []) ++ (if usesArg1 i then [w32 0x044#32 c.arg1] else [])
      ++ [w32 0x048#32 c.word]
  | .call _ => []

/-- `cfg n, type[, divc[, a[, b]]]` and its seven pseudo-instructions `cfg.silence` to `cfg.delay` (R155, R156): the divisor is
log2 D, an operand not written is 0. -/
def asmCfg (n : BitVec 8) (ty : NodeType) (d : Divisor) (a b : BitVec 8) : List Event :=
  assemble (.cfgNode n ty.code (BitVec.ofNat 2 d.log2) a b)

/-- The storage collaborator's load: the entry's bytes are written to LIB at `base` through the window, then `smp.load` (R329). -/
def asmLoadEntry (k : BitVec 8) (base : Nat) (bytes : List Byte) : List Event :=
  bytes.mapIdx (fun i b => .hostWrite (BitVec.ofNat 32 (Config.libWindow + base + i)) .b1 (b.setWidth 32))
    ++ assemble (.smpLoad k (BitVec.ofNat 32 base) (BitVec.ofNat 32 bytes.length))

/-- `start` (R156). -/
def asmStart : List Event := [w32 0x004#32 1#32]

/-- `clear.errors` (R156, R516). -/
def asmClearErrors : List Event := [w32 0x008#32 0x1F8#32, w32 0x010#32 0#32]

/-- One poll of `wait.applied` (R156): STATUS is read; the host repeats it until bits [23:16] are 0. -/
def asmPollApplied : List Event := [r32 0x008#32]

/-- What `wait.applied` waits for, of the STATUS word read (R123, R156). -/
def appliedSeen (status : Word) : Bool := status.extractLsb' 16 8 == 0#8

/-! ### The report (41_delivery_engine R257) -/

/-- Buffers sent, or samples elapsed, between two reads of COMPLETIONS, or of TICKS: the difference mod 2^32 (R257). -/
def reportSince (now before : Word) : Word := now - before

/-! ### Driver reference conversions -/

/-- `round` of an exact value: half up (R318). -/
def roundHalfUp (x : ℚ) : ℤ := (x + 1 / 2).floor

/-- OSC_NOTE INC of a frequency in Hz (R318). -/
def driverInc (C : Config) (freq : ℚ) : Word := BitVec.ofInt 32 (roundHalfUp (freq * 2 ^ 32 / C.sampleRate))

/-- OSC_NOTE DUR of a duration in seconds (R318). -/
def driverDur (C : Config) (dur : ℚ) : ℤ := (dur * C.sampleRate).floor

/-- SMP_PLAY AMP of a real amplitude a ≥ 0 (R329). -/
def driverAmp (a : ℚ) : ℤ := min (roundHalfUp (a * 2 ^ 30)) (2 ^ 32 - 1)

/-- The LIB byte of a library value x ∈ [−1, 1) (R329). -/
def driverLibByte (x : ℚ) : Byte := BitVec.ofInt 8 (clampInt (roundHalfUp (x * 128)) (-128) 127)

/-- LOOP_SETPOS FRAC of a fraction (R348): fractions wrap. -/
def driverFrac (fraction : ℚ) : Half := BitVec.ofInt 16 (fraction * 65536).floor

/-- FLT_SET Q of a resonance q (R419). -/
def driverQ (q : ℚ) : ℤ := min (roundHalfUp (q * 2 ^ 14)) 65535

/-- F is the FLT_SET coefficient of a frequency in Hz (R419); the sine is the real one. -/
def IsDriverF (C : Config) (freq : ℝ) (F : ℤ) : Prop :=
  F = ⌊2 * Real.sin (Real.pi * min freq ((C.sampleRate : ℝ) / 4) / C.sampleRate) * 2 ^ 14 + 1 / 2⌋

/-- DLY_SET_DELAY DELAY of a delay in samples (R438). -/
def driverDelay (samples : ℚ) : ℤ := min (roundHalfUp (samples * 2 ^ 16)) (2 ^ 32 - 1)

/-- DLY_SET_FEEDBACK FB of a real gain (R438). -/
def driverFb (g : ℚ) : ℤ := clampInt (roundHalfUp (g * 2 ^ 15)) 0 65535

end Sys2Proof.Machine
end

