-- ==== Sys2Proof/Safety.lean ====
section
/-!
DEFINITION. What counts as a good state and a good run of PBB-CORE, in the terms the claims use: the invariant (the field bounds of
10_state, the canonical memories, the idle engine), the deadline premise and the fairness of infinite runs (70_reset_and_hazards R621,
R620), the checks that stand before the effect of a command (30_encoding R150), and the per-sample rules as relations.
-/

namespace Sys2Proof.Machine

variable {C : Config}

/-! ### The invariant -/

/-- The bounds 10_state gives the fields of each type (R63 to R68), for a node of divisor d. -/
def bodyOk (C : Config) (d : Divisor) : NodeBody C → Bool
  | .silence => true
  | .osc o => decide (o.amp.toNat ≤ 2 ^ 30)
  | .player p =>
    decide (p.base.toNat + p.len.toNat ≤ C.libBytes) && decide (p.idx.toNat ≤ p.len.toNat)
      && decide (p.j.toNat < d.toNat)
  | .looper l =>
    decide (l.base.toNat + l.len.toNat ≤ C.libBytes) && decide (l.idx.toNat ≤ l.len.toNat - 1)
      && decide (l.j.toNat < d.toNat) && decide (l.amp.toNat ≤ Config.ampHi)
      && (l.target == 0#32 || decide (Config.ampLo ≤ l.target.toNat) && decide (l.target.toNat ≤ Config.ampHi))
      && l.gated == decide (0 < l.target.toNat)
  | .mixer _ => true
  | .filter f =>
    decide (f.f.toNat ≤ Config.fMax) && decide (f.q.toNat ≤ Config.qMax)
      && f.fb == BitVec.ofInt 32 (filterFb f.f.toNat f.q.toNat)
  | .delay y =>
    tankWf C y.tank && decide (0x10000 ≤ y.dTgt.toNat) && decide (y.dTgt.toNat ≤ (C.tankLen - 1) * 2 ^ 16 - 1)
      && decide (0x10000 ≤ y.dRun.toNat) && decide (y.dRun.toNat ≤ (C.tankLen - 1) * 2 ^ 16 - 1)
      && decide (y.fbTgt.toNat ≤ Config.fbkMax * 2 ^ 15) && decide (y.fbRun.toNat ≤ Config.fbkMax * 2 ^ 15)

/-- The common fields are as R60 and R61 say for node k: div is 1 but for PLAYER and LOOPER, a used child index c satisfies
k < c < N_NODES, an unused one is 0. -/
def wiringOk (k : Nat) (n : Node C) : Bool :=
  (n.div == .one || n.body.type == .player || n.body.type == .looper)
    && childrenValid C n.body.type (BitVec.ofNat 8 k) n.childA n.childB

/-- Every node of the table is as 10_state section 5 says. -/
def nodesOk (t : NodeTable C) : Bool :=
  (List.finRange C.nNodes).all fun i => wiringOk i.val t[i] && bodyOk C t[i].div t[i].body

/-- Before START the engine is as reset left it (R74, R245, R550). -/
def idleOk (s : State C) : Bool :=
  s.running || (s.fifo == [] && s.fillReq == false && s.inflight == .A && s.drainIdx.val == 0 && s.dacWord == zeroCode C
    && s.ticks == 0#32 && s.completions == 0#32)

/-- The error latch holds nothing while VALID is 0, and a code of R500 while it is 1 (R48, R500, R505). -/
def latchOk (s : State C) : Bool :=
  if s.errValid then
    [ErrorCode.cmdReservedOpcode, .cmdReservedBits, .cmdNodeRange, .cmdWrongType, .cmdBadTypeCode, .cmdBadChild, .cmdLoadRange,
      .cmdFifoOverflow, .busUnmapped, .busSizeAlign, .startNotReady, .overrun].any fun e => s.errCode == e.code
  else s.errCode == 0#8 && s.errInfo == 0#32

/-- The invariant of the model. -/
def inv (s : State C) : Bool :=
  nodesOk s.nodes && Lib.wf C s.lib && decide (s.fifo.length ≤ C.fifoDepth) && idleOk s && latchOk s && s.dest == []

/-! ### The deadline premise (R621) -/

/-- What the premise P_DEADLINE looks at: is the block running, the level of PERIPH_READY, the TICKs since the buffer in flight was
taken up, and whether the last drain-complete is still without its FILL. -/
structure Watch where
  running : Bool
  ready : Bool
  idx : Nat
  owed : Bool
deriving DecidableEq, Repr

/-- What there is to watch in a state. -/
def Watch.of (s : State C) : Watch := ⟨s.running, s.periphReady, s.drainIdx.val, s.fillReq⟩

/-- A START that starts the block: bit 0 of CTRL written as 1 while it is idle and ready (R241). -/
def Watch.starts (w : Watch) (addr : Word) (n : AccessSize) (v : Word) : Bool :=
  !w.running && w.ready && addr == 0x004#32 && n == .b4 && v.getLsbD 0

/-- The watch after an agent step: a TICK of a running block may be a drain-complete (R250, R251), a FILL serves it (R253), a START
begins a buffer anew (R241), a RESET stops the block and withdraws its request (R600). -/
def Watch.next (C : Config) (w : Watch) : Event → Watch
  | .tick =>
    if w.running = false then w
    else if w.idx + 1 = C.bufLen then { w with idx := 0, owed := true } else { w with idx := w.idx + 1 }
  | .fill => if w.running then { w with owed := false } else w
  | .reset => { w with running := false, idx := 0, owed := false }
  | .hostWrite addr n v => if w.starts addr n v then { w with running := true, idx := 0, owed := false } else w
  | .hostRead _ _ => w
  | .periphReady level => { w with ready := level }

/-- The step is the BUF_LEN-th TICK after a drain-complete that no FILL has followed. -/
def Watch.missed (C : Config) (w : Watch) (e : Event) : Bool := e == .tick && w.running && w.owed && w.idx + 1 == C.bufLen

/-- P_DEADLINE (R621) of a schedule: after every drain-complete a FILL comes before the BUF_LEN-th TICK that follows it, unless a
RESET comes first and withdraws the request. -/
def deadlineMet (C : Config) (w : Watch) : List Event → Bool
  | [] => true
  | e :: r => !w.missed C e && deadlineMet C (w.next C e) r

/-! ### Infinite runs and their fairness (R620) -/

/-- When a step of an agent is enabled (R620, R250, R253). -/
def Enabled (e : Event) (s : State C) : Prop :=
  match e with
  | .tick => s.running = true
  | .fill => s.running = true ∧ s.fillReq = true
  | .hostRead _ _ | .hostWrite _ _ _ | .reset | .periphReady _ => True

/-- An infinite run: every step of it is enabled, and is the machine's own step on the one entry it takes. -/
structure IsRun (ev : Nat → Event) (σ : Nat → State) : Prop where
  enabled : ∀ n, Enabled (ev n) (σ n)
  steps : ∀ n, step { σ n with sched := [ev n] } = .next (σ (n + 1))

/-- The fairness a model of PBB-CORE assumes of an infinite run (R620): it has infinitely many TICK steps, and a FILL that stays
enabled eventually occurs. -/
structure Fair (ev : Nat → Event) (σ : Nat → State) : Prop where
  ticks : ∀ n, ∃ m, n ≤ m ∧ ev m = .tick
  fills : ∀ n, (∀ m, n ≤ m → Enabled .fill (σ m)) → ∃ m, n ≤ m ∧ ev m = .fill

/-- P_DEADLINE of an infinite run: every beginning of it meets it. -/
def RunMeetsDeadline (ev : Nat → Event) (σ : Nat → State) : Prop :=
  ∀ n, deadlineMet Config.hardware (.of (σ 0)) ((List.range n).map ev) = true

/-! ### The subtree of a node (R260, R262) -/

/-- Node j is in the subtree of node i: it is i, or it is reached from i through children that are used (R61). -/
inductive InSubtree (t : NodeTable C) : Fin C.nNodes → Fin C.nNodes → Prop where
  | self (i : Fin C.nNodes) : InSubtree t i i
  | viaA (i c j : Fin C.nNodes) : t[i].body.type = .mixer ∨ t[i].body.type = .filter ∨ t[i].body.type = .delay →
      t[i].childA.toNat = c.val → InSubtree t c j → InSubtree t i j
  | viaB (i c j : Fin C.nNodes) : t[i].body.type = .mixer → t[i].childB.toNat = c.val → InSubtree t c j → InSubtree t i j

/-! ### The checks before a command's effect -/

/-- The node a command addresses; NOP addresses none and names node 0 (R140). -/
def addressed : Instr → BitVec 8
  | .nop => 0#8
  | .cfgNode k _ _ _ _ => k
  | .install k => k
  | .oscNote k _ _ => k
  | .smpLoad k _ _ => k
  | .smpPlay k _ => k
  | .loopSetpos k _ => k
  | .loopGate k _ _ _ _ => k
  | .fltSet k _ _ => k
  | .dlySetDelay k _ => k
  | .dlySetFeedback k _ => k
  | .produceSilence k _ => k
  | .produceOsc k _ => k
  | .producePlayer k _ => k
  | .produceLooper k _ => k
  | .produceMixer k _ => k
  | .produceFilter k _ => k
  | .produceDelay k _ => k

/-- The second decode check of R150 passes for a command with the reserved masks of R142; an ignored argument word has the mask 0. -/
abbrev reservedClear (mask0 mask1 : Word) (c : Command) : Prop :=
  rsvdOf c.word = 0#16 ∧ c.arg0 &&& mask0 = 0#32 ∧ c.arg1 &&& mask1 = 0#32

/-- Checks 2 and 3 of R150 for a command of opcode `opc`: each fails with its own error and no other effect, in this order. When
check 2 passes, the command does what the instruction `mk NODE ARG0 ARG1` does. -/
def RangeChecksFirst (opc : BitVec 8) (mask0 mask1 : Word) (mk : BitVec 8 → Word → Word → Instr) : Prop :=
  ∀ (c : Command) (s : State), opcOf c.word = opc →
    (¬ reservedClear mask0 mask1 c → applyCommand c s = .next (recordError .cmdReservedBits c.word s)) ∧
    (reservedClear mask0 mask1 c → applyCommand c s = exec (mk (nodeOf c.word) c.arg0 c.arg1) s) ∧
    (reservedClear mask0 mask1 c → Config.hardware.nNodes ≤ (nodeOf c.word).toNat →
      applyCommand c s = .next (recordError .cmdNodeRange c.word s))

/-- Checks 2 to 4 of R150 for a command of opcode `opc` that needs a node of one of `types`. -/
def ChecksFirst (opc : BitVec 8) (mask0 mask1 : Word) (types : List NodeType) (mk : BitVec 8 → Word → Word → Instr) : Prop :=
  RangeChecksFirst opc mask0 mask1 mk ∧
  ∀ (c : Command) (s : State) (i : Fin Config.hardware.nNodes), opcOf c.word = opc → reservedClear mask0 mask1 c →
    (nodeOf c.word).toNat = i.val → s.nodes[i].body.type ∉ types →
    applyCommand c s = .next (recordError .cmdWrongType c.word s)

/-! ### The per-sample rules of produce, as relations

Each relates the node before a sample, the sample's output and the node after it, in the terms of the rule's pseudocode. -/

/-- The player and looper output: acc · 64 · amp shifted by 30 + k_D with rounding, saturated (R321, R340). -/
def ScaledOutput (D : Divisor) (j : Nat) (c nx : Int) (amp : Word) (out : Sample) : Prop :=
  out.toInt = sat16 (rshrRound ((((D.toNat : Int) - j) * c + j * nx) * 64 * amp.toNat) (30 + D.log2))

/-- One sample of PLAYER produce (R321). -/
def PlayerRule (lib : Lib) (D : Divisor) (p : Player) (out : Sample) (p' : Player) : Prop :=
  if p.len.toNat ≤ p.idx.toNat then out = 0#16 ∧ p' = p
  else
    ScaledOutput D p.j.toNat (libRead8 lib (p.base.toNat + p.idx.toNat)).toInt
        (if p.idx.toNat + 1 < p.len.toNat then (libRead8 lib (p.base.toNat + p.idx.toNat + 1)).toInt else 0) p.amp out
      ∧ p'.base = p.base ∧ p'.len = p.len ∧ p'.amp = p.amp
      ∧ (if p.j.toNat + 1 = D.toNat then p'.j.toNat = 0 ∧ p'.idx.toNat = p.idx.toNat + 1
        else p'.j.toNat = p.j.toNat + 1 ∧ p'.idx = p.idx)

/-- One sample of LOOPER produce (R340). -/
def LooperRule (C : Config) (lib : Lib) (D : Divisor) (l : Looper) (out : Sample) (l' : Looper) : Prop :=
  (if l.len.toNat = 0 then out = 0#16
    else ScaledOutput D l.j.toNat (libRead8 lib (l.base.toNat + l.idx.toNat)).toInt
      (libRead8 lib (l.base.toNat + (l.idx.toNat + 1) % l.len.toNat)).toInt l.amp out)
    ∧ l'.base = l.base ∧ l'.len = l.len ∧ l'.target = l.target ∧ l'.gated = l.gated ∧ l'.frac = l.frac
    ∧ (if l.j.toNat + 1 = D.toNat then
        l'.j.toNat = 0
          ∧ (if l.len.toNat = 0 then l'.idx = l.idx else l'.idx.toNat = (l.idx.toNat + 1) % l.len.toNat)
          ∧ (l'.amp.toNat : Int) =
            (if l.amp.toNat < l.target.toNat then
              l.amp.toNat + rshrRound ((l.target.toNat : Int) - l.amp.toNat) (C.attShiftBase - D.log2)
            else if l.target.toNat < l.amp.toNat then
              l.amp.toNat + rshrRound ((l.target.toNat : Int) - l.amp.toNat) (C.relShiftBase - D.log2)
            else l.amp.toNat)
      else l'.j.toNat = l.j.toNat + 1 ∧ l'.idx = l.idx ∧ l'.amp = l.amp)

/-- One sample of FILTER produce, on the child's Sample x (R405). -/
def FilterRule (f : Filter) (x out : Sample) (f' : Filter) : Prop :=
  let t := rshrRound (f.fb.toInt * (f.b0.toInt - f.b1.toInt)) 14
  let u := x.toInt * 65536 - f.b0.toInt + t
  f'.f = f.f ∧ f'.q = f.q ∧ f'.fb = f.fb
    ∧ f'.b0.toInt = sat32 (f.b0.toInt + rshrRound (f.f.toNat * u) 14)
    ∧ f'.b1.toInt = sat32 (f.b1.toInt + rshrRound (f.f.toNat * (f'.b0.toInt - f.b1.toInt)) 14)
    ∧ out.toInt = sat16 (rshrRound f'.b1.toInt 16)

/-- One sample of DELAY produce, on the child's Sample x (R432). -/
def DelayRule (d : Delay C) (x out : Sample) (d' : Delay C) : Prop :=
  let di := d.dRun.toNat / 65536
  let fr := d.dRun.toNat % 65536
  let t0 := tankRead C d.tank ((d.wp.val + di) % C.tankLen)
  let t1 := tankRead C d.tank ((d.wp.val + di + 1) % C.tankLen)
  let tap := rshrRound (t0.toInt * (65536 - fr) + t1.toInt * fr) 16
  out.toInt = sat16 (x.toInt + tap)
    ∧ (tankRead C d'.tank d.wp.val).toInt = sat16 (x.toInt + rshrRound (tap * d.fbRun.toNat) 30)
    ∧ (∀ j, j < C.tankLen → j ≠ d.wp.val → tankRead C d'.tank j = tankRead C d.tank j)
    ∧ (d'.wp.val : Int) = (d.wp.val - 1) % (C.tankLen : Int)
    ∧ (d'.dRun.toNat : Int) = d.dRun.toNat + rshrRound ((d.dTgt.toNat : Int) - d.dRun.toNat) C.dlySlewShift
    ∧ (d'.fbRun.toNat : Int) = d.fbRun.toNat + rshrRound ((d.fbTgt.toNat : Int) - d.fbRun.toNat) C.dlySlewShift
    ∧ d'.dTgt = d.dTgt ∧ d'.fbTgt = d.fbTgt

/-- The node a child field names produces: exec of the produce operation of that node's type, on that node (R262). -/
def childInstr (s : State C) (c : Fin C.nNodes) (n : Nat) : Instr :=
  Instr.ofType s.nodes[c].body.type (BitVec.ofNat 8 c.val) n

/-- Successive produce calls of the counts `ns` on one node: all their Samples in order, and the state after them (R260). -/
def producedBy (mk : Nat → Instr) : List Nat → State → Host.Outcome (List Sample × State) Fault Refusal
  | [], s => .next ([], s)
  | n :: ns, s => andThen (exec (mk n) s) fun t => andThen (producedBy mk ns t) fun r => .next (t.dest ++ r.1, r.2)

/-- The state with node i's own fields replaced, as a claim writes it. -/
def withBody (s : State C) (i : Fin C.nNodes) (b : NodeBody C) : State C :=
  { s with nodes := s.nodes.set i { s.nodes[i] with body := b } }

end Sys2Proof.Machine
end

