-- ==== Sys2Proof/Certificates/Slice0/Obligations.lean ====
section
/-!
DEFINITION. The statements for the provers. Each docstring names the rules of spec/ it formalises.

How to read them. An equation `exec i s = .next { s with … }`, or one that names `withBody s i …` (only node i's own fields
replaced), states the effect and the FRAME at once: every field not named is as before, every register, flag, counter, node, buffer
and byte of LIB among them. `step s = .next { s with sched := rest, … }` says the same of one agent step, whose only bookkeeping is
that its entry leaves the schedule (log 1). `State`, `step` and `exec` are this hardware's; a statement that names a configuration C is
about every instance (R10). `recordError e info s` is the record of R505, stated by ErrorsAreLatchedOnce.
-/

open Sys2Proof Sys2Proof.Machine
open Sys2Proof.Config (hardware)

/-! ### Encoding and decoding -/

/-- R140, R142, R143, R145, R146: no operand bit of any instruction is lost between encoding and decoding. -/
def Obligations.EncodedInstructionDecodesBack : Prop :=
  ∀ i : Instr, decodeEncoded (encode i) = .ok i

/-- R142, R150 step 2, R152: a command word that decodes has one meaning and one spelling: the command word, and each argument word
the command reads, are exactly the encoder's; no reserved bit is accepted. -/
def Obligations.DecodedCommandReencodes : Prop :=
  ∀ (c : Command) (i : Instr), decode c = .ok i →
    ∃ c' : Command, encode i = .command c' ∧ c'.word = c.word ∧ (usesArg0 i = true → c'.arg0 = c.arg0)
      ∧ (usesArg1 i = true → c'.arg1 = c.arg1)

/-- Words written out from R140 to R145 (95_test_vectors V10) decode to the instructions they stand for, and so do the seven
node-type codes of R146. -/
def Obligations.SpecWordsDecode : Prop :=
  decode ⟨0x00000000#32, 7#32, 9#32⟩ = .ok .nop
  ∧ decode ⟨0x00000101#32, 0x00000012#32, 0#32⟩ = .ok (.cfgNode 1#8 2#4 1#2 0#8 0#8)
  ∧ decode ⟨0x00000101#32, 0x00000004#32, 0x00000302#32⟩ = .ok (.cfgNode 1#8 4#4 0#2 2#8 3#8)
  ∧ decode ⟨0x00000302#32, 7#32, 9#32⟩ = .ok (.install 3#8)
  ∧ decode ⟨0x00000103#32, 0x02AAAAAB#32, 0x00000060#32⟩ = .ok (.oscNote 1#8 0x02AAAAAB#32 96#32)
  ∧ decode ⟨0x00000104#32, 0x00000100#32, 0x00000002#32⟩ = .ok (.smpLoad 1#8 0x100#32 2#32)
  ∧ decode ⟨0x00000105#32, 0x40000000#32, 9#32⟩ = .ok (.smpPlay 1#8 0x40000000#32)
  ∧ decode ⟨0x00000206#32, 0x00008000#32, 9#32⟩ = .ok (.loopSetpos 2#8 0x8000#16)
  ∧ decode ⟨0x00000207#32, 0x0064012C#32, 0x019000C8#32⟩ = .ok (.loopGate 2#8 300#16 100#16 200#16 400#16)
  ∧ decode ⟨0x00000308#32, 0x00002000#32, 0x00002000#32⟩ = .ok (.fltSet 3#8 8192#16 8192#16)
  ∧ decode ⟨0x00000409#32, 0x00030000#32, 9#32⟩ = .ok (.dlySetDelay 4#8 0x00030000#32)
  ∧ decode ⟨0x0000040A#32, 0x00004000#32, 9#32⟩ = .ok (.dlySetFeedback 4#8 16384#16)
  ∧ decodeCall ⟨0#4, 5#8, 96⟩ = .ok (.produceSilence 5#8 96)
  ∧ decodeCall ⟨1#4, 5#8, 96⟩ = .ok (.produceOsc 5#8 96)
  ∧ decodeCall ⟨2#4, 5#8, 96⟩ = .ok (.producePlayer 5#8 96)
  ∧ decodeCall ⟨3#4, 5#8, 96⟩ = .ok (.produceLooper 5#8 96)
  ∧ decodeCall ⟨4#4, 5#8, 96⟩ = .ok (.produceMixer 5#8 96)
  ∧ decodeCall ⟨5#4, 5#8, 96⟩ = .ok (.produceFilter 5#8 96)
  ∧ decodeCall ⟨6#4, 5#8, 96⟩ = .ok (.produceDelay 5#8 96)

/-- R151: every reserved opcode, whatever else the command holds, is rejected by check 1 and does nothing else. -/
def Obligations.ReservedOpcodesAreRejected : Prop :=
  ∀ (c : Command) (s : State), 0x0B ≤ (opcOf c.word).toNat →
    applyCommand c s = .next (recordError .cmdReservedOpcode c.word s)

/-- R245, R247, R253, R254, R260: a step runs the instruction its word decodes to. An idle host write of CMD_WORD runs exec of the
command, a queued command runs exec when the FILL applies it, and a FILL with no command queued runs exec of the root's produce
operation and stores the native codes of its Samples. FILL_CYCLES takes a free value (log 5). -/
def Obligations.StepRunsTheDecodedInstruction : Prop :=
  (∀ (s : State) (w : Word) (rest : List Event) (i : Instr), s.sched = .hostWrite 0x048#32 .b4 w :: rest →
    s.running = false → decode ⟨w, s.cmdArg0, s.cmdArg1⟩ = .ok i → step s = exec i { s with sched := rest })
  ∧ (∀ (c : Command) (s : State) (i : Instr), decode c = .ok i → applyCommand c s = exec i s)
  ∧ (∀ (s : State) (rest : List Event) (i : Instr), s.sched = .fill :: rest → s.running = true → s.fillReq = true →
      s.fifo = [] →
      decodeCall ⟨s.nodes[s.rootIdx].body.type.code, BitVec.ofNat 8 s.rootIdx.val, 96⟩ = .ok i →
      step s = andThen (exec i { s with sched := rest, fillReq := false }) fun t =>
        .next { storeDest t.inflight.other t with
          fillCycles := Config.fillCycles s.fillDraws, fillDraws := s.fillDraws + 1 })
  ∧ (∀ (s : State) (i : Instr) (c : Command), encode i = .command c →
      step (placeCommand c s) = exec i { s with running := false, cmdArg0 := c.arg0, cmdArg1 := c.arg1 })

/-! ### The graph commands -/

/-- R270: NOP has no effect; its reserved bits are CMD_WORD[31:8]; issued while running it occupies a FIFO slot until the next fill,
which empties the FIFO. -/
def Obligations.NopHasNoEffect : Prop :=
  (∀ s : State, exec .nop s = .next s)
  ∧ (∀ (c : Command) (s : State), opcOf c.word = 0x00#8 →
      (c.word.extractLsb' 8 24 = 0#24 → applyCommand c s = exec .nop s)
      ∧ (c.word.extractLsb' 8 24 ≠ 0#24 → applyCommand c s = .next (recordError .cmdReservedBits c.word s)))
  ∧ (∀ (s : State) (rest : List Event), s.sched = .hostWrite 0x048#32 .b4 0#32 :: rest → s.running = true →
      s.fifo.length < 16 →
      step s = .next { s with sched := rest, fifo := s.fifo ++ [⟨0#32, s.cmdArg0, s.cmdArg1⟩] })
  ∧ (∀ (s t : State) (rest : List Event), s.sched = .fill :: rest → s.running = true → s.fillReq = true →
      step s = .next t → t.fifo = [])

/-- R271, R143, R62 to R68: CFG_NODE checks the type and divisor codes, then the children, and replaces every field of the node by
the initial values of its type. -/
def Obligations.CfgNodeConstructsTheNode : Prop :=
  RangeChecksFirst 0x01#8 0xFFFFFFC0#32 0xFFFF0000#32
    (fun k a0 a1 => .cfgNode k (a0.extractLsb' 0 4) (a0.extractLsb' 4 2) (a1.extractLsb' 0 8) (a1.extractLsb' 8 8))
  ∧ ∀ (k : BitVec 8) (typ : BitVec 4) (divc : BitVec 2) (a b : BitVec 8) (s : State) (i : Fin hardware.nNodes),
    k.toNat = i.val →
    let w := cmdWord 0x01#8 k
    let child (c : BitVec 8) : Prop := k.toNat < c.toNat ∧ c.toNat < 16
    let badType : Prop := 7 ≤ typ.toNat ∨ divc.toNat = 3 ∨ (divc.toNat ≠ 0 ∧ typ.toNat ≠ 2 ∧ typ.toNat ≠ 3)
    let valid : Prop :=
      if typ.toNat = 4 then child a ∧ child b
      else if typ.toNat = 5 ∨ typ.toNat = 6 then child a ∧ b = 0#8
      else a = 0#8 ∧ b = 0#8
    (badType → exec (.cfgNode k typ divc a b) s = .next (recordError .cmdBadTypeCode w s))
    ∧ (¬ badType → ¬ valid → exec (.cfgNode k typ divc a b) s = .next (recordError .cmdBadChild w s))
    ∧ (¬ badType → valid → ∃ (d : Divisor) (body : NodeBody),
        exec (.cfgNode k typ divc a b) s = .next { s with nodes := s.nodes.set i ⟨d, a, b, body⟩ }
        ∧ d.toNat = 2 ^ divc.toNat
        ∧ (typ.toNat = 0 → body = .silence)
        ∧ (typ.toNat = 1 → body = .osc ⟨0#32, 0#32, 0#32, 0#32⟩)
        ∧ (typ.toNat = 2 → body = .player ⟨0#32, 0#32, 0#32, 0#2, 0#32⟩)
        ∧ (typ.toNat = 3 → body = .looper ⟨0#32, 0#32, 0#32, 0#2, 0#32, 0#32, false, 0#16⟩)
        ∧ (typ.toNat = 4 → body = .mixer ⟨Vector.replicate 96 0#16⟩)
        ∧ (typ.toNat = 5 → body = .filter ⟨0#16, 0#16, 0#32, 0#32, 0#32⟩)
        ∧ (typ.toNat = 6 → ∃ d : Delay, body = .delay d ∧ (∀ j, tankRead hardware d.tank j = 0#16) ∧ d.wp = 0
            ∧ d.dTgt = 0x00010000#32 ∧ d.dRun = 0x00010000#32 ∧ d.fbTgt = 0#32 ∧ d.fbRun = 0#32))

/-- R272: INSTALL changes the root and nothing else; while running it is queued, and the fill that applies it produces from the
new root. The last clause's FILL_CYCLES is a free value (log 5). -/
def Obligations.InstallSetsTheRoot : Prop :=
  RangeChecksFirst 0x02#8 0#32 0#32 (fun k _ _ => .install k)
  ∧ ∀ (k : BitVec 8) (s : State) (i : Fin hardware.nNodes), k.toNat = i.val →
    exec (.install k) s = .next { s with rootIdx := i }
    ∧ (∀ (rest : List Event) (w : Word), s.sched = .hostWrite 0x048#32 .b4 w :: rest → s.running = true →
        s.fifo.length < 16 → w = cmdWord 0x02#8 k →
        step s = .next { s with sched := rest, fifo := s.fifo ++ [⟨w, s.cmdArg0, s.cmdArg1⟩] })
    ∧ (∀ (rest : List Event) (a0 a1 : Word), s.sched = .fill :: rest → s.running = true → s.fillReq = true →
        s.fifo = [⟨cmdWord 0x02#8 k, a0, a1⟩] →
        step s =
          andThen (exec (childInstr s i 96) { s with sched := rest, fillReq := false, fifo := [], rootIdx := i }) fun t =>
            .next { storeDest t.inflight.other t with
              fillCycles := Config.fillCycles s.fillDraws, fillDraws := s.fillDraws + 1 })

/-! ### The commands of the leaf sources -/

/-- R315: OSC_NOTE starts the note: quarter phase, the increment, full amplitude, and the decrement ceil(2^30 / max(DUR, 1)). -/
def Obligations.OscNoteStartsTheNote : Prop :=
  ChecksFirst 0x03#8 0#32 0#32 [.osc] (fun k a0 a1 => .oscNote k a0 a1)
  ∧ ∀ (k : BitVec 8) (inc dur : Word) (s : State) (i : Fin hardware.nNodes) (o : Osc), k.toNat = i.val →
    s.nodes[i].body = .osc o →
    ∃ dec : Word, exec (.oscNote k inc dur) s = .next (withBody s i (.osc ⟨0x40000000#32, inc, 0x40000000#32, dec⟩))
      ∧ 1 ≤ dec.toNat ∧ dec.toNat ≤ 2 ^ 30
      ∧ 2 ^ 30 ≤ dec.toNat * max dur.toNat 1 ∧ (dec.toNat - 1) * max dur.toNat 1 < 2 ^ 30

/-- R325: SMP_LOAD refuses a range not inside LIB; else a PLAYER becomes finished and a LOOPER restarts, amplitude, target, gate and
start offset kept. -/
def Obligations.SmpLoadLoadsTheEntry : Prop :=
  ChecksFirst 0x04#8 0#32 0#32 [.player, .looper] (fun k a0 a1 => .smpLoad k a0 a1)
  ∧ ∀ (k : BitVec 8) (base len : Word) (s : State) (i : Fin hardware.nNodes), k.toNat = i.val →
    let outside : Prop := 1048576 < len.toNat ∨ (1048576 : Int) - len.toNat < base.toNat
    (∀ p : Player, s.nodes[i].body = .player p →
      (outside → exec (.smpLoad k base len) s = .next (recordError .cmdLoadRange (cmdWord 0x04#8 k) s))
      ∧ (¬ outside → exec (.smpLoad k base len) s =
          .next (withBody s i (.player { p with base := base, len := len, j := 0#2, idx := len }))))
    ∧ (∀ l : Looper, s.nodes[i].body = .looper l →
      (outside → exec (.smpLoad k base len) s = .next (recordError .cmdLoadRange (cmdWord 0x04#8 k) s))
      ∧ (¬ outside → exec (.smpLoad k base len) s =
          .next (withBody s i (.looper { l with base := base, len := len, j := 0#2, idx := 0#32 }))))

/-- R326: SMP_PLAY restarts the player at the amplitude given, whatever u32 it is. -/
def Obligations.SmpPlayRestartsThePlayer : Prop :=
  ChecksFirst 0x05#8 0#32 0#32 [.player] (fun k a0 _ => .smpPlay k a0)
  ∧ ∀ (k : BitVec 8) (amp : Word) (s : State) (i : Fin hardware.nNodes) (p : Player), k.toNat = i.val →
    s.nodes[i].body = .player p →
    exec (.smpPlay k amp) s = .next (withBody s i (.player { p with idx := 0#32, j := 0#2, amp := amp }))

/-- R345: LOOP_SETPOS stores the start offset and does not move the position. -/
def Obligations.LoopSetposStoresTheOffset : Prop :=
  ChecksFirst 0x06#8 0xFFFF0000#32 0#32 [.looper] (fun k a0 _ => .loopSetpos k (a0.extractLsb' 0 16))
  ∧ ∀ (k : BitVec 8) (frac : Half) (s : State) (i : Fin hardware.nNodes) (l : Looper), k.toNat = i.val →
    s.nodes[i].body = .looper l →
    exec (.loopSetpos k frac) s = .next (withBody s i (.looper { l with frac := frac }))

/-- R346: LOOP_GATE maps the control value to the target, and strikes a looper that was not gated. -/
def Obligations.LoopGateSetsTheTarget : Prop :=
  ChecksFirst 0x07#8 0#32 0#32 [.looper] (fun k a0 a1 =>
    .loopGate k (a0.extractLsb' 0 16) (a0.extractLsb' 16 16) (a1.extractLsb' 0 16) (a1.extractLsb' 16 16))
  ∧ ∀ (k : BitVec 8) (value thresh rmin rmax : Half) (s : State) (i : Fin hardware.nNodes) (l : Looper),
    k.toNat = i.val → s.nodes[i].body = .looper l →
    let t : Nat :=
      if value.toNat < thresh.toNat then 0
      else if rmax.toNat ≤ rmin.toNat then 966367642
      else 536870912 + (min (max value.toNat rmin.toNat) rmax.toNat - rmin.toNat) * 429496730 / (rmax.toNat - rmin.toNat)
    ∃ l' : Looper, exec (.loopGate k value thresh rmin rmax) s = .next (withBody s i (.looper l'))
      ∧ l'.target.toNat = t ∧ l'.gated = decide (0 < t)
      ∧ l'.base = l.base ∧ l'.len = l.len ∧ l'.amp = l.amp ∧ l'.frac = l.frac
      ∧ (if 0 < t ∧ l.gated = false then
          l'.idx.toNat = (if 0 < l.len.toNat then l.frac.toNat * l.len.toNat / 65536 else 0) ∧ l'.j = 0#2
        else l'.idx = l.idx ∧ l'.j = l.j)

/-- R347, R350: the target is 0 or in [AMP_LO, AMP_HI], AMP_LO at the bottom of the range and AMP_HI at its top, and it does not
fall as the control value rises above the threshold. -/
def Obligations.GateMapIsMonotone : Prop :=
  ∀ (k : BitVec 8) (value value2 thresh rmin rmax : Half) (s : State) (i : Fin hardware.nNodes) (l : Looper),
    k.toNat = i.val → s.nodes[i].body = .looper l → value.toNat ≤ value2.toNat →
    ∃ l1 l2 : Looper, exec (.loopGate k value thresh rmin rmax) s = .next (withBody s i (.looper l1))
      ∧ exec (.loopGate k value2 thresh rmin rmax) s = .next (withBody s i (.looper l2))
      ∧ (l1.target.toNat = 0 ∨ 536870912 ≤ l1.target.toNat ∧ l1.target.toNat ≤ 966367642)
      ∧ (thresh.toNat ≤ value.toNat → rmin.toNat < rmax.toNat → value.toNat ≤ rmin.toNat → l1.target.toNat = 536870912)
      ∧ (thresh.toNat ≤ value.toNat → rmax.toNat ≤ value.toNat → l1.target.toNat = 966367642)
      ∧ (thresh.toNat ≤ value.toNat → l1.target.toNat ≤ l2.target.toNat)

/-! ### The commands of the combinators -/

/-- R401: FLT_SET clamps F and Q silently and computes fb = q + q/(1 − f), truncated toward 0, with the divisor 1 at f = 1.0; the
filter's state is kept. -/
def Obligations.FltSetComputesTheFeedback : Prop :=
  ChecksFirst 0x08#8 0xFFFF0000#32 0xFFFF0000#32 [.filter]
    (fun k a0 a1 => .fltSet k (a0.extractLsb' 0 16) (a1.extractLsb' 0 16))
  ∧ ∀ (k : BitVec 8) (fArg qArg : Half) (s : State) (i : Fin hardware.nNodes) (n : Filter), k.toNat = i.val →
    s.nodes[i].body = .filter n →
    let f : Nat := min fArg.toNat 23170
    let q : Nat := min qArg.toNat 16383
    let d : Int := if f = 16384 then 1 else 16384 - f
    ∃ n' : Filter, exec (.fltSet k fArg qArg) s = .next (withBody s i (.filter n'))
      ∧ n'.f.toNat = f ∧ n'.q.toNat = q ∧ n'.fb.toInt = q + Int.tdiv ((q : Int) * 16384) d
      ∧ n'.b0 = n.b0 ∧ n'.b1 = n.b1

/-- R430: DLY_SET_DELAY clamps the target to [1.0, TANK_LEN − 1) samples; the running delay does not move. -/
def Obligations.DlySetDelayClampsTheTarget : Prop :=
  ChecksFirst 0x09#8 0#32 0#32 [.delay] (fun k a0 _ => .dlySetDelay k a0)
  ∧ ∀ (k : BitVec 8) (delay : Word) (s : State) (i : Fin hardware.nNodes) (n : Delay), k.toNat = i.val →
    s.nodes[i].body = .delay n →
    ∃ t : Word, exec (.dlySetDelay k delay) s = .next (withBody s i (.delay { n with dTgt := t }))
      ∧ t.toNat = min (max delay.toNat 0x00010000) (8191 * 2 ^ 16 - 1)

/-- R431: DLY_SET_FEEDBACK clamps the gain to FBK_MAX and rescales it; the running feedback does not move. -/
def Obligations.DlySetFeedbackClampsTheGain : Prop :=
  ChecksFirst 0x0A#8 0xFFFF0000#32 0#32 [.delay] (fun k a0 _ => .dlySetFeedback k (a0.extractLsb' 0 16))
  ∧ ∀ (k : BitVec 8) (fb : Half) (s : State) (i : Fin hardware.nNodes) (n : Delay), k.toNat = i.val →
    s.nodes[i].body = .delay n →
    ∃ t : Word, exec (.dlySetFeedback k fb) s = .next (withBody s i (.delay { n with fbTgt := t }))
      ∧ t.toNat = min fb.toNat 32604 * 2 ^ 15

/-- R69, R247, R507: every command completes in every state. It either leaves only the record of one CMD_ERR error with its own
word, or changes only the node it addresses (only CFG_NODE its type, divisor and children) and, for INSTALL, the root. No command
touches a byte of LIB, a buffer, the FIFO, a counter, an argument register or an interrupt enable. -/
def Obligations.CommandsChangeOnlyTheirNode : Prop :=
  ∀ (i : Instr) (s : State), i.isCommand = true →
    ∃ t : State, exec i s = .next t
      ∧ (∀ a, libRead8 t.lib a = libRead8 s.lib a)
      ∧ ((∃ (e : ErrorCode) (c : Command), e.bit = .cmdErr ∧ encode i = .command c ∧ t = recordError e c.word s)
        ∨ (t = { s with nodes := t.nodes, rootIdx := t.rootIdx }
          ∧ (∀ k, i = .install k → t.nodes = s.nodes)
          ∧ ((∀ k, i ≠ .install k) → t.rootIdx = s.rootIdx)
          ∧ (∀ j : Fin hardware.nNodes, (addressed i).toNat ≠ j.val → t.nodes[j] = s.nodes[j])
          ∧ ((∀ k typ divc a b, i ≠ .cfgNode k typ divc a b) → ∀ j : Fin hardware.nNodes,
              t.nodes[j].body.type = s.nodes[j].body.type ∧ t.nodes[j].div = s.nodes[j].div
                ∧ t.nodes[j].childA = s.nodes[j].childA ∧ t.nodes[j].childB = s.nodes[j].childB)))

/-! ### Produce of the leaf sources -/

/-- R300: SILENCE produces zeros and changes no node state; it is the type of every node after reset. -/
def Obligations.SilenceProducesZeros : Prop :=
  (∀ (k : BitVec 8) (n : Nat) (s : State) (i : Fin hardware.nNodes), k.toNat = i.val → 1 ≤ n → n ≤ 96 →
    s.nodes[i].body = .silence →
    exec (.produceSilence k n) s = .next { s with dest := List.replicate n 0#16 })
  ∧ ∀ i : Fin hardware.nNodes, State.reset.nodes[i].body = .silence

/-- R310: OSC produces the folded phase times the envelope; after m samples the phase has advanced by m increments mod 2^32 and the
amplitude has fallen by m decrements, not below 0. With amp ≤ 2^30 (R63) no output leaves ±8192 and sat16 changes nothing. -/
def Obligations.OscProducesTheTriangle : Prop :=
  ∀ (k : BitVec 8) (n : Nat) (s : State) (i : Fin hardware.nNodes) (o : Osc), k.toNat = i.val → 1 ≤ n → n ≤ 96 →
    s.nodes[i].body = .osc o →
    let phaseAt (m : Nat) : Nat := (o.phase.toNat + m * o.inc.toNat) % 2 ^ 32
    let ampAt (m : Nat) : Nat := o.amp.toNat - m * o.dec.toNat
    let waveAt (m : Nat) : Int :=
      rshrRound (if phaseAt m < 2 ^ 31 then (phaseAt m : Int) else 2 ^ 32 - (phaseAt m : Int)) 17 - 8192
    ∃ (out : List Sample) (o' : Osc),
      exec (.produceOsc k n) s = .next { withBody s i (.osc o') with dest := out }
      ∧ o'.phase.toNat = phaseAt n ∧ o'.amp.toNat = ampAt n ∧ o'.inc = o.inc ∧ o'.dec = o.dec
      ∧ out.length = n
      ∧ ∀ m, m < n → ∃ y : Sample, out[m]? = some y
          ∧ y.toInt = sat16 (rshrRound (waveAt m * ampAt m) 30)
          ∧ (o.amp.toNat ≤ 2 ^ 30 →
              y.toInt = rshrRound (waveAt m * ampAt m) 30 ∧ -8192 ≤ y.toInt ∧ y.toInt ≤ 8192)

/-- R316: after OSC_NOTE with DUR = d ≥ 1, however produce is then called, amp after m samples is max(2^30 − m·dec, 0); it is 0
after at most d samples, and every output from sample index d on is 0. -/
def Obligations.OscNoteIsSilentAfterItsDuration : Prop :=
  ∀ (k : BitVec 8) (inc dur : Word) (s : State) (i : Fin hardware.nNodes) (o : Osc), k.toNat = i.val →
    s.nodes[i].body = .osc o → 1 ≤ dur.toNat →
    ∃ (t : State) (dec : Nat), exec (.oscNote k inc dur) s = .next t ∧ 1 ≤ dec ∧ 2 ^ 30 ≤ dur.toNat * dec
      ∧ ∀ ns : List Nat, (∀ n ∈ ns, 1 ≤ n ∧ n ≤ 96) →
        ∃ (out : List Sample) (u : State) (o' : Osc),
          producedBy (.produceOsc k) ns t = .next (out, u) ∧ u.nodes[i].body = .osc o' ∧ out.length = ns.sum
          ∧ o'.amp.toNat = 2 ^ 30 - ns.sum * dec
          ∧ (dur.toNat ≤ ns.sum → o'.amp = 0#32)
          ∧ ∀ (m : Nat) (y : Sample), dur.toNat ≤ m → out[m]? = some y → y = 0#16

/-- R321: PLAYER produces one sample after the other by the rule, and then holds silence. The premise is the invariant's bound on
the player's fields (R64), kept by every step (StepKeepsTheInvariant). -/
def Obligations.PlayerProducesItsEntry : Prop :=
  ∀ (k : BitVec 8) (n : Nat) (s : State) (i : Fin hardware.nNodes) (p : Player), k.toNat = i.val → 1 ≤ n → n ≤ 96 →
    s.nodes[i].body = .player p → bodyOk hardware s.nodes[i].div (.player p) = true →
    ∃ (q : Nat → Player) (out : List Sample),
      exec (.producePlayer k n) s = .next { withBody s i (.player (q n)) with dest := out }
      ∧ q 0 = p ∧ out.length = n
      ∧ ∀ m, m < n → ∃ y : Sample, out[m]? = some y ∧ PlayerRule s.lib s.nodes[i].div (q m) y (q (m + 1))

/-- R323: at divisor 1 and amplitude 1.0 a player reproduces its entry value for value from its position on, each times 64, and is
silent after the end, however produce is called. -/
def Obligations.PlayerReproducesTheLibrary : Prop :=
  ∀ (k : BitVec 8) (s : State) (i : Fin hardware.nNodes) (p : Player) (ns : List Nat), k.toNat = i.val →
    s.nodes[i].body = .player p → s.nodes[i].div = .one → p.amp = 0x40000000#32 → p.j = 0#2 →
    p.base.toNat + p.len.toNat ≤ 1048576 → (∀ n ∈ ns, 1 ≤ n ∧ n ≤ 96) →
    ∃ (p' : Player) (out : List Sample) (u : State),
      producedBy (.producePlayer k) ns s = .next (out, u) ∧ u = { withBody s i (.player p') with dest := u.dest }
      ∧ p'.idx.toNat = (if p.idx.toNat < p.len.toNat then min (p.idx.toNat + ns.sum) p.len.toNat else p.idx.toNat)
      ∧ p'.j = 0#2 ∧ p'.base = p.base ∧ p'.len = p.len ∧ p'.amp = p.amp
      ∧ out.length = ns.sum
      ∧ ∀ m, m < ns.sum → ∃ y : Sample, out[m]? = some y
          ∧ y.toInt =
            if p.idx.toNat + m < p.len.toNat then (libRead8 s.lib (p.base.toNat + (p.idx.toNat + m))).toInt * 64 else 0

/-- R340: LOOPER produces one sample after the other by the rule. The premise is the invariant's bound on the looper's fields
(R65), kept by every step (StepKeepsTheInvariant). -/
def Obligations.LooperProducesTheLoop : Prop :=
  ∀ (k : BitVec 8) (n : Nat) (s : State) (i : Fin hardware.nNodes) (l : Looper), k.toNat = i.val → 1 ≤ n → n ≤ 96 →
    s.nodes[i].body = .looper l → bodyOk hardware s.nodes[i].div (.looper l) = true →
    ∃ (q : Nat → Looper) (out : List Sample),
      exec (.produceLooper k n) s = .next { withBody s i (.looper (q n)) with dest := out }
      ∧ q 0 = l ∧ out.length = n
      ∧ ∀ m, m < n → ∃ y : Sample, out[m]? = some y ∧ LooperRule hardware s.lib s.nodes[i].div (q m) y (q (m + 1))

/-! ### Produce of the combinators

The premise `nodesOk` is the invariant of the node table (R60 to R68), kept by every step (StepKeepsTheInvariant). -/

/-- R380, R262, R263: MIXER runs produce of childA and then of childB, keeps childB's Samples in scratch, and gives the saturated
sums. -/
def Obligations.MixerSumsItsChildren : Prop :=
  ∀ (k : BitVec 8) (n : Nat) (s : State) (i : Fin hardware.nNodes) (m : Mixer), k.toNat = i.val → 1 ≤ n → n ≤ 96 →
    s.nodes[i].body = .mixer m → nodesOk s.nodes = true →
    ∃ (ca cb : Fin hardware.nNodes) (sa sb : State) (m' : Mixer) (out : List Sample),
      s.nodes[i].childA.toNat = ca.val ∧ s.nodes[i].childB.toNat = cb.val
      ∧ exec (childInstr s ca n) s = .next sa ∧ exec (childInstr sa cb n) sa = .next sb
      ∧ exec (.produceMixer k n) s = .next { withBody sb i (.mixer m') with dest := out }
      ∧ sa.dest.length = n ∧ sb.dest.length = n ∧ out.length = n
      ∧ (∀ j : Fin 96, m'.scratch[j] = if j.val < n then sb.dest.getD j.val 0#16 else m.scratch[j])
      ∧ ∀ (j : Nat) (x y : Sample), sa.dest[j]? = some x → sb.dest[j]? = some y →
          ∃ z : Sample, out[j]? = some z ∧ z.toInt = sat16 (x.toInt + y.toInt)

/-- R405: FILTER runs produce of its child, then its own loop over those Samples by the rule. -/
def Obligations.FilterProducesTheRecurrence : Prop :=
  ∀ (k : BitVec 8) (n : Nat) (s : State) (i : Fin hardware.nNodes) (f : Filter), k.toNat = i.val → 1 ≤ n → n ≤ 96 →
    s.nodes[i].body = .filter f → nodesOk s.nodes = true →
    ∃ (c : Fin hardware.nNodes) (sa : State) (q : Nat → Filter) (out : List Sample),
      s.nodes[i].childA.toNat = c.val ∧ exec (childInstr s c n) s = .next sa ∧ sa.dest.length = n
      ∧ exec (.produceFilter k n) s = .next { withBody sa i (.filter (q n)) with dest := out }
      ∧ q 0 = f ∧ out.length = n
      ∧ ∀ (m : Nat) (x : Sample), sa.dest[m]? = some x →
          ∃ y : Sample, out[m]? = some y ∧ FilterRule (q m) x y (q (m + 1))

/-- R432: DELAY runs produce of its child, then its own loop over those Samples by the rule. -/
def Obligations.DelayProducesTheEcho : Prop :=
  ∀ (k : BitVec 8) (n : Nat) (s : State) (i : Fin hardware.nNodes) (d : Delay), k.toNat = i.val → 1 ≤ n → n ≤ 96 →
    s.nodes[i].body = .delay d → nodesOk s.nodes = true →
    ∃ (c : Fin hardware.nNodes) (sa : State) (q : Nat → Delay) (out : List Sample),
      s.nodes[i].childA.toNat = c.val ∧ exec (childInstr s c n) s = .next sa ∧ sa.dest.length = n
      ∧ exec (.produceDelay k n) s = .next { withBody sa i (.delay (q n)) with dest := out }
      ∧ q 0 = d ∧ out.length = n
      ∧ ∀ (m : Nat) (x : Sample), sa.dest[m]? = some x →
          ∃ y : Sample, out[m]? = some y ∧ DelayRule (q m) x y (q (m + 1))

/-- R406: a filter with f = 0 holds its state, and its output is its last value throughout. -/
def Obligations.FilterHoldsAtZeroFrequency : Prop :=
  ∀ (k : BitVec 8) (n : Nat) (s : State) (i : Fin hardware.nNodes) (f : Filter), k.toNat = i.val → 1 ≤ n → n ≤ 96 →
    s.nodes[i].body = .filter f → nodesOk s.nodes = true → f.f = 0#16 →
    ∃ (sa : State) (y : Sample),
      exec (.produceFilter k n) s = .next { withBody sa i (.filter f) with dest := List.replicate n y }
      ∧ y.toInt = sat16 (rshrRound f.b1.toInt 16)

/-- R433: with a constant delay of m samples and no feedback, the output at time t is the child's Sample at t plus the child's
Sample at t − m, or for t < m what the tank held, saturated; however the calls of produce are cut. -/
def Obligations.DelayEchoesItsInput : Prop :=
  ∀ (k : BitVec 8) (s : State) (i c : Fin hardware.nNodes) (d : Delay) (m : Nat) (ns : List Nat), k.toNat = i.val →
    nodesOk s.nodes = true → s.nodes[i].body = .delay d → s.nodes[i].childA.toNat = c.val →
    d.dRun.toNat = m * 2 ^ 16 → d.dTgt = d.dRun → d.fbRun = 0#32 → d.fbTgt = 0#32 → (∀ n ∈ ns, 1 ≤ n ∧ n ≤ 96) →
    ∃ (xs ys : List Sample) (u v : State),
      producedBy (childInstr s c) ns s = .next (xs, u) ∧ producedBy (.produceDelay k) ns s = .next (ys, v)
      ∧ xs.length = ns.sum ∧ ys.length = ns.sum
      ∧ ∀ (t : Nat) (x : Sample), xs[t]? = some x → ∃ y : Sample, ys[t]? = some y
          ∧ (t < m → y.toInt = sat16 (x.toInt + (tankRead hardware d.tank (d.wp.val + (m - t))).toInt))
          ∧ (m ≤ t → ∀ e : Sample, xs[t - m]? = some e → y.toInt = sat16 (x.toInt + e.toInt))

/-- R260, R264, R69: in every well-formed node table produce of every node ends with exactly n Samples. It keeps the table
well-formed, changes no node outside the subtree of the one it is called on, and no type, divisor or child of any; every node of the
subtree but the node itself has a greater index. -/
def Obligations.ProduceCompletesOnEveryNode : Prop :=
  ∀ (n : Nat) (s : State) (i : Fin hardware.nNodes), 1 ≤ n → n ≤ 96 → nodesOk s.nodes = true →
    ∃ t : State, exec (childInstr s i n) s = .next t ∧ t = { s with nodes := t.nodes, dest := t.dest }
      ∧ t.dest.length = n ∧ nodesOk t.nodes = true
      ∧ (∀ j : Fin hardware.nNodes, ¬ InSubtree s.nodes i j → t.nodes[j] = s.nodes[j])
      ∧ (∀ j : Fin hardware.nNodes, InSubtree s.nodes i j → j = i ∨ i.val < j.val)
      ∧ ∀ j : Fin hardware.nNodes, t.nodes[j].body.type = s.nodes[j].body.type ∧ t.nodes[j].div = s.nodes[j].div
          ∧ t.nodes[j].childA = s.nodes[j].childA ∧ t.nodes[j].childB = s.nodes[j].childB

/-- R265: produce reads only the node table, LIB and its arguments, and writes only the node table; its Samples are returned (in
`dest`, log 9). Two states that agree on the table and on LIB give equal Samples and equal tables. -/
def Obligations.ProduceReadsOnlyNodesAndLib : Prop :=
  ∀ (i : Instr) (s s' : State), i.isCommand = false → s.nodes = s'.nodes → s.lib = s'.lib →
    exec i s' = andThen (exec i s) fun t => .next { s' with nodes := t.nodes, dest := t.dest }

/-- Logs 10 and 14, the model's choice: where the model stops. No rule calls produce with a count outside 1..BUF_LEN, on a node
index out of range, or of a type the node does not have (R260, R261, 93 rows 16 and 17); an entry outside LIB and a cyclic graph are
states no run reaches (R102, R264, R325). -/
def Obligations.ProduceStopsByName : Prop :=
  (∀ (ty : NodeType) (k : BitVec 8) (n : Nat) (s : State), n = 0 ∨ 96 < n →
    exec (Instr.ofType ty k n) s = .refused .produceCount)
  ∧ (∀ (ty : NodeType) (k : BitVec 8) (n : Nat) (s : State), 1 ≤ n → n ≤ 96 → 16 ≤ k.toNat →
      exec (Instr.ofType ty k n) s = .refused .produceNodeRange)
  ∧ (∀ (ty : NodeType) (k : BitVec 8) (n : Nat) (s : State) (i : Fin hardware.nNodes), 1 ≤ n → n ≤ 96 → k.toNat = i.val →
      s.nodes[i].body.type ≠ ty → exec (Instr.ofType ty k n) s = .refused .produceTypeMismatch)
  ∧ (∀ (k : BitVec 8) (n : Nat) (s : State) (i : Fin hardware.nNodes) (p : Player), 1 ≤ n → n ≤ 96 → k.toNat = i.val →
      s.nodes[i].body = .player p → 1048576 < p.base.toNat + p.len.toNat →
      exec (.producePlayer k n) s = .fault .libOutsideSpace)
  ∧ (∀ (k : BitVec 8) (n : Nat) (s : State) (i : Fin hardware.nNodes) (l : Looper), 1 ≤ n → n ≤ 96 → k.toNat = i.val →
      s.nodes[i].body = .looper l →
      1048576 < l.base.toNat + l.len.toNat ∨ (l.len ≠ 0#32 ∧ l.len.toNat ≤ l.idx.toNat) →
      exec (.produceLooper k n) s = .fault .libOutsideSpace)
  ∧ (∀ (k : BitVec 8) (n : Nat) (s : State) (i : Fin hardware.nNodes) (f : Filter), 1 ≤ n → n ≤ 96 → k.toNat = i.val →
      s.nodes[i].body = .filter f → s.nodes[i].childA = k →
      exec (.produceFilter k n) s = .refused .graphTooDeep)

/-! ### The delivery engine -/

/-- R250, R251, R252: a TICK drives the next word of the in-flight buffer; the last word of the buffer completes a drain, which
counts it, sets BUF_DONE, records OVERRUN where the previous fill never ran, flips the buffers and requests a fill. -/
def Obligations.TickDrainsTheInFlightBuffer : Prop :=
  ∀ (s : State) (rest : List Event), s.sched = .tick :: rest → s.running = true →
    let word : Code := (match s.inflight with | .A => s.bufA | .B => s.bufB)[s.drainIdx]
    (∀ next : Fin hardware.bufLen, next.val = s.drainIdx.val + 1 →
      step s = .next { s with sched := rest, dacWord := word, ticks := s.ticks + 1#32, drainIdx := next })
    ∧ (s.drainIdx.val = 95 →
      let u : State :=
        { s with
          sched := rest, dacWord := word, ticks := s.ticks + 1#32, drainIdx := 0,
          completions := s.completions + 1#32, sticky := s.sticky ||| StatusBit.bufDone.mask,
          inflight := s.inflight.other, fillReq := true }
      step s = .next (if s.fillReq = true then recordError .overrun (s.completions + 1#32) u else u))

/-- R241, R254: START while running does nothing; without PERIPH_READY it records START_NOT_READY; otherwise it primes A with the
first BUF_LEN Samples of the root and B with the next, and runs. A CTRL write with bit 0 = 0 does nothing. -/
def Obligations.StartPrimesBothBuffers : Prop :=
  ∀ (s : State) (v : Word) (rest : List Event), s.sched = .hostWrite 0x004#32 .b4 v :: rest →
    let s0 : State := { s with sched := rest }
    (v.getLsbD 0 = false → step s = .next s0)
    ∧ (v.getLsbD 0 = true → s.running = true → step s = .next s0)
    ∧ (v.getLsbD 0 = true → s.running = false → s.periphReady = false →
        step s = .next (recordError .startNotReady 0#32 s0))
    ∧ (v.getLsbD 0 = true → s.running = false → s.periphReady = true → nodesOk s.nodes = true →
        ∃ (t1 t2 : State) (wA wB : Vector Code 96),
          exec (childInstr s0 s.rootIdx 96) s0 = .next t1 ∧ t1.dest.length = 96
          ∧ exec (childInstr t1 s.rootIdx 96) { t1 with bufA := wA, dest := [] } = .next t2 ∧ t2.dest.length = 96
          ∧ (∀ j : Fin 96, wA[j] = native hardware (t1.dest.getD j.val 0#16) ∧ wB[j] = native hardware (t2.dest.getD j.val 0#16))
          ∧ step s = .next
              { t2 with bufB := wB, dest := [], inflight := .A, drainIdx := 0, fillReq := false, running := true })

/-- R253, R254, R121: a FILL serves the request: it applies the queued commands head first, empties the FIFO, runs produce of the
root those commands left, and writes the native codes into the fillable buffer. FILL_CYCLES takes a free value (R53, log 5). -/
def Obligations.FillServesTheRequest : Prop :=
  ∀ (s : State) (rest : List Event), s.sched = .fill :: rest → s.running = true → s.fillReq = true →
    nodesOk s.nodes = true →
    ∃ (q : Nat → State) (u : State) (w : Vector Code 96),
      q 0 = { s with sched := rest, fillReq := false }
      ∧ (∀ (j : Nat) (c : Command), s.fifo[j]? = some c → applyCommand c (q j) = .next (q (j + 1)))
      ∧ (let t := q s.fifo.length
         exec (childInstr t t.rootIdx 96) { t with fifo := [] } = .next u)
      ∧ u.dest.length = 96 ∧ (∀ j : Fin 96, w[j] = native hardware (u.dest.getD j.val 0#16))
      ∧ step s = .next
          { u with
            bufA := (match s.inflight with | .A => u.bufA | .B => w)
            bufB := (match s.inflight with | .A => w | .B => u.bufB)
            dest := [], fillCycles := Config.fillCycles s.fillDraws, fillDraws := s.fillDraws + 1 }

/-- R245, R246: a write of CMD_WORD issues the command with the argument registers as they stand: applied now while idle, queued at
the tail while running, dropped with CMD_OVF where the FIFO is full. -/
def Obligations.IssueAppliesQueuesOrDrops : Prop :=
  ∀ (s : State) (w : Word) (rest : List Event), s.sched = .hostWrite 0x048#32 .b4 w :: rest →
    let s0 : State := { s with sched := rest }
    let c : Command := ⟨w, s.cmdArg0, s.cmdArg1⟩
    (s.running = false → step s = applyCommand c s0)
    ∧ (s.running = true → s.fifo.length < 16 → step s = .next { s0 with fifo := s.fifo ++ [c] })
    ∧ (s.running = true → 16 ≤ s.fifo.length → step s = .next (recordError .cmdFifoOverflow w s0))

/-- R242, R255, R103: once running, only RESET stops the engine; no step but RESET writes the buffer in flight, only FILL writes
the other, and the buffers change roles only in the TICK that takes the last word. -/
def Obligations.InFlightBufferIsNeverWritten : Prop :=
  ∀ (s t : State) (e : Event) (rest : List Event), s.sched = e :: rest → s.running = true → e ≠ .reset →
    step s = .next t →
    t.running = true
    ∧ (s.inflight = .A → t.bufA = s.bufA) ∧ (s.inflight = .B → t.bufB = s.bufB)
    ∧ (e ≠ .fill → t.bufA = s.bufA ∧ t.bufB = s.bufB)
    ∧ (t.inflight ≠ s.inflight → e = .tick ∧ s.drainIdx.val = 95)

/-- Log 2, the model's choice: an entry of the schedule whose agent is not enabled is no step, and with no entry left the machine
rests. The enabling conditions are R250, R253 and R620. -/
def Obligations.DisabledEntriesAreNoSteps : Prop :=
  (∀ (s : State) (rest : List Event), s.sched = .tick :: rest → s.running = false → step s = .next { s with sched := rest })
  ∧ (∀ (s : State) (rest : List Event), s.sched = .fill :: rest → s.running = false ∨ s.fillReq = false →
      step s = .next { s with sched := rest })
  ∧ (∀ s : State, s.sched = [] → step s = .next s)

/-! ### Reset and the invariant -/

/-- R600: a RESET step, in any state, gives every piece of PBB-CORE's state its reset value; LIB is unchanged, and PERIPH_READY is
an input. The schedule, the host's last read value and the count of draws are the model's own fields (logs 1, 8, 5). -/
def Obligations.ResetStepResetsAllButLib : Prop :=
  ∀ (s : State) (rest : List Event), s.sched = .reset :: rest →
    step s = .next
      { running := false, inflight := .A, fillReq := false, drainIdx := 0,
        bufA := Vector.replicate 96 512#10, bufB := Vector.replicate 96 512#10, fifo := [], rootIdx := 0,
        dacWord := 512#10, sticky := 0#6, irqEn := 0#6, errCode := 0#8, errValid := false, errInfo := 0#32,
        completions := 0#32, ticks := 0#32, fillCycles := 0#32, cmdArg0 := 0#32, cmdArg1 := 0#32,
        nodes := Vector.replicate 16 ⟨.one, 0#8, 0#8, .silence⟩,
        lib := s.lib, periphReady := s.periphReady, sched := rest, busData := s.busData, dest := [],
        fillDraws := s.fillDraws }

/-- R80, R602: the state right after power-on. LIB holds unspecified bytes, the free value Config.libInit (log 4). -/
def Obligations.PowerOnStateIsTheResetState : Prop :=
  State.reset.running = false ∧ State.reset.inflight = .A ∧ State.reset.drainIdx = 0 ∧ State.reset.fillReq = false
  ∧ State.reset.fifo = [] ∧ State.reset.rootIdx = 0
  ∧ State.reset.bufA = Vector.replicate 96 512#10 ∧ State.reset.bufB = Vector.replicate 96 512#10
  ∧ State.reset.dacWord = 512#10 ∧ State.reset.sticky = 0#6 ∧ State.reset.irqEn = 0#6
  ∧ errCauseWord State.reset = 0#32 ∧ State.reset.errInfo = 0#32
  ∧ State.reset.completions = 0#32 ∧ State.reset.ticks = 0#32 ∧ State.reset.fillCycles = 0#32
  ∧ State.reset.cmdArg0 = 0#32 ∧ State.reset.cmdArg1 = 0#32
  ∧ (∀ i : Fin hardware.nNodes, State.reset.nodes[i] = ⟨.one, 0#8, 0#8, .silence⟩)
  ∧ ∀ a, libRead8 State.reset.lib a = Config.libInit a

/-- The invariant holds in the state right after reset. -/
def Obligations.ResetMeetsTheInvariant : Prop :=
  inv State.reset = true

/-- R61, R63 to R68, R73, R48, R500, R102: from every state that meets the invariant, every step gives a state that meets it: child
indices rise, every field keeps its bounds, the memories their canonical form, the FIFO its depth, the latch its codes, and an idle
engine is as reset left it. -/
def Obligations.StepKeepsTheInvariant : Prop :=
  ∀ s t : State, inv s = true → step s = .next t → inv t = true

/-- 93_implementation_defined ("every step of every agent is total"), R515: no step of a machine that meets the invariant stops. -/
def Obligations.StepNeverStops : Prop :=
  ∀ s : State, inv s = true → ∃ t, step s = .next t

/-- R10: the invariant and totality are those of every instance of PBB-CORE, whatever its parameters: the state right after reset
meets the invariant, every step keeps it, and no step of a state that meets it stops. -/
def Obligations.EveryInstanceKeepsTheInvariant : Prop :=
  ∀ C : Config,
    inv (State.resetOf C) = true
    ∧ (∀ s t : State C, inv s = true → stepOf s = .next t → inv t = true)
    ∧ ∀ s : State C, inv s = true → ∃ t, stepOf s = .next t

/-- R10, R55, R51, R220: the parameters are arguments of the machine: for every value in their ranges an instance shows them in
PARAM0 to PARAM4, holds B-bit codes that reset to 2^(B−1), converts to B bits, and has BUF windows of BUF_LEN words. This hardware is
the instance with the values of R10. What PARAM4 shows of a rate of 2^32 or more is a free value (log 6). -/
def Obligations.ParametersAreArguments : Prop :=
  (∀ (C : Config) (s : State C) (addr : Word) (rest : List Event), s.sched = .hostRead addr .b4 :: rest →
    (∀ p ∈ ([(0x028#32, C.nNodes * 65536 + C.bufLen), (0x02C#32, C.libBytes), (0x030#32, C.tankLen),
        (0x034#32, C.dlySlewShift * 2 ^ 24 + C.relShiftBase * 2 ^ 20 + C.attShiftBase * 2 ^ 16 + C.fifoDepth * 2 ^ 8 + C.dacBits),
        (0x038#32, C.sampleRate)] : List (Word × Nat)),
      addr = p.1 → ∃ r : Word, stepOf s = .next { s with sched := rest, busData := r } ∧ (p.2 < 2 ^ 32 → r.toNat = p.2))
    ∧ ∀ j : Fin C.bufLen,
      (addr.toNat = 0x400 + 4 * j.val → stepOf s = .next { s with sched := rest, busData := s.bufA[j].setWidth 32 })
      ∧ (addr.toNat = 0x800 + 4 * j.val → stepOf s = .next { s with sched := rest, busData := s.bufB[j].setWidth 32 }))
  ∧ (∀ (C : Config) (j : Fin C.bufLen), (State.resetOf C).bufA[j].toNat = 2 ^ (C.dacBits - 1)
      ∧ (State.resetOf C).bufB[j].toNat = 2 ^ (C.dacBits - 1) ∧ (State.resetOf C).dacWord.toNat = 2 ^ (C.dacBits - 1))
  ∧ (∀ (C : Config) (x : Sample),
      ((native C x).toNat : Int) =
        clampInt (rshrRound x.toInt (14 - C.dacBits) + 2 ^ (C.dacBits - 1)) 0 (2 ^ C.dacBits - 1))
  ∧ hardware.sampleRate = 48000 ∧ hardware.bufLen = 96 ∧ hardware.dacBits = 10 ∧ hardware.nNodes = 16
  ∧ hardware.libBytes = 1048576 ∧ hardware.tankLen = 8192 ∧ hardware.fifoDepth = 16 ∧ hardware.attShiftBase = 6
  ∧ hardware.relShiftBase = 12 ∧ hardware.dlySlewShift = 5
  ∧ State.reset = State.resetOf hardware ∧ (∀ s : State, step s = stepOf s)
  ∧ ∀ (i : Instr) (s : State), exec i s = perform i s

/-- R622, first point: under P_DEADLINE (R621) OVERRUN is never recorded, whatever the agents do: from every state that meets the
invariant, idle or running, over every schedule that meets the premise, STARTs and RESETs among its entries, and over every infinite
run that does. -/
def Obligations.DeadlineMeansNoOverrun : Prop :=
  (∀ (n : Nat) (s : State), inv s = true → deadlineMet hardware (.of s) s.sched = true → s.sticky.getLsbD 1 = false →
    ∃ t : State, Sys2Proof.core.run n s = .next t ∧ t.sticky.getLsbD 1 = false)
  ∧ ∀ (ev : Nat → Event) (σ : Nat → State), IsRun ev σ → RunMeetsDeadline ev σ → (σ 0).sticky.getLsbD 1 = false →
    ∀ n, (σ n).sticky.getLsbD 1 = false

/-- R622, last point, R240: a machine started with the graph as it stands and then served by TICK and FILL steps that meet P_DEADLINE
drives, at its T-th TICK, the native code of the T-th Sample of the root's stream: no gap and no repeat. -/
def Obligations.DacStreamIsGapFree : Prop :=
  ∀ (s : State) (evs : List Event) (v : Word) (m : Nat), inv s = true → s.running = false → s.periphReady = true →
    v.getLsbD 0 = true → s.sched = .hostWrite 0x004#32 .b4 v :: evs → (∀ e ∈ evs, e = .tick ∨ e = .fill) →
    deadlineMet hardware (.of s) s.sched = true → 1 ≤ (evs.take m).count .tick →
    let T := (evs.take m).count .tick
    ∃ (t u : State) (out : List Sample) (y : Sample),
      Sys2Proof.core.run (m + 1) s = .next t
      ∧ producedBy (childInstr s s.rootIdx) (List.replicate (T / 96 + 2) 96) s = .next (out, u)
      ∧ out[T - 1]? = some y ∧ t.dacWord = native hardware y

/-- R620, R123: what the assumed fairness gives. While the block runs and until a RESET: every refill request is served by a FILL,
a drain-complete follows, and a FILL applies every command that is queued (so the host's wait for CMD_LEVEL = 0 ends). The premise can
be met: every running state that meets the invariant begins a fair run that meets P_DEADLINE. -/
def Obligations.FairRunsServeEveryRequest : Prop :=
  (∀ (ev : Nat → Event) (σ : Nat → State), IsRun ev σ → Fair ev σ → ∀ n, (σ n).running = true →
    ((σ n).fillReq = true → ∃ m, n ≤ m ∧ (ev m = .reset ∨ (ev m = .fill ∧ (σ m).fillReq = true)))
    ∧ (∃ m, n ≤ m ∧ (ev m = .reset ∨
        (ev m = .tick ∧ (σ m).drainIdx.val = 95 ∧ (σ (m + 1)).completions = (σ m).completions + 1#32)))
    ∧ ∃ m, n ≤ m ∧ (ev m = .reset ∨ (ev m = .fill ∧ (σ n).fifo <+: (σ m).fifo ∧ (σ (m + 1)).fifo = [])))
  ∧ ∀ s : State, inv s = true → s.running = true →
    ∃ (ev : Nat → Event) (σ : Nat → State), σ 0 = s ∧ IsRun ev σ ∧ Fair ev σ ∧ RunMeetsDeadline ev σ

/-! ### Errors, interrupt and registers -/

/-- R505, R500, R501: recording an error sets its STATUS bit and no other; the latch takes its code and information word only where
it held none; nothing else changes. -/
def Obligations.ErrorsAreLatchedOnce : Prop :=
  (∀ p ∈ ([(.cmdReservedOpcode, 0x01#8, 5), (.cmdReservedBits, 0x02#8, 5), (.cmdNodeRange, 0x03#8, 5),
      (.cmdWrongType, 0x04#8, 5), (.cmdBadTypeCode, 0x05#8, 5), (.cmdBadChild, 0x06#8, 5), (.cmdLoadRange, 0x07#8, 5),
      (.cmdFifoOverflow, 0x10#8, 6), (.busUnmapped, 0x20#8, 7), (.busSizeAlign, 0x21#8, 7), (.startNotReady, 0x30#8, 8),
      (.overrun, 0x40#8, 4)] : List (ErrorCode × BitVec 8 × Nat)),
    ∀ (info : Word) (s : State),
      let t := recordError p.1 info s
      t = { s with sticky := t.sticky, errCode := t.errCode, errInfo := t.errInfo, errValid := t.errValid }
      ∧ (∀ b, b < 32 → (statusWord t).getLsbD b = ((statusWord s).getLsbD b || b == p.2.2))
      ∧ (s.errValid = false → t.errCode = p.2.1 ∧ t.errInfo = info ∧ t.errValid = true)
      ∧ (s.errValid = true → t.errCode = s.errCode ∧ t.errInfo = s.errInfo ∧ t.errValid = true))
  ∧ (∀ (s : State) (v : Word) (rest : List Event), s.sched = .hostWrite 0x010#32 .b4 v :: rest →
      step s = .next { s with sched := rest, errCode := 0#8, errValid := false, errInfo := 0#32 })
  ∧ ∀ (s : State) (v : Word) (rest : List Event), s.sched = .hostWrite 0x008#32 .b4 v :: rest →
      ∃ st : BitVec 6, step s = .next { s with sched := rest, sticky := st }

/-- R501, R520: a sticky bit stays 1 until the host writes 1 to it in STATUS or RESET: no other step of any agent clears one. -/
def Obligations.StickyBitsStayUntilCleared : Prop :=
  ∀ (s t : State) (e : Event) (rest : List Event) (b : Nat), s.sched = e :: rest → e ≠ .reset → step s = .next t →
    s.sticky.getLsbD b = true → (∀ v : Word, e = .hostWrite 0x008#32 .b4 v → v.getLsbD (b + 3) = false) →
    t.sticky.getLsbD b = true

/-- R520, R46, R47: the interrupt line is the OR over i in 3..8 of STATUS[i] AND IRQ_EN[i]. -/
def Obligations.InterruptLineIsTheEnabledOr : Prop :=
  ∀ s : State, irq s = true ↔ ∃ i, 3 ≤ i ∧ i ≤ 8 ∧ (statusWord s).getLsbD i = true ∧ (irqEnWord s).getLsbD i = true

/-- R46: the fields of STATUS, their reset values (bit 9 shows the input), and the W1C write, which clears each of bits [8:3]
written as 1 and changes nothing else. -/
def Obligations.StatusShowsTheFlags : Prop :=
  (∀ s : State, s.fifo.length ≤ 16 →
    (statusWord s).getLsbD 0 = s.running ∧ ((statusWord s).getLsbD 1 = true ↔ s.inflight = .B)
    ∧ (statusWord s).getLsbD 2 = s.fillReq
    ∧ (∀ b, b < 6 → (statusWord s).getLsbD (b + 3) = s.sticky.getLsbD b)
    ∧ (statusWord s).getLsbD 9 = s.periphReady
    ∧ (statusWord s).extractLsb' 10 6 = 0#6 ∧ ((statusWord s).extractLsb' 16 8).toNat = s.fifo.length
    ∧ (statusWord s).extractLsb' 24 8 = 0#8)
  ∧ (∀ (s : State) (v : Word) (rest : List Event), s.sched = .hostWrite 0x008#32 .b4 v :: rest →
      ∃ st : BitVec 6, step s = .next { s with sched := rest, sticky := st }
        ∧ ∀ b, b < 6 → st.getLsbD b = (s.sticky.getLsbD b && !v.getLsbD (b + 3)))
  ∧ ∀ b, b < 32 → b ≠ 9 → (statusWord State.reset).getLsbD b = false

/-- R130, R40, R44, R45, R47 to R50, R52 to R59: what a host read of each register returns; no read changes anything. That the value
is kept in busData is the model's (log 8). -/
def Obligations.RegisterReadsReturnTheState : Prop :=
  ∀ (s : State) (addr : Word) (rest : List Event), s.sched = .hostRead addr .b4 :: rest →
    (∀ p ∈ ([(0x000#32, 0x50424201#32), (0x004#32, 0#32), (0x008#32, statusWord s), (0x00C#32, 0#23 ++ s.irqEn ++ 0#3),
        (0x010#32, BitVec.ofBool s.errValid ++ 0#23 ++ s.errCode), (0x014#32, s.errInfo), (0x018#32, s.completions),
        (0x01C#32, s.ticks), (0x020#32, s.fillCycles), (0x024#32, BitVec.ofNat 32 s.rootIdx.val),
        (0x028#32, 0x00100060#32), (0x02C#32, 0x00100000#32), (0x030#32, 0x00002000#32), (0x034#32, 0x05C6100A#32),
        (0x038#32, 0x0000BB80#32), (0x03C#32, s.dacWord.setWidth 32), (0x040#32, s.cmdArg0), (0x044#32, s.cmdArg1),
        (0x048#32, 0#32)] : List (Word × Word)),
      addr = p.1 → step s = .next { s with sched := rest, busData := p.2 })
    ∧ ∀ j : Fin 96,
      (addr.toNat = 0x400 + 4 * j.val → step s = .next { s with sched := rest, busData := s.bufA[j].setWidth 32 })
      ∧ (addr.toNat = 0x800 + 4 * j.val → step s = .next { s with sched := rest, busData := s.bufB[j].setWidth 32 })

/-- R40, R47, R57, R130: plain writes store; a write to a read-only register or a BUF window word is ignored without an error. -/
def Obligations.RegisterWritesStoreOrAreIgnored : Prop :=
  ∀ (s : State) (addr v : Word) (rest : List Event), s.sched = .hostWrite addr .b4 v :: rest →
    (addr = 0x00C#32 → step s = .next { s with sched := rest, irqEn := v.extractLsb' 3 6 })
    ∧ (addr = 0x040#32 → step s = .next { s with sched := rest, cmdArg0 := v })
    ∧ (addr = 0x044#32 → step s = .next { s with sched := rest, cmdArg1 := v })
    ∧ (addr ∈ [0x000#32, 0x014#32, 0x018#32, 0x01C#32, 0x020#32, 0x024#32, 0x028#32, 0x02C#32, 0x030#32, 0x034#32,
        0x038#32, 0x03C#32] → step s = .next { s with sched := rest })
    ∧ ∀ j : Fin 96, addr.toNat = 0x400 + 4 * j.val ∨ addr.toNat = 0x800 + 4 * j.val →
        step s = .next { s with sched := rest }

/-! ### The host bus -/

/-- R112: a register access that is not 4 bytes at a 4-aligned address, and a LIB access of n bytes at an address not a multiple of
n, is not performed: it records BUS_SIZE_ALIGN with the address, and a read returns 0. -/
def Obligations.MisalignedAccessesAreRejected : Prop :=
  ∀ (s : State) (addr v : Word) (n : AccessSize) (rest : List Event),
    (addr.toNat + n.bytes - 1 ≤ 0x0FFF ∧ (n.bytes ≠ 4 ∨ addr.toNat % 4 ≠ 0))
      ∨ (0x00100000 ≤ addr.toNat ∧ addr.toNat + n.bytes - 1 ≤ 0x001FFFFF ∧ addr.toNat % n.bytes ≠ 0) →
    (s.sched = .hostRead addr n :: rest →
      step s = .next { recordError .busSizeAlign addr { s with sched := rest } with busData := 0#32 })
    ∧ (s.sched = .hostWrite addr n v :: rest → step s = .next (recordError .busSizeAlign addr { s with sched := rest }))

/-- R110, R101, R130: an access in neither region, and a whole aligned word of the register region at no register and in no BUF window,
is unmapped: it records BUS_UNMAPPED with the address, writes nothing else, and a read returns 0. -/
def Obligations.UnmappedAccessesAreRejected : Prop :=
  ∀ (s : State) (addr v : Word) (n : AccessSize) (rest : List Event),
    (0x0FFF < addr.toNat + n.bytes - 1 ∧ (addr.toNat < 0x00100000 ∨ 0x001FFFFF < addr.toNat + n.bytes - 1))
      ∨ (n = .b4 ∧ addr.toNat % 4 = 0 ∧ ((0x04C ≤ addr.toNat ∧ addr.toNat < 0x400)
          ∨ (0x400 + 4 * 96 ≤ addr.toNat ∧ addr.toNat < 0x800) ∨ (0x800 + 4 * 96 ≤ addr.toNat ∧ addr.toNat < 0x1000))) →
    (s.sched = .hostRead addr n :: rest →
      step s = .next { recordError .busUnmapped addr { s with sched := rest } with busData := 0#32 })
    ∧ (s.sched = .hostWrite addr n v :: rest → step s = .next (recordError .busUnmapped addr { s with sched := rest }))

/-- R111, R110, R102: a LIB access is little-endian: byte a + i moves in data bits [8i+7:8i]. A write changes those n bytes and
no other, and keeps the canonical form of LIB; a read changes nothing (its value is kept in busData, log 8). -/
def Obligations.LibAccessesAreLittleEndian : Prop :=
  ∀ (s : State) (addr v : Word) (n : AccessSize) (rest : List Event) (a : Nat), addr.toNat = 0x00100000 + a →
    a + n.bytes ≤ 1048576 → addr.toNat % n.bytes = 0 →
    (s.sched = .hostWrite addr n v :: rest →
      ∃ m : Lib, step s = .next { s with sched := rest, lib := m } ∧ (Lib.wf hardware s.lib = true → Lib.wf hardware m = true)
        ∧ (∀ i, i < n.bytes → libRead8 m (a + i) = v.extractLsb' (8 * i) 8)
        ∧ ∀ x, x < a ∨ a + n.bytes ≤ x → libRead8 m x = libRead8 s.lib x)
    ∧ (s.sched = .hostRead addr n :: rest →
      ∃ r : Word, step s = .next { s with sched := rest, busData := r }
        ∧ ∀ i, i < 4 → r.extractLsb' (8 * i) 8 = if i < n.bytes then libRead8 s.lib (a + i) else 0#8)

/-! ### The fixed-point layer -/

/-- R210: rshr_round(x, s) is x / 2^s rounded to the nearest integer, ties toward plus infinity, for x of either sign. -/
def Obligations.RoundingShiftRoundsHalfUp : Prop :=
  (∀ x : Int, rshrRound x 0 = x)
  ∧ (∀ (x : Int) (s : Nat), 1 ≤ s →
      rshrRound x s * 2 ^ s ≤ x + 2 ^ (s - 1) ∧ x + 2 ^ (s - 1) < (rshrRound x s + 1) * 2 ^ s)
  ∧ rshrRound 5 1 = 3 ∧ rshrRound (-5) 1 = -2 ∧ rshrRound (-6) 2 = -1 ∧ rshrRound (-1) 1 = 0 ∧ rshrRound 6 2 = 2

/-- R212: the slew-step law, and what it makes of a stored slew: between the old value and the target, no overshoot, at rest
exactly in the dead band. -/
def Obligations.SlewNeverOvershoots : Prop :=
  (∀ (d : Int) (s : Nat), 1 ≤ s →
    (rshrRound d s = 0 ↔ -(2 ^ (s - 1)) ≤ d ∧ d < 2 ^ (s - 1))
    ∧ (rshrRound d s ≠ 0 → (0 < rshrRound d s ↔ 0 < d)) ∧ |rshrRound d s| ≤ |d|)
  ∧ ∀ (v t : Word) (s : Nat), 1 ≤ s →
    min v.toNat t.toNat ≤ (slew v t s).toNat ∧ (slew v t s).toNat ≤ max v.toNat t.toNat
    ∧ (slew v t s = v ↔ -(2 ^ (s - 1)) ≤ (t.toNat : Int) - v.toNat ∧ (t.toNat : Int) - v.toNat < 2 ^ (s - 1))

/-- R220, R221: the DAC converter at B = 10, its table, and that it never decreases. -/
def Obligations.ConverterSaturatesToTheCodes : Prop :=
  (∀ x : Sample, ((native hardware x).toNat : Int) = clampInt (rshrRound x.toInt 4 + 512) 0 1023)
  ∧ (∀ x y : Sample, x.toInt ≤ y.toInt → (native hardware x).toNat ≤ (native hardware y).toNat)
  ∧ ∀ x : Sample,
    (0 ≤ x.toInt → x.toInt ≤ 7 → native hardware x = 512#10) ∧ (x.toInt = 8 → native hardware x = 513#10)
    ∧ (x.toInt = -8 → native hardware x = 512#10) ∧ (x.toInt = -9 → native hardware x = 511#10)
    ∧ (x.toInt = 4096 → native hardware x = 768#10) ∧ (x.toInt = -4096 → native hardware x = 256#10)
    ∧ (x.toInt = 8167 → native hardware x = 1022#10) ∧ (8168 ≤ x.toInt → native hardware x = 1023#10)
    ∧ (x.toInt = -8184 → native hardware x = 1#10) ∧ (x.toInt ≤ -8185 → native hardware x = 0#10)
end

