-- ==== Sys2Proof/Laws/State.lean ====
section
/-!
SUPPORT. For every named update of State, what each field reads after it: no later proof unfolds a record update.
-/

namespace Sys2Proof.Machine

variable {C : Config}

/-! ### setSticky -/

@[simp] theorem setSticky_running (b : StatusBit) (s : State C) : (setSticky b s).running = s.running := rfl

@[simp] theorem setSticky_inflight (b : StatusBit) (s : State C) : (setSticky b s).inflight = s.inflight := rfl

@[simp] theorem setSticky_fillReq (b : StatusBit) (s : State C) : (setSticky b s).fillReq = s.fillReq := rfl

@[simp] theorem setSticky_drainIdx (b : StatusBit) (s : State C) : (setSticky b s).drainIdx = s.drainIdx := rfl

@[simp] theorem setSticky_bufA (b : StatusBit) (s : State C) : (setSticky b s).bufA = s.bufA := rfl

@[simp] theorem setSticky_bufB (b : StatusBit) (s : State C) : (setSticky b s).bufB = s.bufB := rfl

@[simp] theorem setSticky_fifo (b : StatusBit) (s : State C) : (setSticky b s).fifo = s.fifo := rfl

@[simp] theorem setSticky_rootIdx (b : StatusBit) (s : State C) : (setSticky b s).rootIdx = s.rootIdx := rfl

@[simp] theorem setSticky_dacWord (b : StatusBit) (s : State C) : (setSticky b s).dacWord = s.dacWord := rfl

@[simp] theorem setSticky_sticky (b : StatusBit) (s : State C) : (setSticky b s).sticky = s.sticky ||| b.mask := rfl

@[simp] theorem setSticky_irqEn (b : StatusBit) (s : State C) : (setSticky b s).irqEn = s.irqEn := rfl

@[simp] theorem setSticky_errCode (b : StatusBit) (s : State C) : (setSticky b s).errCode = s.errCode := rfl

@[simp] theorem setSticky_errValid (b : StatusBit) (s : State C) : (setSticky b s).errValid = s.errValid := rfl

@[simp] theorem setSticky_errInfo (b : StatusBit) (s : State C) : (setSticky b s).errInfo = s.errInfo := rfl

@[simp] theorem setSticky_completions (b : StatusBit) (s : State C) : (setSticky b s).completions = s.completions := rfl

@[simp] theorem setSticky_ticks (b : StatusBit) (s : State C) : (setSticky b s).ticks = s.ticks := rfl

@[simp] theorem setSticky_fillCycles (b : StatusBit) (s : State C) : (setSticky b s).fillCycles = s.fillCycles := rfl

@[simp] theorem setSticky_cmdArg0 (b : StatusBit) (s : State C) : (setSticky b s).cmdArg0 = s.cmdArg0 := rfl

@[simp] theorem setSticky_cmdArg1 (b : StatusBit) (s : State C) : (setSticky b s).cmdArg1 = s.cmdArg1 := rfl

@[simp] theorem setSticky_nodes (b : StatusBit) (s : State C) : (setSticky b s).nodes = s.nodes := rfl

@[simp] theorem setSticky_lib (b : StatusBit) (s : State C) : (setSticky b s).lib = s.lib := rfl

@[simp] theorem setSticky_periphReady (b : StatusBit) (s : State C) : (setSticky b s).periphReady = s.periphReady := rfl

@[simp] theorem setSticky_sched (b : StatusBit) (s : State C) : (setSticky b s).sched = s.sched := rfl

@[simp] theorem setSticky_busData (b : StatusBit) (s : State C) : (setSticky b s).busData = s.busData := rfl

@[simp] theorem setSticky_dest (b : StatusBit) (s : State C) : (setSticky b s).dest = s.dest := rfl

@[simp] theorem setSticky_fillDraws (b : StatusBit) (s : State C) : (setSticky b s).fillDraws = s.fillDraws := rfl

/-! ### clearSticky -/

@[simp] theorem clearSticky_running (v : Word) (s : State C) : (clearSticky v s).running = s.running := rfl

@[simp] theorem clearSticky_inflight (v : Word) (s : State C) : (clearSticky v s).inflight = s.inflight := rfl

@[simp] theorem clearSticky_fillReq (v : Word) (s : State C) : (clearSticky v s).fillReq = s.fillReq := rfl

@[simp] theorem clearSticky_drainIdx (v : Word) (s : State C) : (clearSticky v s).drainIdx = s.drainIdx := rfl

@[simp] theorem clearSticky_bufA (v : Word) (s : State C) : (clearSticky v s).bufA = s.bufA := rfl

@[simp] theorem clearSticky_bufB (v : Word) (s : State C) : (clearSticky v s).bufB = s.bufB := rfl

@[simp] theorem clearSticky_fifo (v : Word) (s : State C) : (clearSticky v s).fifo = s.fifo := rfl

@[simp] theorem clearSticky_rootIdx (v : Word) (s : State C) : (clearSticky v s).rootIdx = s.rootIdx := rfl

@[simp] theorem clearSticky_dacWord (v : Word) (s : State C) : (clearSticky v s).dacWord = s.dacWord := rfl

@[simp] theorem clearSticky_sticky (v : Word) (s : State C) : (clearSticky v s).sticky = s.sticky &&& ~~~ (v.extractLsb' 3 6) := rfl

@[simp] theorem clearSticky_irqEn (v : Word) (s : State C) : (clearSticky v s).irqEn = s.irqEn := rfl

@[simp] theorem clearSticky_errCode (v : Word) (s : State C) : (clearSticky v s).errCode = s.errCode := rfl

@[simp] theorem clearSticky_errValid (v : Word) (s : State C) : (clearSticky v s).errValid = s.errValid := rfl

@[simp] theorem clearSticky_errInfo (v : Word) (s : State C) : (clearSticky v s).errInfo = s.errInfo := rfl

@[simp] theorem clearSticky_completions (v : Word) (s : State C) : (clearSticky v s).completions = s.completions := rfl

@[simp] theorem clearSticky_ticks (v : Word) (s : State C) : (clearSticky v s).ticks = s.ticks := rfl

@[simp] theorem clearSticky_fillCycles (v : Word) (s : State C) : (clearSticky v s).fillCycles = s.fillCycles := rfl

@[simp] theorem clearSticky_cmdArg0 (v : Word) (s : State C) : (clearSticky v s).cmdArg0 = s.cmdArg0 := rfl

@[simp] theorem clearSticky_cmdArg1 (v : Word) (s : State C) : (clearSticky v s).cmdArg1 = s.cmdArg1 := rfl

@[simp] theorem clearSticky_nodes (v : Word) (s : State C) : (clearSticky v s).nodes = s.nodes := rfl

@[simp] theorem clearSticky_lib (v : Word) (s : State C) : (clearSticky v s).lib = s.lib := rfl

@[simp] theorem clearSticky_periphReady (v : Word) (s : State C) : (clearSticky v s).periphReady = s.periphReady := rfl

@[simp] theorem clearSticky_sched (v : Word) (s : State C) : (clearSticky v s).sched = s.sched := rfl

@[simp] theorem clearSticky_busData (v : Word) (s : State C) : (clearSticky v s).busData = s.busData := rfl

@[simp] theorem clearSticky_dest (v : Word) (s : State C) : (clearSticky v s).dest = s.dest := rfl

@[simp] theorem clearSticky_fillDraws (v : Word) (s : State C) : (clearSticky v s).fillDraws = s.fillDraws := rfl

/-! ### clearCause -/

@[simp] theorem clearCause_running (s : State C) : (clearCause s).running = s.running := rfl

@[simp] theorem clearCause_inflight (s : State C) : (clearCause s).inflight = s.inflight := rfl

@[simp] theorem clearCause_fillReq (s : State C) : (clearCause s).fillReq = s.fillReq := rfl

@[simp] theorem clearCause_drainIdx (s : State C) : (clearCause s).drainIdx = s.drainIdx := rfl

@[simp] theorem clearCause_bufA (s : State C) : (clearCause s).bufA = s.bufA := rfl

@[simp] theorem clearCause_bufB (s : State C) : (clearCause s).bufB = s.bufB := rfl

@[simp] theorem clearCause_fifo (s : State C) : (clearCause s).fifo = s.fifo := rfl

@[simp] theorem clearCause_rootIdx (s : State C) : (clearCause s).rootIdx = s.rootIdx := rfl

@[simp] theorem clearCause_dacWord (s : State C) : (clearCause s).dacWord = s.dacWord := rfl

@[simp] theorem clearCause_sticky (s : State C) : (clearCause s).sticky = s.sticky := rfl

@[simp] theorem clearCause_irqEn (s : State C) : (clearCause s).irqEn = s.irqEn := rfl

@[simp] theorem clearCause_errCode (s : State C) : (clearCause s).errCode = 0 := rfl

@[simp] theorem clearCause_errValid (s : State C) : (clearCause s).errValid = false := rfl

@[simp] theorem clearCause_errInfo (s : State C) : (clearCause s).errInfo = 0 := rfl

@[simp] theorem clearCause_completions (s : State C) : (clearCause s).completions = s.completions := rfl

@[simp] theorem clearCause_ticks (s : State C) : (clearCause s).ticks = s.ticks := rfl

@[simp] theorem clearCause_fillCycles (s : State C) : (clearCause s).fillCycles = s.fillCycles := rfl

@[simp] theorem clearCause_cmdArg0 (s : State C) : (clearCause s).cmdArg0 = s.cmdArg0 := rfl

@[simp] theorem clearCause_cmdArg1 (s : State C) : (clearCause s).cmdArg1 = s.cmdArg1 := rfl

@[simp] theorem clearCause_nodes (s : State C) : (clearCause s).nodes = s.nodes := rfl

@[simp] theorem clearCause_lib (s : State C) : (clearCause s).lib = s.lib := rfl

@[simp] theorem clearCause_periphReady (s : State C) : (clearCause s).periphReady = s.periphReady := rfl

@[simp] theorem clearCause_sched (s : State C) : (clearCause s).sched = s.sched := rfl

@[simp] theorem clearCause_busData (s : State C) : (clearCause s).busData = s.busData := rfl

@[simp] theorem clearCause_dest (s : State C) : (clearCause s).dest = s.dest := rfl

@[simp] theorem clearCause_fillDraws (s : State C) : (clearCause s).fillDraws = s.fillDraws := rfl

/-! ### setBody -/

@[simp] theorem setBody_running (s : State C) (i : Fin C.nNodes) (b : NodeBody C) : (s.setBody i b).running = s.running := rfl

@[simp] theorem setBody_inflight (s : State C) (i : Fin C.nNodes) (b : NodeBody C) : (s.setBody i b).inflight = s.inflight := rfl

@[simp] theorem setBody_fillReq (s : State C) (i : Fin C.nNodes) (b : NodeBody C) : (s.setBody i b).fillReq = s.fillReq := rfl

@[simp] theorem setBody_drainIdx (s : State C) (i : Fin C.nNodes) (b : NodeBody C) : (s.setBody i b).drainIdx = s.drainIdx := rfl

@[simp] theorem setBody_bufA (s : State C) (i : Fin C.nNodes) (b : NodeBody C) : (s.setBody i b).bufA = s.bufA := rfl

@[simp] theorem setBody_bufB (s : State C) (i : Fin C.nNodes) (b : NodeBody C) : (s.setBody i b).bufB = s.bufB := rfl

@[simp] theorem setBody_fifo (s : State C) (i : Fin C.nNodes) (b : NodeBody C) : (s.setBody i b).fifo = s.fifo := rfl

@[simp] theorem setBody_rootIdx (s : State C) (i : Fin C.nNodes) (b : NodeBody C) : (s.setBody i b).rootIdx = s.rootIdx := rfl

@[simp] theorem setBody_dacWord (s : State C) (i : Fin C.nNodes) (b : NodeBody C) : (s.setBody i b).dacWord = s.dacWord := rfl

@[simp] theorem setBody_sticky (s : State C) (i : Fin C.nNodes) (b : NodeBody C) : (s.setBody i b).sticky = s.sticky := rfl

@[simp] theorem setBody_irqEn (s : State C) (i : Fin C.nNodes) (b : NodeBody C) : (s.setBody i b).irqEn = s.irqEn := rfl

@[simp] theorem setBody_errCode (s : State C) (i : Fin C.nNodes) (b : NodeBody C) : (s.setBody i b).errCode = s.errCode := rfl

@[simp] theorem setBody_errValid (s : State C) (i : Fin C.nNodes) (b : NodeBody C) : (s.setBody i b).errValid = s.errValid := rfl

@[simp] theorem setBody_errInfo (s : State C) (i : Fin C.nNodes) (b : NodeBody C) : (s.setBody i b).errInfo = s.errInfo := rfl

@[simp] theorem setBody_completions (s : State C) (i : Fin C.nNodes) (b : NodeBody C) : (s.setBody i b).completions = s.completions := rfl

@[simp] theorem setBody_ticks (s : State C) (i : Fin C.nNodes) (b : NodeBody C) : (s.setBody i b).ticks = s.ticks := rfl

@[simp] theorem setBody_fillCycles (s : State C) (i : Fin C.nNodes) (b : NodeBody C) : (s.setBody i b).fillCycles = s.fillCycles := rfl

@[simp] theorem setBody_cmdArg0 (s : State C) (i : Fin C.nNodes) (b : NodeBody C) : (s.setBody i b).cmdArg0 = s.cmdArg0 := rfl

@[simp] theorem setBody_cmdArg1 (s : State C) (i : Fin C.nNodes) (b : NodeBody C) : (s.setBody i b).cmdArg1 = s.cmdArg1 := rfl

@[simp] theorem setBody_nodes (s : State C) (i : Fin C.nNodes) (b : NodeBody C) : (s.setBody i b).nodes = Machine.setBody s.nodes i b := rfl

@[simp] theorem setBody_lib (s : State C) (i : Fin C.nNodes) (b : NodeBody C) : (s.setBody i b).lib = s.lib := rfl

@[simp] theorem setBody_periphReady (s : State C) (i : Fin C.nNodes) (b : NodeBody C) : (s.setBody i b).periphReady = s.periphReady := rfl

@[simp] theorem setBody_sched (s : State C) (i : Fin C.nNodes) (b : NodeBody C) : (s.setBody i b).sched = s.sched := rfl

@[simp] theorem setBody_busData (s : State C) (i : Fin C.nNodes) (b : NodeBody C) : (s.setBody i b).busData = s.busData := rfl

@[simp] theorem setBody_dest (s : State C) (i : Fin C.nNodes) (b : NodeBody C) : (s.setBody i b).dest = s.dest := rfl

@[simp] theorem setBody_fillDraws (s : State C) (i : Fin C.nNodes) (b : NodeBody C) : (s.setBody i b).fillDraws = s.fillDraws := rfl

/-! ### setBuf -/

@[simp] theorem setBuf_running (s : State C) (x : BufId) (w : Vector (Code C) C.bufLen) : (s.setBuf x w).running = s.running := by cases x <;> rfl

@[simp] theorem setBuf_inflight (s : State C) (x : BufId) (w : Vector (Code C) C.bufLen) : (s.setBuf x w).inflight = s.inflight := by cases x <;> rfl

@[simp] theorem setBuf_fillReq (s : State C) (x : BufId) (w : Vector (Code C) C.bufLen) : (s.setBuf x w).fillReq = s.fillReq := by cases x <;> rfl

@[simp] theorem setBuf_drainIdx (s : State C) (x : BufId) (w : Vector (Code C) C.bufLen) : (s.setBuf x w).drainIdx = s.drainIdx := by cases x <;> rfl

@[simp] theorem setBuf_fifo (s : State C) (x : BufId) (w : Vector (Code C) C.bufLen) : (s.setBuf x w).fifo = s.fifo := by cases x <;> rfl

@[simp] theorem setBuf_rootIdx (s : State C) (x : BufId) (w : Vector (Code C) C.bufLen) : (s.setBuf x w).rootIdx = s.rootIdx := by cases x <;> rfl

@[simp] theorem setBuf_dacWord (s : State C) (x : BufId) (w : Vector (Code C) C.bufLen) : (s.setBuf x w).dacWord = s.dacWord := by cases x <;> rfl

@[simp] theorem setBuf_sticky (s : State C) (x : BufId) (w : Vector (Code C) C.bufLen) : (s.setBuf x w).sticky = s.sticky := by cases x <;> rfl

@[simp] theorem setBuf_irqEn (s : State C) (x : BufId) (w : Vector (Code C) C.bufLen) : (s.setBuf x w).irqEn = s.irqEn := by cases x <;> rfl

@[simp] theorem setBuf_errCode (s : State C) (x : BufId) (w : Vector (Code C) C.bufLen) : (s.setBuf x w).errCode = s.errCode := by cases x <;> rfl

@[simp] theorem setBuf_errValid (s : State C) (x : BufId) (w : Vector (Code C) C.bufLen) : (s.setBuf x w).errValid = s.errValid := by cases x <;> rfl

@[simp] theorem setBuf_errInfo (s : State C) (x : BufId) (w : Vector (Code C) C.bufLen) : (s.setBuf x w).errInfo = s.errInfo := by cases x <;> rfl

@[simp] theorem setBuf_completions (s : State C) (x : BufId) (w : Vector (Code C) C.bufLen) : (s.setBuf x w).completions = s.completions := by cases x <;> rfl

@[simp] theorem setBuf_ticks (s : State C) (x : BufId) (w : Vector (Code C) C.bufLen) : (s.setBuf x w).ticks = s.ticks := by cases x <;> rfl

@[simp] theorem setBuf_fillCycles (s : State C) (x : BufId) (w : Vector (Code C) C.bufLen) : (s.setBuf x w).fillCycles = s.fillCycles := by cases x <;> rfl

@[simp] theorem setBuf_cmdArg0 (s : State C) (x : BufId) (w : Vector (Code C) C.bufLen) : (s.setBuf x w).cmdArg0 = s.cmdArg0 := by cases x <;> rfl

@[simp] theorem setBuf_cmdArg1 (s : State C) (x : BufId) (w : Vector (Code C) C.bufLen) : (s.setBuf x w).cmdArg1 = s.cmdArg1 := by cases x <;> rfl

@[simp] theorem setBuf_nodes (s : State C) (x : BufId) (w : Vector (Code C) C.bufLen) : (s.setBuf x w).nodes = s.nodes := by cases x <;> rfl

@[simp] theorem setBuf_lib (s : State C) (x : BufId) (w : Vector (Code C) C.bufLen) : (s.setBuf x w).lib = s.lib := by cases x <;> rfl

@[simp] theorem setBuf_periphReady (s : State C) (x : BufId) (w : Vector (Code C) C.bufLen) : (s.setBuf x w).periphReady = s.periphReady := by cases x <;> rfl

@[simp] theorem setBuf_sched (s : State C) (x : BufId) (w : Vector (Code C) C.bufLen) : (s.setBuf x w).sched = s.sched := by cases x <;> rfl

@[simp] theorem setBuf_busData (s : State C) (x : BufId) (w : Vector (Code C) C.bufLen) : (s.setBuf x w).busData = s.busData := by cases x <;> rfl

@[simp] theorem setBuf_dest (s : State C) (x : BufId) (w : Vector (Code C) C.bufLen) : (s.setBuf x w).dest = s.dest := by cases x <;> rfl

@[simp] theorem setBuf_fillDraws (s : State C) (x : BufId) (w : Vector (Code C) C.bufLen) : (s.setBuf x w).fillDraws = s.fillDraws := by cases x <;> rfl

/-! ### storeDest -/

@[simp] theorem storeDest_running (x : BufId) (s : State C) : (storeDest x s).running = s.running := by simp [storeDest]

@[simp] theorem storeDest_inflight (x : BufId) (s : State C) : (storeDest x s).inflight = s.inflight := by simp [storeDest]

@[simp] theorem storeDest_fillReq (x : BufId) (s : State C) : (storeDest x s).fillReq = s.fillReq := by simp [storeDest]

@[simp] theorem storeDest_drainIdx (x : BufId) (s : State C) : (storeDest x s).drainIdx = s.drainIdx := by simp [storeDest]

@[simp] theorem storeDest_fifo (x : BufId) (s : State C) : (storeDest x s).fifo = s.fifo := by simp [storeDest]

@[simp] theorem storeDest_rootIdx (x : BufId) (s : State C) : (storeDest x s).rootIdx = s.rootIdx := by simp [storeDest]

@[simp] theorem storeDest_dacWord (x : BufId) (s : State C) : (storeDest x s).dacWord = s.dacWord := by simp [storeDest]

@[simp] theorem storeDest_sticky (x : BufId) (s : State C) : (storeDest x s).sticky = s.sticky := by simp [storeDest]

@[simp] theorem storeDest_irqEn (x : BufId) (s : State C) : (storeDest x s).irqEn = s.irqEn := by simp [storeDest]

@[simp] theorem storeDest_errCode (x : BufId) (s : State C) : (storeDest x s).errCode = s.errCode := by simp [storeDest]

@[simp] theorem storeDest_errValid (x : BufId) (s : State C) : (storeDest x s).errValid = s.errValid := by simp [storeDest]

@[simp] theorem storeDest_errInfo (x : BufId) (s : State C) : (storeDest x s).errInfo = s.errInfo := by simp [storeDest]

@[simp] theorem storeDest_completions (x : BufId) (s : State C) : (storeDest x s).completions = s.completions := by simp [storeDest]

@[simp] theorem storeDest_ticks (x : BufId) (s : State C) : (storeDest x s).ticks = s.ticks := by simp [storeDest]

@[simp] theorem storeDest_fillCycles (x : BufId) (s : State C) : (storeDest x s).fillCycles = s.fillCycles := by simp [storeDest]

@[simp] theorem storeDest_cmdArg0 (x : BufId) (s : State C) : (storeDest x s).cmdArg0 = s.cmdArg0 := by simp [storeDest]

@[simp] theorem storeDest_cmdArg1 (x : BufId) (s : State C) : (storeDest x s).cmdArg1 = s.cmdArg1 := by simp [storeDest]

@[simp] theorem storeDest_nodes (x : BufId) (s : State C) : (storeDest x s).nodes = s.nodes := by simp [storeDest]

@[simp] theorem storeDest_lib (x : BufId) (s : State C) : (storeDest x s).lib = s.lib := by simp [storeDest]

@[simp] theorem storeDest_periphReady (x : BufId) (s : State C) : (storeDest x s).periphReady = s.periphReady := by simp [storeDest]

@[simp] theorem storeDest_sched (x : BufId) (s : State C) : (storeDest x s).sched = s.sched := by simp [storeDest]

@[simp] theorem storeDest_busData (x : BufId) (s : State C) : (storeDest x s).busData = s.busData := by simp [storeDest]

@[simp] theorem storeDest_dest (x : BufId) (s : State C) : (storeDest x s).dest = [] := by simp [storeDest]

@[simp] theorem storeDest_fillDraws (x : BufId) (s : State C) : (storeDest x s).fillDraws = s.fillDraws := by simp [storeDest]

/-! ### recordError -/

@[simp] theorem recordError_running (e : ErrorCode) (info : Word) (s : State C) : (recordError e info s).running = s.running := by unfold recordError setSticky; dsimp only; split <;> rfl

@[simp] theorem recordError_inflight (e : ErrorCode) (info : Word) (s : State C) : (recordError e info s).inflight = s.inflight := by unfold recordError setSticky; dsimp only; split <;> rfl

@[simp] theorem recordError_fillReq (e : ErrorCode) (info : Word) (s : State C) : (recordError e info s).fillReq = s.fillReq := by unfold recordError setSticky; dsimp only; split <;> rfl

@[simp] theorem recordError_drainIdx (e : ErrorCode) (info : Word) (s : State C) : (recordError e info s).drainIdx = s.drainIdx := by unfold recordError setSticky; dsimp only; split <;> rfl

@[simp] theorem recordError_bufA (e : ErrorCode) (info : Word) (s : State C) : (recordError e info s).bufA = s.bufA := by unfold recordError setSticky; dsimp only; split <;> rfl

@[simp] theorem recordError_bufB (e : ErrorCode) (info : Word) (s : State C) : (recordError e info s).bufB = s.bufB := by unfold recordError setSticky; dsimp only; split <;> rfl

@[simp] theorem recordError_fifo (e : ErrorCode) (info : Word) (s : State C) : (recordError e info s).fifo = s.fifo := by unfold recordError setSticky; dsimp only; split <;> rfl

@[simp] theorem recordError_rootIdx (e : ErrorCode) (info : Word) (s : State C) : (recordError e info s).rootIdx = s.rootIdx := by unfold recordError setSticky; dsimp only; split <;> rfl

@[simp] theorem recordError_dacWord (e : ErrorCode) (info : Word) (s : State C) : (recordError e info s).dacWord = s.dacWord := by unfold recordError setSticky; dsimp only; split <;> rfl

@[simp] theorem recordError_sticky (e : ErrorCode) (info : Word) (s : State C) : (recordError e info s).sticky = s.sticky ||| e.bit.mask := by unfold recordError setSticky; dsimp only; split <;> simp_all

@[simp] theorem recordError_irqEn (e : ErrorCode) (info : Word) (s : State C) : (recordError e info s).irqEn = s.irqEn := by unfold recordError setSticky; dsimp only; split <;> rfl

@[simp] theorem recordError_errCode (e : ErrorCode) (info : Word) (s : State C) : (recordError e info s).errCode = if s.errValid then s.errCode else e.code := by unfold recordError setSticky; dsimp only; split <;> simp_all

@[simp] theorem recordError_errValid (e : ErrorCode) (info : Word) (s : State C) : (recordError e info s).errValid = true := by unfold recordError setSticky; dsimp only; split <;> first | assumption | rfl

@[simp] theorem recordError_errInfo (e : ErrorCode) (info : Word) (s : State C) : (recordError e info s).errInfo = if s.errValid then s.errInfo else info := by unfold recordError setSticky; dsimp only; split <;> simp_all

@[simp] theorem recordError_completions (e : ErrorCode) (info : Word) (s : State C) : (recordError e info s).completions = s.completions := by unfold recordError setSticky; dsimp only; split <;> rfl

@[simp] theorem recordError_ticks (e : ErrorCode) (info : Word) (s : State C) : (recordError e info s).ticks = s.ticks := by unfold recordError setSticky; dsimp only; split <;> rfl

@[simp] theorem recordError_fillCycles (e : ErrorCode) (info : Word) (s : State C) : (recordError e info s).fillCycles = s.fillCycles := by unfold recordError setSticky; dsimp only; split <;> rfl

@[simp] theorem recordError_cmdArg0 (e : ErrorCode) (info : Word) (s : State C) : (recordError e info s).cmdArg0 = s.cmdArg0 := by unfold recordError setSticky; dsimp only; split <;> rfl

@[simp] theorem recordError_cmdArg1 (e : ErrorCode) (info : Word) (s : State C) : (recordError e info s).cmdArg1 = s.cmdArg1 := by unfold recordError setSticky; dsimp only; split <;> rfl

@[simp] theorem recordError_nodes (e : ErrorCode) (info : Word) (s : State C) : (recordError e info s).nodes = s.nodes := by unfold recordError setSticky; dsimp only; split <;> rfl

@[simp] theorem recordError_lib (e : ErrorCode) (info : Word) (s : State C) : (recordError e info s).lib = s.lib := by unfold recordError setSticky; dsimp only; split <;> rfl

@[simp] theorem recordError_periphReady (e : ErrorCode) (info : Word) (s : State C) : (recordError e info s).periphReady = s.periphReady := by unfold recordError setSticky; dsimp only; split <;> rfl

@[simp] theorem recordError_sched (e : ErrorCode) (info : Word) (s : State C) : (recordError e info s).sched = s.sched := by unfold recordError setSticky; dsimp only; split <;> rfl

@[simp] theorem recordError_busData (e : ErrorCode) (info : Word) (s : State C) : (recordError e info s).busData = s.busData := by unfold recordError setSticky; dsimp only; split <;> rfl

@[simp] theorem recordError_dest (e : ErrorCode) (info : Word) (s : State C) : (recordError e info s).dest = s.dest := by unfold recordError setSticky; dsimp only; split <;> rfl

@[simp] theorem recordError_fillDraws (e : ErrorCode) (info : Word) (s : State C) : (recordError e info s).fillDraws = s.fillDraws := by unfold recordError setSticky; dsimp only; split <;> rfl

/-! ### drainComplete -/

@[simp] theorem drainComplete_running (s : State C) : (drainComplete s).running = s.running := by unfold drainComplete; dsimp only; split <;> simp

@[simp] theorem drainComplete_inflight (s : State C) : (drainComplete s).inflight = s.inflight.other := by unfold drainComplete; dsimp only; split <;> simp

@[simp] theorem drainComplete_fillReq (s : State C) : (drainComplete s).fillReq = true := rfl

@[simp] theorem drainComplete_drainIdx (s : State C) : (drainComplete s).drainIdx = s.drainIdx := by unfold drainComplete; dsimp only; split <;> simp

@[simp] theorem drainComplete_bufA (s : State C) : (drainComplete s).bufA = s.bufA := by unfold drainComplete; dsimp only; split <;> simp

@[simp] theorem drainComplete_bufB (s : State C) : (drainComplete s).bufB = s.bufB := by unfold drainComplete; dsimp only; split <;> simp

@[simp] theorem drainComplete_fifo (s : State C) : (drainComplete s).fifo = s.fifo := by unfold drainComplete; dsimp only; split <;> simp

@[simp] theorem drainComplete_rootIdx (s : State C) : (drainComplete s).rootIdx = s.rootIdx := by unfold drainComplete; dsimp only; split <;> simp

@[simp] theorem drainComplete_dacWord (s : State C) : (drainComplete s).dacWord = s.dacWord := by unfold drainComplete; dsimp only; split <;> simp

@[simp] theorem drainComplete_irqEn (s : State C) : (drainComplete s).irqEn = s.irqEn := by unfold drainComplete; dsimp only; split <;> simp

@[simp] theorem drainComplete_completions (s : State C) : (drainComplete s).completions = s.completions + 1#32 := by unfold drainComplete; dsimp only; split <;> simp

@[simp] theorem drainComplete_ticks (s : State C) : (drainComplete s).ticks = s.ticks := by unfold drainComplete; dsimp only; split <;> simp

@[simp] theorem drainComplete_fillCycles (s : State C) : (drainComplete s).fillCycles = s.fillCycles := by unfold drainComplete; dsimp only; split <;> simp

@[simp] theorem drainComplete_cmdArg0 (s : State C) : (drainComplete s).cmdArg0 = s.cmdArg0 := by unfold drainComplete; dsimp only; split <;> simp

@[simp] theorem drainComplete_cmdArg1 (s : State C) : (drainComplete s).cmdArg1 = s.cmdArg1 := by unfold drainComplete; dsimp only; split <;> simp

@[simp] theorem drainComplete_nodes (s : State C) : (drainComplete s).nodes = s.nodes := by unfold drainComplete; dsimp only; split <;> simp

@[simp] theorem drainComplete_lib (s : State C) : (drainComplete s).lib = s.lib := by unfold drainComplete; dsimp only; split <;> simp

@[simp] theorem drainComplete_periphReady (s : State C) : (drainComplete s).periphReady = s.periphReady := by unfold drainComplete; dsimp only; split <;> simp

@[simp] theorem drainComplete_sched (s : State C) : (drainComplete s).sched = s.sched := by unfold drainComplete; dsimp only; split <;> simp

@[simp] theorem drainComplete_busData (s : State C) : (drainComplete s).busData = s.busData := by unfold drainComplete; dsimp only; split <;> simp

@[simp] theorem drainComplete_dest (s : State C) : (drainComplete s).dest = s.dest := by unfold drainComplete; dsimp only; split <;> simp

@[simp] theorem drainComplete_fillDraws (s : State C) : (drainComplete s).fillDraws = s.fillDraws := by unfold drainComplete; dsimp only; split <;> simp

/-! ### buffers -/

@[simp] theorem buf_setBuf_same (s : State C) (x : BufId) (w : Vector (Code C) C.bufLen) : (s.setBuf x w).buf x = w := by
  cases x <;> rfl

@[simp] theorem buf_setBuf_other (s : State C) (x : BufId) (w : Vector (Code C) C.bufLen) :
    (s.setBuf x w).buf x.other = s.buf x.other := by cases x <;> rfl

@[simp] theorem other_other (x : BufId) : x.other.other = x := by cases x <;> rfl

theorem other_ne (x : BufId) : x.other ≠ x := by cases x <;> decide

@[simp] theorem buf_storeDest_same (x : BufId) (s : State C) :
    (storeDest x s).buf x = codesOf C s.dest := by cases x <;> rfl

@[simp] theorem buf_storeDest_other (x : BufId) (s : State C) : (storeDest x s).buf x.other = s.buf x.other := by
  cases x <;> simp [storeDest, State.buf, State.setBuf, BufId.other]

@[simp] theorem buf_recordError (e : ErrorCode) (info : Word) (s : State C) (x : BufId) :
    (recordError e info s).buf x = s.buf x := by cases x <;> simp [State.buf]

/-! ### nodes -/

@[simp] theorem setBody_get_same (t : NodeTable C) (i : Fin C.nNodes) (b : NodeBody C) :
    (setBody t i b)[i.val] = { t[i.val] with body := b } := by simp [setBody]

theorem setBody_get_other (t : NodeTable C) (i j : Fin C.nNodes) (b : NodeBody C) (h : j ≠ i) :
    (setBody t i b)[j.val] = t[j.val] := by
  have h' : i.val ≠ j.val := fun e => h (Fin.ext e.symm)
  simp [setBody, h']

/-- The common fields of every node are kept (R69). -/
theorem setBody_common (t : NodeTable C) (i j : Fin C.nNodes) (b : NodeBody C) :
    (setBody t i b)[j.val].div = t[j.val].div ∧ (setBody t i b)[j.val].childA = t[j.val].childA
      ∧ (setBody t i b)[j.val].childB = t[j.val].childB := by
  by_cases h : j = i
  · subst h; simp
  · simp [setBody_get_other t i j b h]

theorem withBody_eq (s : State C) (i : Fin C.nNodes) (b : NodeBody C) : withBody s i b = s.setBody i b := rfl

end Sys2Proof.Machine
end

