-- ==== Sys2Proof/Laws/Cells.lean ====
section
/-!
SUPPORT. The sparse memories: read after write, and that every memory operation keeps the canonical form (LIB and delay tanks).
-/

namespace Sys2Proof.Machine

variable {C : Config}

variable {α : Type}

@[simp] theorem cellGet_put_same (m : List (Nat × α)) (a : Nat) (v : α) : cellGet (cellPut m a v) a = some v := by
  induction m with
  | nil => simp [cellPut, cellGet]
  | cons x m ih =>
    obtain ⟨b, w⟩ := x
    unfold cellPut
    split
    · simp [cellGet]
    · split
      · simp [cellGet]
      · simp [cellGet, *]

theorem cellGet_put_other (m : List (Nat × α)) (a c : Nat) (v : α) (h : c ≠ a) :
    cellGet (cellPut m a v) c = cellGet m c := by
  induction m with
  | nil => simp [cellPut, cellGet, h]
  | cons x m ih =>
    obtain ⟨b, w⟩ := x
    unfold cellPut
    split
    · simp [cellGet, h]
    · split
      · subst_vars; simp [cellGet, h]
      · simp [cellGet, ih]

@[simp] theorem cellGet_drop_same (m : List (Nat × α)) (a : Nat) : cellGet (cellDrop m a) a = none := by
  induction m with
  | nil => rfl
  | cons x m ih =>
    obtain ⟨b, w⟩ := x
    unfold cellDrop
    split
    · exact ih
    · simp [cellGet, *]

theorem cellGet_drop_other (m : List (Nat × α)) (a c : Nat) (h : c ≠ a) : cellGet (cellDrop m a) c = cellGet m c := by
  induction m with
  | nil => rfl
  | cons x m ih =>
    obtain ⟨b, w⟩ := x
    unfold cellDrop
    split
    · subst_vars; simp [cellGet, h, ih]
    · simp [cellGet, ih]

/-! ### Canonical form -/

theorem risingBelow_iff (bound : Nat) (m : List (Nat × α)) :
    risingBelow bound m = true ↔ m.Pairwise (fun x y => x.1 < y.1) ∧ ∀ x ∈ m, x.1 < bound := by
  simp [risingBelow]

theorem mem_cellPut (m : List (Nat × α)) (a : Nat) (v : α) (x : Nat × α) (h : x ∈ cellPut m a v) : x = (a, v) ∨ x ∈ m := by
  induction m with
  | nil => simpa [cellPut] using h
  | cons y m ih =>
    obtain ⟨b, w⟩ := y
    unfold cellPut at h
    split at h
    · simpa using h
    · split at h
      · rcases List.mem_cons.1 h with h | h
        · exact .inl h
        · exact .inr (List.mem_cons_of_mem _ h)
      · rcases List.mem_cons.1 h with h | h
        · exact .inr (h ▸ List.mem_cons_self)
        · exact (ih h).imp id (List.mem_cons_of_mem _)

theorem mem_cellDrop (m : List (Nat × α)) (a : Nat) (x : Nat × α) (h : x ∈ cellDrop m a) : x ∈ m := by
  induction m with
  | nil => exact h
  | cons y m ih =>
    obtain ⟨b, w⟩ := y
    unfold cellDrop at h
    split at h
    · exact List.mem_cons_of_mem _ (ih h)
    · rcases List.mem_cons.1 h with h | h
      · exact h ▸ List.mem_cons_self
      · exact List.mem_cons_of_mem _ (ih h)

theorem cellPut_rising (m : List (Nat × α)) (a : Nat) (v : α) (h : m.Pairwise fun x y => x.1 < y.1) :
    (cellPut m a v).Pairwise fun x y => x.1 < y.1 := by
  induction m with
  | nil => simp [cellPut]
  | cons y m ih =>
    obtain ⟨b, w⟩ := y
    obtain ⟨hb, hm⟩ := List.pairwise_cons.1 h
    unfold cellPut
    split
    · refine List.pairwise_cons.2 ⟨fun z hz => ?_, h⟩
      rcases List.mem_cons.1 hz with rfl | hz
      · assumption
      · exact Nat.lt_trans ‹a < b› (hb z hz)
    · split
      · subst_vars; exact List.pairwise_cons.2 ⟨hb, hm⟩
      · refine List.pairwise_cons.2 ⟨fun z hz => ?_, ih hm⟩
        rcases mem_cellPut m a v z hz with rfl | hz
        · show b < a; omega
        · exact hb z hz

theorem cellDrop_rising (m : List (Nat × α)) (a : Nat) (h : m.Pairwise fun x y => x.1 < y.1) :
    (cellDrop m a).Pairwise fun x y => x.1 < y.1 := by
  induction m with
  | nil => exact h
  | cons y m ih =>
    obtain ⟨b, w⟩ := y
    obtain ⟨hb, hm⟩ := List.pairwise_cons.1 h
    unfold cellDrop
    split
    · exact ih hm
    · exact List.pairwise_cons.2 ⟨fun z hz => hb z (mem_cellDrop m a z hz), ih hm⟩

theorem cellPut_risingBelow (bound : Nat) (m : List (Nat × α)) (a : Nat) (v : α) (ha : a < bound)
    (h : risingBelow bound m = true) : risingBelow bound (cellPut m a v) = true := by
  rw [risingBelow_iff] at h ⊢
  refine ⟨cellPut_rising m a v h.1, fun x hx => ?_⟩
  rcases mem_cellPut m a v x hx with rfl | hx
  · exact ha
  · exact h.2 x hx

/-! ### LIB -/

theorem libWrite8_wf (m : Lib) (a : Nat) (v : Byte) (ha : a < C.libBytes) (h : Lib.wf C m = true) :
    Lib.wf C (libWrite8 m a v) = true := cellPut_risingBelow _ m a v ha h

theorem libWriteN_wf (m : Lib) (a v n : Nat) (ha : a + n ≤ C.libBytes) (h : Lib.wf C m = true) :
    Lib.wf C (libWriteN m a v n) = true := by
  induction n generalizing m a v with
  | zero => exact h
  | succ n ih => exact ih _ _ _ (by omega) (libWrite8_wf m a _ (by omega) h)

@[simp] theorem libRead8_write8_same (m : Lib) (a : Nat) (v : Byte) : libRead8 (libWrite8 m a v) a = v := by
  simp [libRead8, libWrite8]

theorem libRead8_write8_other (m : Lib) (a c : Nat) (v : Byte) (h : c ≠ a) :
    libRead8 (libWrite8 m a v) c = libRead8 m c := by simp [libRead8, libWrite8, cellGet_put_other m a c v h]

theorem libRead8_writeN_outside (m : Lib) (a v n c : Nat) (h : c < a ∨ a + n ≤ c) :
    libRead8 (libWriteN m a v n) c = libRead8 m c := by
  induction n generalizing m a v with
  | zero => rfl
  | succ n ih =>
    show libRead8 (libWriteN _ (a + 1) _ n) c = _
    rw [ih _ _ _ (by omega), libRead8_write8_other _ _ _ _ (by omega)]

/-- The byte i of a little-endian write is v[8i+7:8i] (R110, R111). -/
theorem libRead8_writeN_inside (m : Lib) (a v n i : Nat) (h : i < n) :
    libRead8 (libWriteN m a v n) (a + i) = BitVec.ofNat 8 (v / 256 ^ i) := by
  induction n generalizing m a v i with
  | zero => omega
  | succ n ih =>
    show libRead8 (libWriteN _ (a + 1) _ n) (a + i) = _
    cases i with
    | zero => rw [libRead8_writeN_outside _ _ _ _ _ (by omega)]; simp
    | succ i =>
      have := ih (libWrite8 m a (BitVec.ofNat 8 v)) (a + 1) (v / 256) i (by omega)
      rw [show a + (i + 1) = a + 1 + i by omega, this, Nat.div_div_eq_div_mul, Nat.pow_succ, Nat.mul_comm]

/-! ### Tanks -/

theorem tankWrite_wf (t : List (Nat × Sample)) (i : Nat) (v : Sample) (h : tankWf C t = true) :
    tankWf C (tankWrite C t i v) = true := by
  have hi : i % C.tankLen < C.tankLen := Nat.mod_lt _ C.tankLen_pos
  simp only [tankWf, Bool.and_eq_true, List.all_eq_true] at h ⊢
  unfold tankWrite
  split
  · refine ⟨?_, fun x hx => h.2 x (mem_cellDrop t _ x hx)⟩
    rw [risingBelow_iff] at *
    exact ⟨cellDrop_rising t _ h.1.1, fun x hx => h.1.2 x (mem_cellDrop t _ x hx)⟩
  · refine ⟨cellPut_risingBelow _ t _ v hi h.1, fun x hx => ?_⟩
    rcases mem_cellPut t _ v x hx with rfl | hx
    · simpa using ‹¬v = 0#16›
    · exact h.2 x hx

@[simp] theorem tankRead_write_same (t : List (Nat × Sample)) (i : Nat) (v : Sample) : tankRead C (tankWrite C t i v) i = v := by
  unfold tankRead tankWrite
  split
  · simp [*]
  · simp

theorem tankRead_write_other (t : List (Nat × Sample)) (i j : Nat) (v : Sample)
    (h : j % C.tankLen ≠ i % C.tankLen) : tankRead C (tankWrite C t i v) j = tankRead C t j := by
  unfold tankRead tankWrite
  split
  · rw [cellGet_drop_other _ _ _ h]
  · rw [cellGet_put_other _ _ _ _ h]

end Sys2Proof.Machine
end

