-- ==== Sys2Proof/Laws/Arith.lean ====
section
/-!
SUPPORT. The fixed-point layer: what a saturated store reads back as, and the exact cases of the rounding shift.
-/

namespace Sys2Proof.Machine

theorem sat16_range (x : Int) : -32768 ≤ sat16 x ∧ sat16 x ≤ 32767 := by unfold sat16 clampInt; omega

theorem sat32_range (x : Int) : -2147483648 ≤ sat32 x ∧ sat32 x ≤ 2147483647 := by unfold sat32 clampInt; omega

theorem sat16_of_fits (x : Int) (h : -32768 ≤ x ∧ x ≤ 32767) : sat16 x = x := by unfold sat16 clampInt; omega

theorem sat32_of_fits (x : Int) (h : -2147483648 ≤ x ∧ x ≤ 2147483647) : sat32 x = x := by unfold sat32 clampInt; omega

/-- A stored Sample reads back as the saturated value (R214). -/
@[simp] theorem toSample_toInt (x : Int) : (toSample x).toInt = sat16 x := by
  obtain ⟨h1, h2⟩ := sat16_range x
  rw [toSample, BitVec.toInt_ofInt, Int.bmod_def]
  omega

/-- A stored s32 field reads back as the saturated value (R214). -/
@[simp] theorem toS32_toInt (x : Int) : (toS32 x).toInt = sat32 x := by
  obtain ⟨h1, h2⟩ := sat32_range x
  rw [toS32, BitVec.toInt_ofInt, Int.bmod_def]
  omega

theorem sample_range (x : Sample) : -32768 ≤ x.toInt ∧ x.toInt ≤ 32767 := by
  have h1 := BitVec.toInt_lt (x := x)
  have h2 := BitVec.le_toInt (x := x)
  omega

theorem word_range (x : Word) : -2147483648 ≤ x.toInt ∧ x.toInt ≤ 2147483647 := by
  have h1 := BitVec.toInt_lt (x := x)
  have h2 := BitVec.le_toInt (x := x)
  omega

theorem toSample_of_toInt (x : Sample) : toSample x.toInt = x := by
  apply BitVec.eq_of_toInt_eq
  rw [toSample_toInt, sat16_of_fits _ (sample_range x)]

@[simp] theorem rshrRound_zero_value (s : Nat) : rshrRound 0 s = 0 := by
  cases s with
  | zero => rfl
  | succ s =>
    have h : (0 : Int) < 2 ^ s := by positivity
    rw [rshrRound, Int.pow_succ]
    exact Int.ediv_eq_zero_of_lt (by omega) (by omega)

/-- A shift of a multiple of 2^s is exact (R210). -/
theorem rshrRound_exact (x : Int) (s : Nat) : rshrRound (x * 2 ^ s) s = x := by
  cases s with
  | zero => simp [rshrRound]
  | succ s =>
    have h : (0 : Int) < 2 ^ s := by positivity
    rw [rshrRound, Int.pow_succ, Int.add_comm, Int.add_mul_ediv_right _ _ (by omega),
      Int.ediv_eq_zero_of_lt (by omega) (by omega), Int.zero_add]

@[simp] theorem divisor_toNat_eq (d : Divisor) : d.toNat = 2 ^ d.log2 := by cases d <;> rfl

theorem divisor_pos (d : Divisor) : 0 < d.toNat := by cases d <;> decide

/-- The ceiling of a quotient (R15). -/
theorem ceilDiv_spec (a b : Nat) (hb : 0 < b) : a ≤ ceilDiv a b * b ∧ ceilDiv a b * b < a + b := by
  unfold ceilDiv
  have h1 := Nat.div_add_mod (a + b - 1) b
  have h2 := Nat.mod_lt (a + b - 1) hb
  rw [Nat.mul_comm] at h1
  omega

end Sys2Proof.Machine
end

