-- ==== Sys2Proof/Laws/Decode.lean ====
section
/-!
SUPPORT. The fields of an encoded word (30_encoding R140, R142) and the type codes (R61).
-/

namespace Sys2Proof

theorem getLsbD_cmdWord (opc k : BitVec 8) (i : Nat) :
    (cmdWord opc k).getLsbD i = if i < 8 then opc.getLsbD i else k.getLsbD (i - 8) := by
  show (0#16 ++ k ++ opc).getLsbD i = _
  rw [BitVec.getLsbD_append, BitVec.getLsbD_append]
  split
  · rfl
  · split
    · rfl
    · simp [BitVec.getLsbD_of_ge k (i-8) (by omega)]

@[simp] theorem opcOf_cmdWord (opc k : BitVec 8) : opcOf (cmdWord opc k) = opc := by
  unfold opcOf; ext i hi; simp [getLsbD_cmdWord, hi]

@[simp] theorem nodeOf_cmdWord (opc k : BitVec 8) : nodeOf (cmdWord opc k) = k := by
  unfold nodeOf; ext i hi; simp [getLsbD_cmdWord, hi]

@[simp] theorem rsvdOf_cmdWord (opc k : BitVec 8) : rsvdOf (cmdWord opc k) = 0#16 := by
  unfold rsvdOf; ext i hi; simp [getLsbD_cmdWord, show ¬ 16 + i < 8 by omega, BitVec.getLsbD_of_ge k (16 + i - 8) (by omega)]

theorem getLsbD_halves (hi lo : Half) (i : Nat) :
    BitVec.getLsbD (hi ++ lo : Word) i = if i < 16 then lo.getLsbD i else hi.getLsbD (i - 16) :=
  BitVec.getLsbD_append

@[simp] theorem loHalf_append (hi lo : Half) : loHalf (hi ++ lo) = lo := by
  unfold loHalf; ext i h; simp [getLsbD_halves, h]

@[simp] theorem hiHalf_append (hi lo : Half) : hiHalf (hi ++ lo) = hi := by
  unfold hiHalf; ext i h; simp [getLsbD_halves, h]

@[simp] theorem loHalf_argHalf (h : Half) : loHalf (argHalf h) = h := loHalf_append 0#16 h

@[simp] theorem hiHalf_argHalf (h : Half) : hiHalf (argHalf h) = 0#16 := hiHalf_append 0#16 h

@[simp] theorem ofCode?_code (ty : NodeType) : NodeType.ofCode? ty.code = some ty := by cases ty <;> rfl

/-- The call produce(k, n) of a type decodes to the type's produce operation (R146, R260). -/
@[simp] theorem decodeCall_code (ty : NodeType) (k : BitVec 8) (n : Nat) :
    decodeCall ⟨ty.code, k, n⟩ = .ok (Instr.ofType ty k n) := by simp [decodeCall]

@[simp] theorem whenClear_true (i : Instr) : whenClear true i = .ok i := rfl

@[simp] theorem whenClear_false (i : Instr) : whenClear false i = .error .reservedBits := rfl

end Sys2Proof
end

