-- ==== Sys2Proof/Laws/Ops.lean ====
section
/-!
SUPPORT. The shared operations, each with one lemma that says what it can do: sequencing, node ranges, the checks of a command, the
schedule's step.
-/

namespace Sys2Proof.Machine

variable {C : Config}

variable {α β : Type}

@[simp] theorem andThen_next (a : α) (k : α → Host.Outcome β Fault Refusal) : andThen (.next a) k = k a := rfl

@[simp] theorem andThen_fault (r : Fault) (k : α → Host.Outcome β Fault Refusal) : andThen (.fault r) k = .fault r := rfl

@[simp] theorem andThen_refused (r : Refusal) (k : α → Host.Outcome β Fault Refusal) :
    andThen (.refused r) k = .refused r := rfl

/-- A sequence that answers next went through a next. -/
theorem andThen_inv {o : Host.Outcome α Fault Refusal} {k : α → Host.Outcome β Fault Refusal} {b : β}
    (h : andThen o k = .next b) : ∃ a, o = .next a ∧ k a = .next b := by
  cases o with
  | next a => exact ⟨a, rfl, h⟩
  | fault r => cases h
  | refused r => cases h

theorem nodeIdx?_of_eq (k : BitVec 8) (i : Fin C.nNodes) (h : k.toNat = i.val) : nodeIdx? C k = some i := by
  simp [nodeIdx?, h]

theorem nodeIdx?_eq_some (k : BitVec 8) (i : Fin C.nNodes) : nodeIdx? C k = some i ↔ k.toNat = i.val := by
  refine ⟨fun h => ?_, nodeIdx?_of_eq k i⟩
  unfold nodeIdx? at h
  split at h
  · cases h; rfl
  · cases h

theorem nodeIdx?_eq_none (k : BitVec 8) : nodeIdx? C k = none ↔ C.nNodes ≤ k.toNat := by
  unfold nodeIdx?
  split <;> simp <;> omega

/-- Every node index comes back from its number. -/
theorem nodeIdx?_ofNat (i : Fin C.nNodes) : nodeIdx? C (BitVec.ofNat 8 i.val) = some i := by
  apply nodeIdx?_of_eq
  have h := i.isLt
  have := C.nNodes_range
  simp
  omega

theorem onNode_of_eq (w : Word) (k : BitVec 8) (s : State C) (f : Fin C.nNodes → Host.Outcome (State C) Fault Refusal)
    (i : Fin C.nNodes) (h : k.toNat = i.val) : onNode w k s f = f i := by simp [onNode, nodeIdx?_of_eq k i h]

/-- The node range check (R150 step 3). -/
theorem onNode_of_range (w : Word) (k : BitVec 8) (s : State C) (f : Fin C.nNodes → Host.Outcome (State C) Fault Refusal)
    (h : C.nNodes ≤ k.toNat) : onNode w k s f = .next (recordError .cmdNodeRange w s) := by
  simp [onNode, (nodeIdx?_eq_none k).2 h, raiseCmd]

/-- On this hardware the effect of an instruction is exec's (R10). -/
@[simp] theorem perform_eq_exec (i : Instr) (s : State) : perform i s = exec i s := by cases i <;> rfl

@[simp] theorem stepOf_eq_step (s : State) : stepOf s = step s := rfl

/-- Adding an entry at the head of the schedule and taking it: the step runs it (00_scope R19). -/
theorem stepOf_cons (s : State C) (e : Event) (rest : List Event) (h : s.sched = e :: rest) :
    stepOf s = runEvent e { s with sched := rest } := by simp [stepOf, h]

theorem step_cons (s : State) (e : Event) (rest : List Event) (h : s.sched = e :: rest) :
    step s = runEvent e { s with sched := rest } := stepOf_cons s e rest h

theorem stepOf_rest (s : State C) (h : s.sched = []) : stepOf s = .next s := by simp [stepOf, h]

theorem step_rest (s : State) (h : s.sched = []) : step s = .next s := stepOf_rest s h

/-- The record of an error, in one equation (R505). -/
theorem recordError_eq (e : ErrorCode) (info : Word) (s : State C) :
    recordError e info s =
      { s with
        sticky := s.sticky ||| e.bit.mask
        errCode := if s.errValid then s.errCode else e.code
        errInfo := if s.errValid then s.errInfo else info
        errValid := true } := by
  obtain ⟨⟩ := s
  unfold recordError setSticky
  dsimp only
  split <;> simp_all

/-- What a register write decodes to at the offsets of the command interface (R130). -/
theorem busTarget_cmdWord : busTarget C 0x048 4 = .reg .cmdWord := rfl

theorem busTarget_ctrl : busTarget C 0x004 4 = .reg .ctrl := rfl

theorem busTarget_status : busTarget C 0x008 4 = .reg .status := rfl

theorem busTarget_errCause : busTarget C 0x010 4 = .reg .errCause := rfl

end Sys2Proof.Machine
end

