-- ==== Sys2Proof/Laws/Produce.lean ====
section
/-!
SUPPORT. The per-sample loops and the recursion of produce: lengths, splitting, and one equation per node type.
-/

namespace Sys2Proof.Machine

variable {C : Config}

variable {σ : Type}

@[simp] theorem runSamples_length (body : σ → Sample × σ) (n : Nat) (st : σ) : (runSamples body n st).1.length = n := by
  induction n generalizing st with
  | zero => rfl
  | succ n ih => simp [runSamples, ih]

@[simp] theorem mapSamples_length (body : σ → Sample → Sample × σ) (xs : List Sample) (st : σ) :
    (mapSamples body xs st).1.length = xs.length := by
  induction xs generalizing st with
  | nil => rfl
  | cons x xs ih => simp [mapSamples, ih]

/-- The node's state after m samples of a loop. -/
def stateAfter (body : σ → Sample × σ) (m : Nat) (st : σ) : σ := (runSamples body m st).2

theorem stateAfter_succ (body : σ → Sample × σ) (m : Nat) (st : σ) :
    stateAfter body (m + 1) st = (body (stateAfter body m st)).2 := by
  induction m generalizing st with
  | zero => rfl
  | succ m ih => exact ih (body st).2

/-- Sample m of a loop is the body's output in the state after m samples. -/
theorem runSamples_get (body : σ → Sample × σ) (n m : Nat) (st : σ) (h : m < n) :
    (runSamples body n st).1[m]? = some (body (stateAfter body m st)).1 := by
  induction n generalizing m st with
  | zero => omega
  | succ n ih =>
    cases m with
    | zero => rfl
    | succ m => simpa [runSamples, stateAfter] using ih m (body st).2 (by omega)

/-- The node's state after the first m Samples of a child. -/
def stateAfterMap (body : σ → Sample → Sample × σ) (xs : List Sample) (m : Nat) (st : σ) : σ :=
  (mapSamples body (xs.take m) st).2

theorem stateAfterMap_succ (body : σ → Sample → Sample × σ) (xs : List Sample) (m : Nat) (st : σ) (h : m < xs.length) :
    stateAfterMap body xs (m + 1) st = (body (stateAfterMap body xs m st) xs[m]).2 := by
  induction xs generalizing m st with
  | nil => simp at h
  | cons x xs ih =>
    cases m with
    | zero => simp [stateAfterMap, mapSamples]
    | succ m =>
      have := ih m (body st x).2 (by simpa using h)
      simpa [stateAfterMap, mapSamples] using this

theorem mapSamples_get (body : σ → Sample → Sample × σ) (xs : List Sample) (m : Nat) (st : σ) (h : m < xs.length) :
    (mapSamples body xs st).1[m]? = some (body (stateAfterMap body xs m st) xs[m]).1 := by
  induction xs generalizing m st with
  | nil => simp at h
  | cons x xs ih =>
    cases m with
    | zero => simp [stateAfterMap, mapSamples]
    | succ m =>
      have := ih m (body st x).2 (by simpa using h)
      simpa [stateAfterMap, mapSamples] using this

@[simp] theorem mixSamples_length (a b : List Sample) : (mixSamples a b).length = min a.length b.length := by
  simp [mixSamples]

/-! ### One equation per node type -/

section
variable (lib : Lib) (depth n : Nat) (k : BitVec 8) (t : NodeTable C) (i : Fin C.nNodes) (hk : k.toNat = i.val)
include hk

theorem produceAt_silence (h : t[i.val].body = .silence) :
    produceAt lib (depth + 1) k n t = .next (silenceRun n, t) := by
  simp [produceAt, nodeIdx?_of_eq k i hk, h]

theorem produceAt_osc (o : Osc) (h : t[i.val].body = .osc o) :
    produceAt lib (depth + 1) k n t = finish t i .osc (runSamples oscSample n o) := by
  simp [produceAt, nodeIdx?_of_eq k i hk, h]

theorem produceAt_player (p : Player) (h : t[i.val].body = .player p) (hp : playerInLib C p = true) :
    produceAt lib (depth + 1) k n t = finish t i .player (runSamples (playerSample lib t[i.val].div) n p) := by
  simp [produceAt, nodeIdx?_of_eq k i hk, h, hp]

theorem produceAt_looper (l : Looper) (h : t[i.val].body = .looper l) (hl : looperInLib C l = true) :
    produceAt lib (depth + 1) k n t = finish t i .looper (runSamples (looperSample C lib t[i.val].div) n l) := by
  simp [produceAt, nodeIdx?_of_eq k i hk, h, hl]

theorem produceAt_mixer (m : Mixer C) (h : t[i.val].body = .mixer m) :
    produceAt lib (depth + 1) k n t =
      andThen (produceAt lib depth t[i.val].childA n t) fun a =>
        andThen (produceAt lib depth t[i.val].childB n a.2) fun b =>
          finish b.2 i .mixer (mixSamples a.1 b.1, fillScratch m b.1) := by
  conv => lhs; unfold produceAt
  simp [nodeIdx?_of_eq k i hk, h]

theorem produceAt_filter (f : Filter) (h : t[i.val].body = .filter f) :
    produceAt lib (depth + 1) k n t =
      andThen (produceAt lib depth t[i.val].childA n t) fun x => finish x.2 i .filter (mapSamples filterSample x.1 f) := by
  conv => lhs; unfold produceAt
  simp [nodeIdx?_of_eq k i hk, h]

theorem produceAt_delay (d : Delay C) (h : t[i.val].body = .delay d) :
    produceAt lib (depth + 1) k n t =
      andThen (produceAt lib depth t[i.val].childA n t) fun x => finish x.2 i .delay (mapSamples delaySample x.1 d) := by
  conv => lhs; unfold produceAt
  simp [nodeIdx?_of_eq k i hk, h]

end

/-- Every produce instruction is the one operation at its type (R260). -/
theorem perform_ofType (ty : NodeType) (k : BitVec 8) (n : Nat) (s : State C) :
    perform (Instr.ofType ty k n) s = produceOp ty k n s := by cases ty <;> rfl

theorem exec_ofType (ty : NodeType) (k : BitVec 8) (n : Nat) (s : State) :
    exec (Instr.ofType ty k n) s = produceOp ty k n s := by cases ty <;> rfl

/-- The produce operation on a node of its type with a count a rule calls. -/
theorem produceOp_of_type (ty : NodeType) (k : BitVec 8) (n : Nat) (s : State C) (i : Fin C.nNodes)
    (hk : k.toNat = i.val) (hn : countOk C n = true) (ht : s.nodes[i.val].body.type = ty) :
    produceOp ty k n s =
      andThen (produceAt s.lib C.nNodes k n s.nodes) fun r => .next { s with nodes := r.2, dest := r.1 } := by
  simp [produceOp, nodeIdx?_of_eq k i hk, hn, ht]

/-- A produce operation that answers next changed the node table and dest only (R265). -/
theorem produceOp_next (ty : NodeType) (k : BitVec 8) (n : Nat) (s t : State C) (h : produceOp ty k n s = .next t) :
    t = { s with nodes := t.nodes, dest := t.dest } := by
  unfold produceOp at h
  split at h
  · split at h
    · cases h
    · split at h
      · obtain ⟨r, -, hr⟩ := andThen_inv h
        cases hr; rfl
      · cases h
  · cases h

end Sys2Proof.Machine
end

