-- ==== Sys2Proof/Laws/PerInstr.lean ====
section
/-!
SUPPORT. Statements for every instruction as syntax, one lemma per constructor: every instruction encodes to legal words (30_encoding
R140, R145, R146).
-/

namespace Sys2Proof.Laws.LegalWords

/-- A command encodes to a triple whose opcode is assigned and whose reserved half word is 0; a produce operation to a call with
an assigned type code and its own node and count. -/
def Statement (i : Instr) : Prop :=
  match encode i with
  | .command c => i.isCommand = true ∧ (opcOf c.word).toNat ≤ 0x0A ∧ rsvdOf c.word = 0#16
  | .call p => i.isCommand = false ∧ p.code.toNat ≤ 6

theorem nop : Statement .nop := by simp [Statement, encode, Instr.isCommand]

theorem cfgNode (k : BitVec 8) (typ : BitVec 4) (divc : BitVec 2) (a b : BitVec 8) : Statement (.cfgNode k typ divc a b) := by
  simp [Statement, encode, Instr.isCommand]

theorem install (k : BitVec 8) : Statement (.install k) := by simp [Statement, encode, Instr.isCommand]

theorem oscNote (k : BitVec 8) (inc dur : Word) : Statement (.oscNote k inc dur) := by
  simp [Statement, encode, Instr.isCommand]

theorem smpLoad (k : BitVec 8) (base len : Word) : Statement (.smpLoad k base len) := by
  simp [Statement, encode, Instr.isCommand]

theorem smpPlay (k : BitVec 8) (amp : Word) : Statement (.smpPlay k amp) := by simp [Statement, encode, Instr.isCommand]

theorem loopSetpos (k : BitVec 8) (frac : Half) : Statement (.loopSetpos k frac) := by
  simp [Statement, encode, Instr.isCommand]

theorem loopGate (k : BitVec 8) (value thresh rmin rmax : Half) : Statement (.loopGate k value thresh rmin rmax) := by
  simp [Statement, encode, Instr.isCommand]

theorem fltSet (k : BitVec 8) (f q : Half) : Statement (.fltSet k f q) := by simp [Statement, encode, Instr.isCommand]

theorem dlySetDelay (k : BitVec 8) (delay : Word) : Statement (.dlySetDelay k delay) := by
  simp [Statement, encode, Instr.isCommand]

theorem dlySetFeedback (k : BitVec 8) (fb : Half) : Statement (.dlySetFeedback k fb) := by
  simp [Statement, encode, Instr.isCommand]

theorem produceSilence (k : BitVec 8) (n : Nat) : Statement (.produceSilence k n) := by
  simp [Statement, encode, Instr.isCommand, NodeType.code]

theorem produceOsc (k : BitVec 8) (n : Nat) : Statement (.produceOsc k n) := by
  simp [Statement, encode, Instr.isCommand, NodeType.code]

theorem producePlayer (k : BitVec 8) (n : Nat) : Statement (.producePlayer k n) := by
  simp [Statement, encode, Instr.isCommand, NodeType.code]

theorem produceLooper (k : BitVec 8) (n : Nat) : Statement (.produceLooper k n) := by
  simp [Statement, encode, Instr.isCommand, NodeType.code]

theorem produceMixer (k : BitVec 8) (n : Nat) : Statement (.produceMixer k n) := by
  simp [Statement, encode, Instr.isCommand, NodeType.code]

theorem produceFilter (k : BitVec 8) (n : Nat) : Statement (.produceFilter k n) := by
  simp [Statement, encode, Instr.isCommand, NodeType.code]

theorem produceDelay (k : BitVec 8) (n : Nat) : Statement (.produceDelay k n) := by
  simp [Statement, encode, Instr.isCommand, NodeType.code]

end Sys2Proof.Laws.LegalWords
end

