-- ==== Sys2Proof/Laws/Rules.lean ====
section
/-!
SUPPORT. One lemma per per-sample body: it meets its rule as a relation (42_leaf_sources R321, R340; 43_combinators R405, R432), and it
keeps the bounds 10_state gives the node's fields (R63 to R68).
-/

namespace Sys2Proof.Machine

variable {C : Config}

/-! ### The slew -/

/-- A rounding shift lies between 0 and its argument (R212). -/
theorem rshrRound_between (d : Int) (s : Nat) : min 0 d ≤ rshrRound d s ∧ rshrRound d s ≤ max 0 d := by
  cases s with
  | zero => exact ⟨min_le_right 0 d, le_max_right 0 d⟩
  | succ s =>
    have hp : (0 : Int) < 2 ^ s := by positivity
    simp only [rshrRound, Int.pow_succ]
    generalize (2 : Int) ^ s = p at hp
    constructor
    · rw [Int.le_ediv_iff_mul_le (by omega)]
      rcases le_total 0 d with h | h
      · rw [min_eq_left h]; omega
      · rw [min_eq_right h]; nlinarith
    · rw [← Int.lt_add_one_iff, Int.ediv_lt_iff_lt_mul (by omega)]
      rcases le_total 0 d with h | h
      · rw [max_eq_right h]; nlinarith
      · rw [max_eq_left h]; nlinarith

/-- A slew step reads back as the exact sum (R212). -/
theorem slew_toNat (v t : Word) (s : Nat) :
    ((slew v t s).toNat : Int) = v.toNat + rshrRound ((t.toNat : Int) - v.toNat) s := by
  have h := rshrRound_between ((t.toNat : Int) - v.toNat) s
  have hv := v.isLt
  have ht := t.isLt
  rw [slew, BitVec.toNat_ofInt, Int.toNat_of_nonneg (Int.emod_nonneg _ (by decide)), Int.emod_eq_of_lt] <;> omega

/-- A slew step stays between the old value and the target (R212). -/
theorem slew_between (v t : Word) (s : Nat) :
    min v.toNat t.toNat ≤ (slew v t s).toNat ∧ (slew v t s).toNat ≤ max v.toNat t.toNat := by
  have h := rshrRound_between ((t.toNat : Int) - v.toNat) s
  have := slew_toNat v t s
  omega

/-! ### The rules -/

theorem scaled_output (D : Divisor) (j : Nat) (c nx : Int) (amp : Word) :
    ScaledOutput D j c nx amp (scaled (interpolate D.toNat j c nx) amp D.log2) := by
  simp [ScaledOutput, scaled, interpolate]

theorem divisor_le (d : Divisor) : d.toNat ≤ 4 := by cases d <;> decide

theorem playerSample_rule (lib : Lib) (D : Divisor) (p : Player) (h : bodyOk C D (.player p) = true) :
    PlayerRule lib D p (playerSample lib D p).1 (playerSample lib D p).2 := by
  simp only [bodyOk, Bool.and_eq_true, decide_eq_true_eq] at h
  obtain ⟨⟨h1, h2⟩, h3⟩ := h
  have hD := divisor_le D
  unfold PlayerRule playerSample
  split
  · exact ⟨rfl, rfl⟩
  · dsimp only
    refine ⟨?_, ?_⟩
    · have := scaled_output D p.j.toNat (libValue lib p.base p.idx.toNat)
        (if p.idx.toNat + 1 < p.len.toNat then libValue lib p.base (p.idx.toNat + 1) else 0) p.amp
      simpa [libValue, Nat.add_assoc] using this
    · by_cases hj : p.j.toNat + 1 = D.toNat
      · rw [if_pos hj, if_pos hj]
        refine ⟨rfl, rfl, rfl, rfl, ?_⟩
        simp [BitVec.toNat_add]; omega
      · rw [if_neg hj, if_neg hj]
        refine ⟨rfl, rfl, rfl, ?_, rfl⟩
        simp [BitVec.toNat_add]; omega

theorem playerSample_ok (lib : Lib) (D : Divisor) (p : Player) (h : bodyOk C D (.player p) = true) :
    bodyOk C D (.player (playerSample lib D p).2) = true := by
  have hr := playerSample_rule lib D p h
  unfold PlayerRule at hr
  split at hr
  · rw [hr.2]; exact h
  · obtain ⟨-, hb, hl, -, hj⟩ := hr
    simp only [bodyOk, Bool.and_eq_true, decide_eq_true_eq] at h ⊢
    rw [hb, hl]
    have := divisor_pos D
    split at hj
    · omega
    · rw [hj.2]; omega

theorem looperSlew_toNat (D : Divisor) (a t : Word) :
    ((looperSlew C D a t).toNat : Int) =
      if a.toNat < t.toNat then a.toNat + rshrRound ((t.toNat : Int) - a.toNat) (C.attShiftBase - D.log2)
      else if t.toNat < a.toNat then a.toNat + rshrRound ((t.toNat : Int) - a.toNat) (C.relShiftBase - D.log2)
      else a.toNat := by
  unfold looperSlew
  split
  · exact slew_toNat ..
  · split
    · exact slew_toNat ..
    · rfl

theorem looperSlew_between (D : Divisor) (a t : Word) :
    min a.toNat t.toNat ≤ (looperSlew C D a t).toNat ∧ (looperSlew C D a t).toNat ≤ max a.toNat t.toNat := by
  unfold looperSlew
  split
  · exact slew_between ..
  · split
    · exact slew_between ..
    · omega

theorem loopNext_toNat (len i : Word) (h : len ≠ 0#32) : (loopNext len i).toNat = (i.toNat + 1) % len.toNat := by
  have h0 : 0 < len.toNat := by
    rcases Nat.eq_zero_or_pos len.toNat with h0 | h0
    · exact absurd (BitVec.eq_of_toNat_eq (by simpa using h0)) h
    · exact h0
  have := Nat.mod_lt (i.toNat + 1) h0
  have := len.isLt
  simp [loopNext]; omega

theorem toNat_eq_zero_iff (w : Word) : w.toNat = 0 ↔ w = 0#32 := by
  constructor
  · intro h; exact BitVec.eq_of_toNat_eq (by simpa using h)
  · rintro rfl; rfl

theorem looperSample_rule (lib : Lib) (D : Divisor) (l : Looper) (h : bodyOk C D (.looper l) = true) :
    LooperRule C lib D l (looperSample C lib D l).1 (looperSample C lib D l).2 := by
  simp only [bodyOk, Bool.and_eq_true, decide_eq_true_eq] at h
  obtain ⟨⟨⟨⟨⟨h1, h2⟩, h3⟩, h4⟩, h5⟩, h6⟩ := h
  have hD := divisor_le D
  unfold LooperRule looperSample
  dsimp only
  refine ⟨?_, ?_⟩
  · by_cases hl : l.len = 0#32
    · simp [looperOut, hl]
    · rw [if_neg (by rwa [toNat_eq_zero_iff])]
      simp only [looperOut, if_neg hl, libValue, loopNext_toNat _ _ hl]
      exact scaled_output ..
  · by_cases hj : l.j.toNat + 1 = D.toNat
    · rw [if_pos hj, if_pos hj]
      refine ⟨rfl, rfl, rfl, rfl, rfl, rfl, ?_, looperSlew_toNat ..⟩
      by_cases hl : l.len = 0#32
      · simp [hl]
      · rw [if_neg (by rwa [toNat_eq_zero_iff]), if_neg hl, loopNext_toNat _ _ hl]
    · rw [if_neg hj, if_neg hj]
      refine ⟨rfl, rfl, rfl, rfl, rfl, ?_, rfl, rfl⟩
      simp [BitVec.toNat_add]; omega

theorem looperSample_ok (lib : Lib) (D : Divisor) (l : Looper) (h : bodyOk C D (.looper l) = true) :
    bodyOk C D (.looper (looperSample C lib D l).2) = true := by
  simp only [bodyOk, Bool.and_eq_true, decide_eq_true_eq] at h ⊢
  obtain ⟨⟨⟨⟨⟨h1, h2⟩, h3⟩, h4⟩, h5⟩, h6⟩ := h
  have hD := divisor_le D
  have hp := divisor_pos D
  have ht : l.target.toNat ≤ Config.ampHi := by
    simp only [Bool.or_eq_true, beq_iff_eq, Bool.and_eq_true, decide_eq_true_eq] at h5
    rcases h5 with h5 | h5
    · rw [h5]; decide
    · exact h5.2
  unfold looperSample
  by_cases hj : l.j.toNat + 1 = D.toNat
  · rw [if_pos hj]
    have hs := looperSlew_between (C := C) D l.amp l.target
    refine ⟨⟨⟨⟨⟨h1, ?_⟩, hp⟩, ?_⟩, h5⟩, h6⟩
    · dsimp only
      by_cases hl : l.len = 0#32
      · rw [if_pos hl]; exact h2
      · rw [if_neg hl, loopNext_toNat _ _ hl]
        have : 0 < l.len.toNat := by
          rcases Nat.eq_zero_or_pos l.len.toNat with h0 | h0
          · exact absurd ((toNat_eq_zero_iff _).1 h0) hl
          · exact h0
        have := Nat.mod_lt (l.idx.toNat + 1) this
        omega
    · dsimp only; omega
  · rw [if_neg hj]
    refine ⟨⟨⟨⟨⟨h1, h2⟩, ?_⟩, h4⟩, h5⟩, h6⟩
    simp [BitVec.toNat_add, -divisor_toNat_eq]; omega

theorem filterSample_rule (f : Filter) (x : Sample) : FilterRule f x (filterSample f x).1 (filterSample f x).2 := by
  simp [FilterRule, filterSample]

theorem delaySample_rule (d : Delay C) (x : Sample) : DelayRule d x (delaySample d x).1 (delaySample d x).2 := by
  have hw := d.wp.isLt
  have hL := C.tankLen_range
  have hmod (i : Nat) : tankRead C d.tank (i % C.tankLen) = tankRead C d.tank i := by simp [tankRead]
  refine ⟨?_, ?_, ?_, ?_, slew_toNat .., slew_toNat .., rfl, rfl⟩
  · simp [delaySample, delayTap, tapOf, hmod]
  · simp [delaySample, delayTap, tapOf, hmod]
  · intro j hj hne
    apply tankRead_write_other
    rw [Nat.mod_eq_of_lt hj, Nat.mod_eq_of_lt d.wp.isLt]
    exact hne
  · simp only [delaySample, prevSlot, Int.natCast_emod]
    rw [show ((d.wp.val + (C.tankLen - 1) : Nat) : Int) = (d.wp.val - 1) + C.tankLen by omega, Int.add_emod_right]

theorem delaySample_ok (D : Divisor) (d : Delay C) (x : Sample) (h : bodyOk C D (.delay d) = true) :
    bodyOk C D (.delay (delaySample d x).2) = true := by
  simp only [bodyOk, Bool.and_eq_true, decide_eq_true_eq] at h ⊢
  obtain ⟨⟨⟨⟨⟨⟨h1, h2⟩, h3⟩, h4⟩, h5⟩, h6⟩, h7⟩ := h
  have hd := slew_between d.dRun d.dTgt C.dlySlewShift
  have hf := slew_between d.fbRun d.fbTgt C.dlySlewShift
  refine ⟨⟨⟨⟨⟨⟨tankWrite_wf _ _ _ h1, h2⟩, h3⟩, ?_⟩, ?_⟩, h6⟩, ?_⟩ <;> simp only [delaySample] <;> omega

end Sys2Proof.Machine
end

