-- ==== Sys2Proof/Laws/Table.lean ====
section
/-!
SUPPORT. What produce can do to a well-formed node table, said once (41_delivery_engine R260, R264, R265; 10_state R69): it ends, gives
exactly n Samples, keeps the table well-formed, touches no node outside the subtree of the one it is called on, and keeps every node's
common fields.
-/

namespace Sys2Proof.Machine

variable {C : Config}

theorem nodesOk_iff (t : NodeTable C) :
    nodesOk t = true ↔ ∀ i : Fin C.nNodes, wiringOk i.val t[i.val] = true ∧ bodyOk C t[i.val].div t[i.val].body = true := by
  simp [nodesOk, List.all_eq_true]

/-- The common fields of a node: what no produce changes (R60, R69). -/
def sameCommon (a b : Node C) : Prop :=
  a.body.type = b.body.type ∧ a.div = b.div ∧ a.childA = b.childA ∧ a.childB = b.childB

theorem sameCommon_refl (a : Node C) : sameCommon a a := ⟨rfl, rfl, rfl, rfl⟩

theorem sameCommon_trans {a b c : Node C} (h : sameCommon a b) (h' : sameCommon b c) : sameCommon a c :=
  ⟨h.1.trans h'.1, h.2.1.trans h'.2.1, h.2.2.1.trans h'.2.2.1, h.2.2.2.trans h'.2.2.2⟩

/-- Replacing the fields of a node by fields of its own type that keep their bounds keeps the table well-formed. -/
theorem setBody_ok (t : NodeTable C) (i : Fin C.nNodes) (b : NodeBody C) (h : nodesOk t = true)
    (ht : b.type = t[i.val].body.type) (hb : bodyOk C t[i.val].div b = true) : nodesOk (setBody t i b) = true := by
  rw [nodesOk_iff] at h ⊢
  intro j
  by_cases hj : j = i
  · subst hj
    rw [setBody_get_same]
    refine ⟨?_, hb⟩
    have := (h j).1
    simpa [wiringOk, ht] using this
  · rw [setBody_get_other _ _ _ _ hj]; exact h j

theorem setBody_sameCommon (t : NodeTable C) (i j : Fin C.nNodes) (b : NodeBody C) (ht : b.type = t[i.val].body.type) :
    sameCommon (setBody t i b)[j.val] t[j.val] := by
  by_cases hj : j = i
  · subst hj; rw [setBody_get_same]; exact ⟨ht, rfl, rfl, rfl⟩
  · rw [setBody_get_other _ _ _ _ hj]; exact sameCommon_refl _

/-- A property the per-sample body keeps holds after the loop. -/
theorem runSamples_keeps {σ : Type} (P : σ → Prop) (body : σ → Sample × σ) (h : ∀ st, P st → P (body st).2) (n : Nat) (st : σ)
    (h0 : P st) : P (runSamples body n st).2 := by
  induction n generalizing st with
  | zero => exact h0
  | succ n ih => exact ih _ (h _ h0)

theorem mapSamples_keeps {σ : Type} (P : σ → Prop) (body : σ → Sample → Sample × σ) (h : ∀ st x, P st → P (body st x).2)
    (xs : List Sample) (st : σ) (h0 : P st) : P (mapSamples body xs st).2 := by
  induction xs generalizing st with
  | nil => exact h0
  | cons x xs ih => exact ih _ (h _ x h0)

/-- A used child of a well-formed node is a node of a greater index (R61). -/
theorem childAbove_idx (k : Nat) (hk : k < C.nNodes) (c : BitVec 8) (h : childAbove C (BitVec.ofNat 8 k) c = true) :
    ∃ j : Fin C.nNodes, c.toNat = j.val ∧ k < j.val := by
  simp only [childAbove, Bool.and_eq_true, decide_eq_true_eq, BitVec.toNat_ofNat] at h
  have := C.nNodes_range
  exact ⟨⟨c.toNat, h.2⟩, rfl, by rw [Nat.mod_eq_of_lt (by omega)] at h; exact h.1⟩

/-- The subtree of a node is the same in two tables whose nodes have the same common fields. -/
theorem InSubtree.of_common {t t' : NodeTable C} (h : ∀ j : Fin C.nNodes, sameCommon t'[j.val] t[j.val]) {i j : Fin C.nNodes}
    (hs : InSubtree t' i j) : InSubtree t i j := by
  induction hs with
  | self i => exact .self i
  | viaA i c j hty hc _ ih =>
    obtain ⟨h1, -, h2, -⟩ := h i
    exact .viaA i c j (by simpa [← h1] using hty) (by simpa [← h2] using hc) ih
  | viaB i c j hty hc _ ih =>
    obtain ⟨h1, -, -, h2⟩ := h i
    exact .viaB i c j (by simpa [← h1] using hty) (by simpa [← h2] using hc) ih

/-- A node of the subtree is not below the node, where every used child is above (R61). -/
theorem InSubtree.le {t : NodeTable C} (h : nodesOk t = true) {i j : Fin C.nNodes} (hs : InSubtree t i j) : i.val ≤ j.val := by
  induction hs with
  | self i => exact Nat.le_refl _
  | viaA i c j hty hc _ ih =>
    have hw := ((nodesOk_iff t).1 h i).1
    simp only [wiringOk, Bool.and_eq_true] at hw
    have hca : childAbove C (BitVec.ofNat 8 i.val) t[i.val].childA = true := by
      rcases hty with hty | hty | hty <;> simp only [Fin.getElem_fin] at hty <;> simp_all [childrenValid]
    obtain ⟨k, hk, hik⟩ := childAbove_idx i.val i.isLt _ hca
    simp only [Fin.getElem_fin] at hc
    omega
  | viaB i c j hty hc _ ih =>
    have hw := ((nodesOk_iff t).1 h i).1
    simp only [wiringOk, Bool.and_eq_true] at hw
    have hcb : childAbove C (BitVec.ofNat 8 i.val) t[i.val].childB = true := by
      simp only [Fin.getElem_fin] at hty; simp_all [childrenValid]
    obtain ⟨k, hk, hik⟩ := childAbove_idx i.val i.isLt _ hcb
    simp only [Fin.getElem_fin] at hc
    omega

/-- What a produce of node i on table t, at any depth that suffices, gives: Samples xs and table t'. -/
structure Produces (lib : Lib) (t : NodeTable C) (i : Fin C.nNodes) (n : Nat) (xs : List Sample) (t' : NodeTable C) : Prop where
  eq : ∀ (depth : Nat) (k : BitVec 8), k.toNat = i.val → C.nNodes ≤ depth + i.val → 0 < depth →
    produceAt lib depth k n t = .next (xs, t')
  length : xs.length = n
  ok : nodesOk t' = true
  outside : ∀ j : Fin C.nNodes, ¬ InSubtree t i j → t'[j.val] = t[j.val]
  common : ∀ j : Fin C.nNodes, sameCommon t'[j.val] t[j.val]

/-- No node below the one called is touched. -/
theorem Produces.below {lib : Lib} {t t' : NodeTable C} {i : Fin C.nNodes} {n : Nat} {xs : List Sample}
    (p : Produces lib t i n xs t') (h : nodesOk t = true) (j : Fin C.nNodes) (hj : j.val < i.val) : t'[j.val] = t[j.val] :=
  p.outside j fun hs => by have := hs.le h; omega

/-- A leaf's loop. -/
theorem produces_leaf (lib : Lib) (t : NodeTable C) (i : Fin C.nNodes) (n : Nat) (xs : List Sample) (b : NodeBody C)
    (h : nodesOk t = true) (ht : b.type = t[i.val].body.type) (hb : bodyOk C t[i.val].div b = true) (hl : xs.length = n)
    (he : ∀ (depth : Nat) (k : BitVec 8), k.toNat = i.val → produceAt lib (depth + 1) k n t = .next (xs, setBody t i b)) :
    Produces lib t i n xs (setBody t i b) where
  eq depth k hk _ hd := by
    obtain ⟨d, rfl⟩ := Nat.exists_eq_add_of_lt hd
    simpa [Nat.add_comm] using he d k hk
  length := hl
  ok := setBody_ok t i b h ht hb
  outside j hj := setBody_get_other t i j b (fun e => hj (by subst e; exact .self _))
  common j := setBody_sameCommon t i j b ht

theorem filterOk_keeps (D : Divisor) (f : Filter) (x : Sample) (h : bodyOk C D (.filter f) = true) :
    bodyOk C D (.filter (filterSample f x).2) = true := h

/-- Produce ends on every node of a well-formed table, with n Samples (R260, R264). -/
theorem produces_total (lib : Lib) (n : Nat) : ∀ (m : Nat) (i : Fin C.nNodes) (t : NodeTable C),
    C.nNodes ≤ m + i.val → nodesOk t = true → ∃ xs t', Produces lib t i n xs t' := by
  intro m
  induction m with
  | zero => intro i t hm; exact absurd i.isLt (by omega)
  | succ m ih =>
    intro i t hm h
    obtain ⟨hw, hb⟩ := (nodesOk_iff t).1 h i
    simp only [wiringOk, Bool.and_eq_true] at hw
    obtain ⟨-, hw⟩ := hw
    rcases hbody : t[i.val].body with _ | o | p | l | mx | f | d
    · refine ⟨List.replicate n 0#16, t, ?_, List.length_replicate, h, fun _ _ => rfl, fun _ => sameCommon_refl _⟩
      intro depth k hk _ hd
      obtain ⟨d, rfl⟩ := Nat.exists_eq_add_of_lt hd
      simpa [Nat.add_comm, silenceRun] using produceAt_silence lib d n k t i hk hbody
    · refine ⟨_, _, produces_leaf lib t i n _ (.osc (runSamples oscSample n o).2) h (by rw [hbody]; rfl) ?_
        (runSamples_length oscSample n o) fun d k hk => produceAt_osc lib d n k t i hk o hbody⟩
      refine runSamples_keeps (fun o => bodyOk C t[i.val].div (.osc o) = true) _ (fun o ho => ?_) n o (by rwa [hbody] at hb)
      simp only [bodyOk, decide_eq_true_eq, oscSample, BitVec.toNat_ofNat] at ho ⊢
      exact (Nat.mod_le _ _).trans (by omega)
    · rw [hbody] at hb
      have hlib : playerInLib C p = true := by
        simp only [bodyOk, Bool.and_eq_true] at hb
        exact hb.1.1
      exact ⟨_, _, produces_leaf lib t i n _ (.player (runSamples (playerSample lib t[i.val].div) n p).2) h (by rw [hbody]; rfl)
        (runSamples_keeps (fun p => bodyOk C t[i.val].div (.player p) = true) _ (fun p hp => playerSample_ok lib _ p hp) n p hb)
        (runSamples_length (playerSample lib t[i.val].div) n p) fun d k hk => produceAt_player lib d n k t i hk p hbody hlib⟩
    · rw [hbody] at hb
      have hlib : looperInLib C l = true := by
        simp only [bodyOk, Bool.and_eq_true, decide_eq_true_eq] at hb
        simp only [looperInLib, Bool.and_eq_true, decide_eq_true_eq, Bool.or_eq_true, beq_iff_eq]
        refine ⟨hb.1.1.1.1.1, ?_⟩
        by_cases hl : l.len = 0#32
        · exact .inl hl
        · rw [← toNat_eq_zero_iff] at hl
          exact .inr (by omega)
      exact ⟨_, _, produces_leaf lib t i n _ (.looper (runSamples (looperSample C lib t[i.val].div) n l).2) h (by rw [hbody]; rfl)
        (runSamples_keeps (fun l => bodyOk C t[i.val].div (.looper l) = true) _ (fun l hl => looperSample_ok lib _ l hl) n l hb)
        (runSamples_length (looperSample C lib t[i.val].div) n l) fun d k hk => produceAt_looper lib d n k t i hk l hbody hlib⟩
    · rw [hbody] at hw
      simp only [NodeBody.type, childrenValid, Bool.and_eq_true] at hw
      obtain ⟨ca, hca, hia⟩ := childAbove_idx i.val i.isLt _ hw.1
      obtain ⟨cb, hcb, hib⟩ := childAbove_idx i.val i.isLt _ hw.2
      obtain ⟨xa, ta, pa⟩ := ih ca t (by omega) h
      obtain ⟨xb, tb, pb⟩ := ih cb ta (by omega) pa.ok
      have hti : tb[i.val] = t[i.val] := (pb.below pa.ok i hib).trans (pa.below h i hia)
      refine ⟨mixSamples xa xb, setBody tb i (.mixer (fillScratch mx xb)), ?_, ?_, ?_, ?_, ?_⟩
      · intro depth k hk hd hd0
        obtain ⟨d, rfl⟩ := Nat.exists_eq_add_of_lt hd0
        rw [Nat.zero_add, produceAt_mixer lib d n k t i hk mx hbody,
          pa.eq d _ hca (by omega) (by have := ca.isLt; omega), andThen_next,
          pb.eq d _ hcb (by omega) (by have := cb.isLt; omega), andThen_next]
        rfl
      · simp [pa.length, pb.length]
      · exact setBody_ok _ _ _ pb.ok (by rw [hti, hbody]; simp only [NodeBody.type]) rfl
      · intro j hj
        rw [setBody_get_other _ _ _ _ (fun e => hj (by subst e; exact .self _)),
          pb.outside j (fun hs => hj (.viaB i cb j (by simp [hbody, NodeBody.type]) (by simpa using hcb) (hs.of_common pa.common))),
          pa.outside j (fun hs => hj (.viaA i ca j (by simp [hbody, NodeBody.type]) (by simpa using hca) hs))]
      · intro j
        exact sameCommon_trans (setBody_sameCommon _ _ _ _ (by rw [hti, hbody]; simp only [NodeBody.type])) (sameCommon_trans (pb.common j) (pa.common j))
    · rw [hbody] at hw hb
      simp only [NodeBody.type, childrenValid, Bool.and_eq_true] at hw
      obtain ⟨ca, hca, hia⟩ := childAbove_idx i.val i.isLt _ hw.1
      obtain ⟨xa, ta, pa⟩ := ih ca t (by omega) h
      have hti : ta[i.val] = t[i.val] := pa.below h i hia
      refine ⟨(mapSamples filterSample xa f).1, setBody ta i (.filter (mapSamples filterSample xa f).2), ?_, ?_, ?_, ?_, ?_⟩
      · intro depth k hk hd hd0
        obtain ⟨d, rfl⟩ := Nat.exists_eq_add_of_lt hd0
        rw [Nat.zero_add, produceAt_filter lib d n k t i hk f hbody,
          pa.eq d _ hca (by omega) (by have := ca.isLt; omega), andThen_next]
        rfl
      · simp [pa.length]
      · refine setBody_ok _ _ _ pa.ok (by rw [hti, hbody]; simp only [NodeBody.type]) ?_
        rw [hti]
        exact mapSamples_keeps (fun f => bodyOk C t[i.val].div (.filter f) = true) _ (fun f x hf => filterOk_keeps _ f x hf) xa f hb
      · intro j hj
        rw [setBody_get_other _ _ _ _ (fun e => hj (by subst e; exact .self _)),
          pa.outside j (fun hs => hj (.viaA i ca j (by simp [hbody, NodeBody.type]) (by simpa using hca) hs))]
      · intro j
        exact sameCommon_trans (setBody_sameCommon _ _ _ _ (by rw [hti, hbody]; simp only [NodeBody.type])) (pa.common j)
    · rw [hbody] at hw hb
      simp only [NodeBody.type, childrenValid, Bool.and_eq_true] at hw
      obtain ⟨ca, hca, hia⟩ := childAbove_idx i.val i.isLt _ hw.1
      obtain ⟨xa, ta, pa⟩ := ih ca t (by omega) h
      have hti : ta[i.val] = t[i.val] := pa.below h i hia
      refine ⟨(mapSamples delaySample xa d).1, setBody ta i (.delay (mapSamples delaySample xa d).2), ?_, ?_, ?_, ?_, ?_⟩
      · intro depth k hk hd hd0
        obtain ⟨e, rfl⟩ := Nat.exists_eq_add_of_lt hd0
        rw [Nat.zero_add, produceAt_delay lib e n k t i hk d hbody,
          pa.eq e _ hca (by omega) (by have := ca.isLt; omega), andThen_next]
        rfl
      · simp [pa.length]
      · refine setBody_ok _ _ _ pa.ok (by rw [hti, hbody]; simp only [NodeBody.type]) ?_
        rw [hti]
        exact mapSamples_keeps (fun d => bodyOk C t[i.val].div (.delay d) = true) _ (fun d x hd => delaySample_ok _ d x hd) xa d hb
      · intro j hj
        rw [setBody_get_other _ _ _ _ (fun e => hj (by subst e; exact .self _)),
          pa.outside j (fun hs => hj (.viaA i ca j (by simp [hbody, NodeBody.type]) (by simpa using hca) hs))]
      · intro j
        exact sameCommon_trans (setBody_sameCommon _ _ _ _ (by rw [hti, hbody]; simp only [NodeBody.type])) (pa.common j)

end Sys2Proof.Machine
end

