-- ==== Sys2Proof/Laws/Run.lean ====
section
/-!
SUPPORT. What an agent step can do, said once per function: what no instruction changes (10_state, 41_delivery_engine), and that the
watch of P_DEADLINE follows the machine (70_reset_and_hazards R621).
-/

namespace Sys2Proof.Machine

variable {C : Config}

/-- What an instruction may change: the node table, the root, its Samples and the error record, of whose sticky bits only CMD_ERR (R69,
R265, R507). Everything else, the delivery engine, the buffers, LIB and the host's registers among it, is as before. -/
structure InstrEffect (s t : State C) : Prop where
  frame : t = { s with
    nodes := t.nodes, rootIdx := t.rootIdx, dest := t.dest,
    sticky := t.sticky, errCode := t.errCode, errValid := t.errValid, errInfo := t.errInfo }
  sticky : ∀ b, b ≠ 2 → t.sticky.getLsbD b = s.sticky.getLsbD b

theorem InstrEffect.refl (s : State C) : InstrEffect s s := ⟨rfl, fun _ _ => rfl⟩

theorem InstrEffect.trans {s t u : State C} (h : InstrEffect s t) (h' : InstrEffect t u) : InstrEffect s u where
  frame := by rw [h'.frame, h.frame]
  sticky b hb := (h'.sticky b hb).trans (h.sticky b hb)

theorem setBody_effect (s : State C) (i : Fin C.nNodes) (b : NodeBody C) : InstrEffect s (s.setBody i b) :=
  ⟨rfl, fun _ _ => rfl⟩

/-- The bit of STATUS[8:3] an error does not set is as before (R501). -/
theorem recordError_getLsbD (e : ErrorCode) (info : Word) (s : State C) (b : Nat) (h : e.bit.index ≠ b + 3) :
    (recordError e info s).sticky.getLsbD b = s.sticky.getLsbD b := by
  cases e <;> simp only [recordError_sticky, BitVec.getLsbD_or, ErrorCode.bit, StatusBit.mask, StatusBit.index,
    BitVec.getLsbD_twoPow] at h ⊢ <;> simp <;> omega

theorem raiseCmd_effect {e : ErrorCode} {w : Word} {s t : State C} (he : e.bit = .cmdErr) (h : raiseCmd e w s = .next t) :
    InstrEffect s t := by
  cases h
  refine ⟨by rw [recordError_eq], fun b hb => recordError_getLsbD e w s b ?_⟩
  rw [he]
  simp only [StatusBit.index]
  omega

theorem onNode_effect {w : Word} {k : BitVec 8} {s t : State C} {f : Fin C.nNodes → Host.Outcome (State C) Fault Refusal}
    (hf : ∀ i, f i = .next t → InstrEffect s t) (h : onNode w k s f = .next t) : InstrEffect s t := by
  unfold onNode at h
  split at h
  · exact raiseCmd_effect rfl h
  · exact hf _ h

theorem produceOp_effect {ty : NodeType} {k : BitVec 8} {n : Nat} {s t : State C} (h : produceOp ty k n s = .next t) :
    InstrEffect s t := by
  rw [produceOp_next ty k n s t h]
  exact ⟨rfl, fun _ _ => rfl⟩

/-- Whatever the instruction, its effect stays within those fields. -/
theorem perform_effect {i : Instr} {s t : State C} (h : perform i s = .next t) : InstrEffect s t := by
  cases i with
  | nop => cases h; exact .refl _
  | produceSilence k n => exact produceOp_effect h
  | produceOsc k n => exact produceOp_effect h
  | producePlayer k n => exact produceOp_effect h
  | produceLooper k n => exact produceOp_effect h
  | produceMixer k n => exact produceOp_effect h
  | produceFilter k n => exact produceOp_effect h
  | produceDelay k n => exact produceOp_effect h
  | _ =>
    refine onNode_effect (fun i hi => ?_) h
    first
      | (cases hi; exact ⟨rfl, fun _ _ => rfl⟩)
      | (split at hi <;> first
          | exact raiseCmd_effect rfl hi
          | (cases hi; exact ⟨rfl, fun _ _ => rfl⟩)
          | (split at hi <;> first | exact raiseCmd_effect rfl hi | (cases hi; exact ⟨rfl, fun _ _ => rfl⟩)))

theorem applyCommand_effect {c : Command} {s t : State C} (h : applyCommand c s = .next t) : InstrEffect s t := by
  unfold applyCommand at h
  split at h
  · exact perform_effect h
  · rename_i e _
    exact raiseCmd_effect (by cases e <;> rfl) h

theorem applyAll_effect {cs : List Command} {s t : State C} (h : applyAll cs s = .next t) : InstrEffect s t := by
  induction cs generalizing s with
  | nil => cases h; exact .refl _
  | cons c cs ih =>
    obtain ⟨u, hu, ht⟩ := andThen_inv h
    exact (applyCommand_effect hu).trans (ih ht)

/-- Filling a buffer on a well-formed table ends: the root's Samples go to the buffer, the table stays well-formed (R254, R260). -/
theorem fillInto_total (x : BufId) (s : State C) (h : nodesOk s.nodes = true) :
    ∃ (xs : List Sample) (t' : NodeTable C), Produces s.lib s.nodes s.rootIdx C.bufLen xs t'
      ∧ fillInto x s = .next (storeDest x { s with nodes := t', dest := xs }) := by
  obtain ⟨xs, t', p⟩ := produces_total s.lib C.bufLen C.nNodes s.rootIdx s.nodes (by omega) h
  have hk := (nodeIdx?_eq_some _ _).1 (nodeIdx?_ofNat s.rootIdx)
  have hn : countOk C C.bufLen = true := by simp [countOk, C.bufLen_pos]
  refine ⟨xs, t', p, ?_⟩
  rw [fillInto, rootInstr, perform_ofType, Fin.getElem_fin, produceOp_of_type _ _ _ s s.rootIdx hk hn rfl,
    p.eq C.nNodes _ hk (by omega) C.nNodes_pos]
  rfl

/-! ### The watch of P_DEADLINE -/

/-- What one agent step does to the watched fields and to OVERRUN. -/
structure Watched (e : Event) (s t : State C) : Prop where
  watch : Watch.of t = (Watch.of s).next C e
  overrun : t.sticky.getLsbD 1 = true → s.sticky.getLsbD 1 = true ∨ (Watch.of s).missed C e = true

/-- The watched fields and the sticky bits are as before. -/
theorem InstrEffect.same {s t : State C} (h : InstrEffect s t) :
    Watch.of t = Watch.of s ∧ t.sticky.getLsbD 1 = s.sticky.getLsbD 1 := by
  refine ⟨?_, h.sticky 1 (by decide)⟩
  rw [h.frame]
  rfl

/-- Filling a buffer changes neither the watched fields nor OVERRUN (R254). -/
theorem fillInto_same {x : BufId} {s t : State C} (h : fillInto x s = .next t) :
    Watch.of t = Watch.of s ∧ t.sticky.getLsbD 1 = s.sticky.getLsbD 1 := by
  obtain ⟨u, hu, ht⟩ := andThen_inv h
  cases ht
  have := (perform_effect hu).same
  simpa [Watch.of] using this

theorem tickStep_watched (s : State C) : Watched .tick s (tickStep s) := by
  unfold tickStep
  split
  · rename_i h
    exact ⟨by simp [Watch.next, Watch.of, h], .inl⟩
  · rename_i h
    have hlt := s.drainIdx.isLt
    dsimp only
    split
    · rename_i h'
      exact ⟨by simp [Watch.next, Watch.of, h, Nat.ne_of_lt h'], .inl⟩
    · rename_i h'
      have he : s.drainIdx.val + 1 = C.bufLen := by omega
      refine ⟨by simp [Watch.next, Watch.of, h, he], fun ho => ?_⟩
      by_cases hf : s.fillReq = true
      · right; simp [Watch.missed, Watch.of, h, hf, he]
      · left
        simpa [drainComplete, hf, setSticky, StatusBit.mask, StatusBit.index] using ho

theorem fillStep_watched {s t : State C} (h : fillStep s = .next t) : Watched .fill s t := by
  unfold fillStep at h
  split at h
  · cases h
    rename_i hd
    refine ⟨?_, .inl⟩
    cases hr : s.running <;> simp_all [Watch.next, Watch.of]
  · rename_i hd
    obtain ⟨u, hu, h⟩ := andThen_inv h
    obtain ⟨v, hv, h⟩ := andThen_inv h
    cases h
    have h1 := (applyAll_effect hu).same
    have h2 := fillInto_same hv
    have hr : s.running = true := by simp_all
    refine ⟨?_, fun ho => .inl ?_⟩
    · show Watch.of v = _
      rw [h2.1]
      show Watch.of u = _
      rw [h1.1]
      simp [Watch.next, Watch.of, hr]
    · rw [← h1.2]
      exact h2.2 ▸ ho

/-- CTRL is reached by one access only (R112, R130). -/
theorem busTarget_eq_ctrl {addr : Word} {n : AccessSize} (h : busTarget C addr.toNat n.bytes = .reg .ctrl) :
    addr = 0x004#32 ∧ n = .b4 := by
  unfold busTarget at h
  split at h
  · split at h
    · cases h
    · rename_i hn
      split at h
      · rename_i r hr
        injection h with h
        subst h
        have hq : addr.toNat / 4 = 1 := by
          unfold regAt? at hr
          split at hr <;> first | assumption | (cases hr) | skip
          split at hr
          · split at hr <;> cases hr
          · split at hr
            · split at hr <;> cases hr
            · cases hr
        refine ⟨BitVec.eq_of_toNat_eq ?_, by cases n <;> simp_all [AccessSize.bytes]⟩
        show addr.toNat = 4
        omega
      · cases h
  · split at h
    · split at h <;> cases h
    · cases h

theorem startEngine_watch {s t : State C} (h : startEngine s = .next t) :
    Watch.of t =
        (if (Watch.of s).running = false ∧ (Watch.of s).ready = true then ⟨true, true, 0, false⟩ else Watch.of s)
      ∧ t.sticky.getLsbD 1 = s.sticky.getLsbD 1 := by
  unfold startEngine at h
  split at h
  · cases h
    rename_i hr
    simp [Watch.of, hr]
  · split at h
    · cases h
      rename_i hr hp
      exact ⟨by simp [Watch.of, hp], recordError_getLsbD _ _ _ 1 (by decide)⟩
    · rename_i hr hp
      obtain ⟨u, hu, h⟩ := andThen_inv h
      obtain ⟨v, hv, h⟩ := andThen_inv h
      cases h
      have h1 := fillInto_same hu
      have h2 := fillInto_same hv
      have hready : v.periphReady = true := by
        have := h2.1.trans h1.1
        simp only [Watch.of, Watch.mk.injEq] at this
        simp_all
      exact ⟨by simp_all [Watch.of], h2.2.trans h1.2⟩

theorem issue_same {w : Word} {s t : State C} (h : issue w s = .next t) :
    Watch.of t = Watch.of s ∧ t.sticky.getLsbD 1 = s.sticky.getLsbD 1 := by
  unfold issue at h
  dsimp only at h
  split at h
  · exact (applyCommand_effect h).same
  · split at h
    · cases h; exact ⟨rfl, rfl⟩
    · cases h; exact ⟨by simp [Watch.of], recordError_getLsbD _ _ _ 1 (by decide)⟩

/-- A rejected access records BUS_UNMAPPED or BUS_SIZE_ALIGN, never OVERRUN (R110, R112). -/
theorem busTarget_bad_index {addr n : Nat} {e : ErrorCode} (h : busTarget C addr n = .bad e) : e.bit.index ≠ 1 + 3 := by
  unfold busTarget at h
  split at h
  · split at h
    · cases h; decide
    · split at h
      · cases h
      · cases h; decide
  · split at h
    · split at h
      · cases h; decide
      · cases h
    · cases h; decide

/-- A write that does not reach CTRL is no START. -/
theorem Watch.next_of_other (w : Watch) {addr : Word} {n : AccessSize} (v : Word)
    (h : busTarget C addr.toNat n.bytes ≠ .reg .ctrl) : w.next C (.hostWrite addr n v) = w := by
  have hs : w.starts addr n v = false := by
    by_contra hc
    simp only [Watch.starts, Bool.not_eq_false, Bool.and_eq_true, beq_iff_eq] at hc
    obtain ⟨⟨⟨-, rfl⟩, rfl⟩, -⟩ := hc
    exact h busTarget_ctrl
  simp [Watch.next, hs]

theorem hostWrite_watched {addr : Word} {n : AccessSize} {v : Word} {s t : State C} (h : hostWrite addr n v s = .next t) :
    Watched (.hostWrite addr n v) s t := by
  have other (hb : busTarget C addr.toNat n.bytes ≠ .reg .ctrl)
      (hs : Watch.of t = Watch.of s ∧ (t.sticky.getLsbD 1 = true → s.sticky.getLsbD 1 = true)) :
      Watched (.hostWrite addr n v) s t := ⟨by rw [Watch.next_of_other _ _ hb, hs.1], fun ho => .inl (hs.2 ho)⟩
  unfold hostWrite at h
  split at h
  · rename_i r hr
    cases r with
    | ctrl =>
      obtain ⟨rfl, rfl⟩ := busTarget_eq_ctrl hr
      unfold writeReg at h
      dsimp only at h
      split at h
      · rename_i hv
        obtain ⟨h1, h2⟩ := startEngine_watch h
        refine ⟨?_, fun ho => .inl (h2 ▸ ho)⟩
        rw [h1]
        cases hr : s.running <;> cases hp : s.periphReady <;> simp [Watch.next, Watch.starts, Watch.of, hv, hr, hp]
      · rename_i hv
        cases h
        exact ⟨by simp only [Watch.next, Watch.starts, hv, Bool.and_false, Bool.false_eq_true, if_false], .inl⟩
    | cmdWord =>
      refine other (by rw [hr]; simp) ?_
      exact ⟨(issue_same h).1, fun ho => (issue_same h).2 ▸ ho⟩
    | status =>
      cases h
      refine other (by rw [hr]; simp) ⟨rfl, fun ho => ?_⟩
      rw [clearSticky_sticky, BitVec.getLsbD_and, Bool.and_eq_true] at ho
      exact ho.1
    | _ => cases h; exact other (by rw [hr]; simp) ⟨rfl, id⟩
  · rename_i a ha
    cases h
    exact other (by rw [ha]; simp) ⟨rfl, id⟩
  · rename_i e he
    cases h
    refine other (by rw [he]; simp) ⟨by simp [Watch.of], fun ho => ?_⟩
    rwa [recordError_getLsbD e addr s 1 (busTarget_bad_index he)] at ho

/-- The watch follows every agent step, and OVERRUN is set by a missed deadline only (R251, R252, R621). -/
theorem runEvent_watched {e : Event} {s t : State C} (h : runEvent e s = .next t) : Watched e s t := by
  cases e with
  | hostRead addr n =>
    cases h
    have hw : Watch.of (hostRead addr n s) = Watch.of s ∧
        ((hostRead addr n s).sticky.getLsbD 1 = true → s.sticky.getLsbD 1 = true) := by
      unfold hostRead
      split
      · exact ⟨rfl, id⟩
      · exact ⟨rfl, id⟩
      · rename_i e he
        refine ⟨by simp [Watch.of], fun ho => ?_⟩
        rwa [← recordError_getLsbD e addr s 1 (busTarget_bad_index he)]
    exact ⟨hw.1, fun ho => .inl (hw.2 ho)⟩
  | hostWrite addr n v => exact hostWrite_watched h
  | tick => cases h; exact tickStep_watched s
  | fill => exact fillStep_watched h
  | reset => cases h; exact ⟨rfl, fun ho => by simp [resetStep, State.resetOf] at ho⟩
  | periphReady level => cases h; exact ⟨rfl, .inl⟩

/-! ### Schedules and infinite runs -/

theorem deadlineMet_append (w : Watch) (es es' : List Event) :
    deadlineMet C w (es ++ es') = (deadlineMet C w es && deadlineMet C (es.foldl (Watch.next C) w) es') := by
  induction es generalizing w with
  | nil => rfl
  | cons e es ih => simp [deadlineMet, ih, Bool.and_assoc]

/-- A step of a run is the machine's own, and the watch follows it. -/
theorem IsRun.watched {ev : Nat → Event} {σ : Nat → State} (h : IsRun ev σ) (n : Nat) : Watched (ev n) (σ n) (σ (n + 1)) := by
  have := runEvent_watched ((step_cons { σ n with sched := [ev n] } (ev n) [] rfl).symm.trans (h.steps n))
  exact ⟨this.watch, this.overrun⟩

theorem IsRun.watch_eq {ev : Nat → Event} {σ : Nat → State} (h : IsRun ev σ) (n : Nat) :
    Watch.of (σ n) = ((List.range n).map ev).foldl (Watch.next Config.hardware) (Watch.of (σ 0)) := by
  induction n with
  | zero => rfl
  | succ n ih => rw [(h.watched n).watch, ih, List.range_succ, List.map_append, List.foldl_append]; rfl

/-- The agent that serves every request at once: FILL where one is pending, TICK where none is. -/
def promptEvent (s : State) : Event := if s.fillReq then .fill else .tick

/-- The run of that agent. -/
def promptRun (s : State) : Nat → State
  | 0 => s
  | n + 1 =>
    match step { promptRun s n with sched := [promptEvent (promptRun s n)] } with
    | .next t => t
    | .fault _ | .refused _ => promptRun s n

/-- Where a property holds that keeps the block running and its steps from stopping, that agent's run is a run, it is fair, and it
meets the deadline. -/
theorem promptRun_fair (J : State → Prop) (s : State) (h0 : J s) (hrun : ∀ s, J s → s.running = true)
    (hstep : ∀ s, J s → ∃ t, step { s with sched := [promptEvent s] } = .next t ∧ J t) :
    IsRun (fun n => promptEvent (promptRun s n)) (promptRun s) ∧ Fair (fun n => promptEvent (promptRun s n)) (promptRun s)
      ∧ RunMeetsDeadline (fun n => promptEvent (promptRun s n)) (promptRun s) := by
  have hJ (n : Nat) : J (promptRun s n) := by
    induction n with
    | zero => exact h0
    | succ n ih =>
      obtain ⟨t, ht, hj⟩ := hstep _ ih
      simpa [promptRun, ht] using hj
  have hisRun : IsRun (fun n => promptEvent (promptRun s n)) (promptRun s) := by
    refine ⟨fun n => ?_, fun n => ?_⟩
    · have := hrun _ (hJ n)
      unfold promptEvent
      split
      · exact ⟨this, ‹_›⟩
      · exact this
    · obtain ⟨t, ht, -⟩ := hstep _ (hJ n)
      simp [promptRun, ht]
  refine ⟨hisRun, ⟨fun n => ?_, fun n hn => ⟨n, Nat.le_refl n, ?_⟩⟩, fun n => ?_⟩
  · cases hf : (promptRun s n).fillReq with
    | false => exact ⟨n, Nat.le_refl n, by simp [promptEvent, hf]⟩
    | true =>
      refine ⟨n + 1, Nat.le_succ n, ?_⟩
      have hw := (hisRun.watched n).watch
      have hr := hrun _ (hJ n)
      simp only [promptEvent, hf, if_true, Watch.next, Watch.of, hr] at hw
      have hf' : (promptRun s (n + 1)).fillReq = false := (Watch.mk.inj hw).2.2.2
      simp [promptEvent, hf']
  · exact if_pos (hn n (Nat.le_refl n)).2
  · induction n with
    | zero => rfl
    | succ n ih =>
      rw [List.range_succ, List.map_append, deadlineMet_append, ih, ← hisRun.watch_eq n]
      cases hf : (promptRun s n).fillReq <;> simp [deadlineMet, Watch.missed, Watch.of, promptEvent, hf]

end Sys2Proof.Machine
end

