-- ==== Sys2Proof/Tests/Slice0.lean ====
section
/-!
SUPPORT. The model's own tests: the smoke test of WellFormed, words decoded bit by bit, at most two one-step tests per instruction with
results from 95_test_vectors, and a witness for the hypotheses of every obligation.
-/

namespace Sys2Proof.Tests

open Sys2Proof Sys2Proof.Machine
open Sys2Proof.Config (hardware)

-- One theorem after the other: many evaluations side by side need a thread each.
set_option Elab.async false

/-! ### Helpers -/

/-- A state with node i set. -/
def put (i : Fin hardware.nNodes) (n : Node) (s : State) : State := { s with nodes := s.nodes.set i n }

/-- Bytes listed from LIB address 0. -/
def lib4 (a b c d : Byte) (s : State) : State := { s with lib := [(0, a), (1, b), (2, c), (3, d)] }

/-- What an outcome's next state shows. -/
def seen {α : Type} (o : Host.Outcome State Fault Refusal) (f : State → α) : Option α :=
  match o with
  | .next t => some (f t)
  | .fault _ | .refused _ => none

/-- The first m Samples of the last produce, as integers. -/
def firsts (m : Nat) (t : State) : List Int := (t.dest.take m).map BitVec.toInt

/-- The error record: STATUS sticky bits, code, information word. -/
def record (t : State) : BitVec 6 × BitVec 8 × Word := (t.sticky, t.errCode, t.errInfo)

def leaf (d : Divisor) (b : NodeBody) : Node := ⟨d, 0#8, 0#8, b⟩

def oscNode : Node := leaf .one (.osc ⟨0#32, 0#32, 0#32, 0#32⟩)

def playerNode (d : Divisor) (len idx amp : Word) : Node := leaf d (.player ⟨0#32, len, idx, 0#2, amp⟩)

def looperNode (d : Divisor) (len amp target : Word) (gated : Bool) : Node :=
  leaf d (.looper ⟨0#32, len, 0#32, 0#2, amp, target, gated, 0x8000#16⟩)

def filterNode (f q : Half) (fb : Word) : Node := ⟨.one, 2#8, 0#8, .filter ⟨f, q, fb, 0#32, 0#32⟩⟩

def delayNode : Node := ⟨.one, 2#8, 0#8, initialBody .delay⟩

def oscS : State := put 1 oscNode State.reset
def playS : State := put 1 (playerNode .two 2#32 0#32 0x40000000#32) (lib4 0x40#8 0xC0#8 0#8 0#8 State.reset)
def loopS : State := put 1 (looperNode .one 4#32 0#32 966367642#32 true) (lib4 0x40#8 0x40#8 0x40#8 0x40#8 State.reset)
def quietLoopS : State := put 1 (looperNode .one 4#32 0#32 0#32 false) (lib4 0x40#8 0x20#8 0xC0#8 0#8 State.reset)

/-- A player on node 2 under a node 1 of the kind given. -/
def overS (n : Node) : State :=
  put 1 n (put 2 (playerNode .one 4#32 0#32 0x40000000#32) (lib4 0x40#8 0#8 0#8 0#8 State.reset))

def mixS : State :=
  put 1 ⟨.one, 2#8, 3#8, initialBody .mixer⟩ (put 2 (playerNode .one 4#32 0#32 0xFFFFFFFF#32)
    (put 3 (playerNode .one 4#32 0#32 0xFFFFFFFF#32) (lib4 0x7F#8 0x80#8 0x40#8 0#8 State.reset)))

def filterS : State := overS (filterNode 8192#16 8192#16 24576#32)
def delayS : State := overS delayNode
def runS : State := { State.reset with running := true }

/-! ### WellFormed: an ill-formed term for each check -/

theorem test_wf_node_range : (Instr.install 16#8).wellFormed hardware = false := by decide
theorem test_wf_type_code : (Instr.cfgNode 1#8 7#4 0#2 0#8 0#8).wellFormed hardware = false := by decide
theorem test_wf_divisor_code : (Instr.cfgNode 1#8 2#4 3#2 0#8 0#8).wellFormed hardware = false := by decide
theorem test_wf_divisor_of_osc : (Instr.cfgNode 1#8 1#4 1#2 0#8 0#8).wellFormed hardware = false := by decide
theorem test_wf_mixer_child_not_above : (Instr.cfgNode 2#8 4#4 0#2 1#8 3#8).wellFormed hardware = false := by decide
theorem test_wf_mixer_child_outside : (Instr.cfgNode 1#8 4#4 0#2 2#8 16#8).wellFormed hardware = false := by decide
theorem test_wf_filter_second_child : (Instr.cfgNode 1#8 5#4 0#2 2#8 3#8).wellFormed hardware = false := by decide
theorem test_wf_leaf_child : (Instr.cfgNode 1#8 1#4 0#2 2#8 0#8).wellFormed hardware = false := by decide
theorem test_wf_load_range : (Instr.smpLoad 1#8 0x000FFFFF#32 2#32).wellFormed hardware = false := by decide
theorem test_wf_load_last_bytes : (Instr.smpLoad 1#8 0x000FFFFE#32 2#32).wellFormed hardware = true := by decide
theorem test_wf_count_zero : (Instr.produceOsc 1#8 0).wellFormed hardware = false := by decide
theorem test_wf_count_above : (Instr.produceOsc 1#8 97).wellFormed hardware = false := by decide
theorem test_wf_count_node : (Instr.produceOsc 16#8 96).wellFormed hardware = false := by decide
theorem test_wf_accepts : (Instr.cfgNode 1#8 4#4 0#2 2#8 3#8).wellFormed hardware = true := by decide

/-! ### Decoding: words written out from 30_encoding R140 to R146, bits 31..16 RSVD, 15..8 NODE, 7..0 OPC -/

theorem test_decode_nop : decode ⟨0b0000000000000000_00000000_00000000#32, 5#32, 6#32⟩ = .ok .nop := by decide
theorem test_decode_cfgNode :
    decode ⟨0b0000000000000000_00000010_00000001#32, 0b00000000000000000000000000_10_0011#32, 0#32⟩
      = .ok (.cfgNode 2#8 3#4 2#2 0#8 0#8) := by decide
theorem test_decode_cfgNode_children :
    decode ⟨0b0000000000000000_00000001_00000001#32, 0b0100#32, 0b0000000000000000_00000011_00000010#32⟩
      = .ok (.cfgNode 1#8 4#4 0#2 2#8 3#8) := by decide
theorem test_decode_install : decode ⟨0b0000000000000000_00000011_00000010#32, 5#32, 6#32⟩ = .ok (.install 3#8) := by decide
theorem test_decode_oscNote :
    decode ⟨0b0000000000000000_00000001_00000011#32, 0x02AAAAAB#32, 0x60#32⟩ = .ok (.oscNote 1#8 0x02AAAAAB#32 96#32) := by
  decide
theorem test_decode_smpLoad :
    decode ⟨0b0000000000000000_00000001_00000100#32, 0x100#32, 2#32⟩ = .ok (.smpLoad 1#8 0x100#32 2#32) := by decide
theorem test_decode_smpPlay :
    decode ⟨0b0000000000000000_00000001_00000101#32, 0x40000000#32, 6#32⟩ = .ok (.smpPlay 1#8 0x40000000#32) := by decide
theorem test_decode_loopSetpos :
    decode ⟨0b0000000000000000_00000010_00000110#32, 0b0000000000000000_1000000000000000#32, 6#32⟩
      = .ok (.loopSetpos 2#8 0x8000#16) := by decide
theorem test_decode_loopGate :
    decode ⟨0b0000000000000000_00000010_00000111#32, 0b0000000001100100_0000000100101100#32,
        0b0000000110010000_0000000011001000#32⟩ = .ok (.loopGate 2#8 300#16 100#16 200#16 400#16) := by decide
theorem test_decode_fltSet :
    decode ⟨0b0000000000000000_00000011_00001000#32, 0x2000#32, 0x1000#32⟩ = .ok (.fltSet 3#8 8192#16 4096#16) := by decide
theorem test_decode_dlySetDelay :
    decode ⟨0b0000000000000000_00000100_00001001#32, 0x00030000#32, 6#32⟩ = .ok (.dlySetDelay 4#8 0x00030000#32) := by decide
theorem test_decode_dlySetFeedback :
    decode ⟨0b0000000000000000_00000100_00001010#32, 0x4000#32, 6#32⟩ = .ok (.dlySetFeedback 4#8 16384#16) := by decide
theorem test_decode_node_types :
    [0, 1, 2, 3, 4, 5, 6, 7].map (decodeTableWord 8) =
      [some (.produceSilence 0#8 96), some (.produceOsc 0#8 96), some (.producePlayer 0#8 96), some (.produceLooper 0#8 96),
        some (.produceMixer 0#8 96), some (.produceFilter 0#8 96), some (.produceDelay 0#8 96), none] := by decide
theorem test_decode_reserved_opcode : decode ⟨0x00FF00FF#32, 0#32, 0#32⟩ = .error .reservedOpcode := by decide
theorem test_decode_reserved_word_bits : decode ⟨0x00010003#32, 0#32, 0#32⟩ = .error .reservedBits := by decide
theorem test_decode_nop_with_node : decode ⟨0x00000100#32, 0#32, 0#32⟩ = .error .reservedBits := by decide
theorem test_decode_reserved_type_bit : decode ⟨0x00000101#32, 0x41#32, 0#32⟩ = .error .reservedBits := by decide
theorem test_decode_reserved_fb_bits : decode ⟨0x0000010A#32, 0x00010000#32, 0#32⟩ = .error .reservedBits := by decide
theorem test_decode_table_row :
    decodeTableWord 96 (0x00000103 + 0x02AAAAAB * 2 ^ 32 + 96 * 2 ^ 64) = some (.oscNote 1#8 0x02AAAAAB#32 96#32) := by decide

/-! ### The commands (95_test_vectors V11, V31, V32, V40, V57, V58, V93; R402) -/

theorem test_nop : seen (exec .nop oscS) record = some (0#6, 0#8, 0#32) := by decide
theorem test_nop_with_node :
    seen (applyCommand ⟨0x00000100#32, 0#32, 0#32⟩ State.reset) record = some (4#6, 0x02#8, 0x00000100#32) := by decide +kernel
theorem test_cfgNode_mixer :
    seen (exec (.cfgNode 1#8 4#4 0#2 2#8 3#8) State.reset) (fun t => (t.nodes[1].childA, t.nodes[1].childB, t.nodes[1].body.type))
      = some (2#8, 3#8, .mixer) := by decide +kernel
theorem test_cfgNode_bad_child :
    seen (exec (.cfgNode 15#8 5#4 0#2 0#8 0#8) State.reset) record = some (4#6, 0x06#8, 0x00000F01#32) := by decide +kernel
theorem test_install : seen (exec (.install 15#8) State.reset) (·.rootIdx.val) = some 15 := by decide +kernel
theorem test_install_range : seen (exec (.install 16#8) State.reset) record = some (4#6, 0x03#8, 0x00001002#32) := by
  decide +kernel
theorem test_oscNote :
    seen (exec (.oscNote 1#8 0x02AAAAAB#32 96#32) oscS) (fun t => t.nodes[1].body)
      = some (.osc ⟨0x40000000#32, 0x02AAAAAB#32, 0x40000000#32, 11184811#32⟩) := by decide +kernel
theorem test_oscNote_zero_duration :
    seen (exec (.oscNote 1#8 7#32 0#32) oscS) (fun t => t.nodes[1].body)
      = some (.osc ⟨0x40000000#32, 7#32, 0x40000000#32, 0x40000000#32⟩) := by decide +kernel
theorem test_smpLoad :
    seen (exec (.smpLoad 1#8 0x100#32 2#32) playS) (fun t => t.nodes[1].body)
      = some (.player ⟨0x100#32, 2#32, 2#32, 0#2, 0x40000000#32⟩) := by decide +kernel
theorem test_smpLoad_range :
    seen (exec (.smpLoad 1#8 0x000FFFFF#32 2#32) playS) record = some (4#6, 0x07#8, 0x00000104#32) := by decide +kernel
theorem test_smpPlay :
    seen (exec (.smpPlay 1#8 5#32) (put 1 (playerNode .two 2#32 2#32 0#32) State.reset)) (fun t => t.nodes[1].body)
      = some (.player ⟨0#32, 2#32, 0#32, 0#2, 5#32⟩) := by decide +kernel
theorem test_smpPlay_looper : seen (exec (.smpPlay 1#8 1#32) loopS) record = some (4#6, 0x04#8, 0x00000105#32) := by
  decide +kernel
theorem test_loopSetpos :
    seen (exec (.loopSetpos 1#8 0x1234#16) quietLoopS) (fun t => t.nodes[1].body)
      = some (.looper ⟨0#32, 4#32, 0#32, 0#2, 0#32, 0#32, false, 0x1234#16⟩) := by decide +kernel
theorem test_loopGate_strike :
    seen (exec (.loopGate 1#8 300#16 100#16 200#16 400#16) quietLoopS) (fun t => t.nodes[1].body)
      = some (.looper ⟨0#32, 4#32, 2#32, 0#2, 0#32, 751619277#32, true, 0x8000#16⟩) := by decide +kernel
theorem test_loopGate_empty_range :
    seen (exec (.loopGate 1#8 5#16 0#16 7#16 3#16) loopS) (fun t => t.nodes[1].body)
      = some (.looper ⟨0#32, 4#32, 0#32, 0#2, 0#32, 966367642#32, true, 0x8000#16⟩) := by decide +kernel
theorem test_fltSet_negative :
    seen (exec (.fltSet 1#8 40000#16 20000#16) filterS) (fun t => t.nodes[1].body)
      = some (.filter ⟨23170#16, 16383#16, BitVec.ofInt 32 (-23171), 0#32, 0#32⟩) := by decide +kernel
theorem test_fltSet_at_one :
    seen (exec (.fltSet 1#8 16384#16 8192#16) filterS) (fun t => t.nodes[1].body)
      = some (.filter ⟨16384#16, 8192#16, 134225920#32, 0#32, 0#32⟩) := by decide +kernel
theorem test_dlySetDelay_high :
    seen (exec (.dlySetDelay 1#8 0xFFFFFFFF#32) delayS) (fun t => t.nodes[1].body)
      = some (.delay ⟨[], 0, 0x1FFEFFFF#32, 0x00010000#32, 0#32, 0#32⟩) := by decide +kernel
theorem test_dlySetDelay_low :
    seen (exec (.dlySetDelay 1#8 0#32) delayS) (fun t => t.nodes[1].body)
      = some (.delay ⟨[], 0, 0x00010000#32, 0x00010000#32, 0#32, 0#32⟩) := by decide +kernel
theorem test_dlySetFeedback :
    seen (exec (.dlySetFeedback 1#8 0xFFFF#16) delayS) (fun t => t.nodes[1].body)
      = some (.delay ⟨[], 0, 0x00010000#32, 0x00010000#32, 1068367872#32, 0#32⟩) := by decide +kernel

/-! ### Produce (95_test_vectors V31, V40, V41, V56, V71, V86, V90) -/

theorem test_silence : seen (exec (.produceSilence 5#8 3) State.reset) (firsts 9) = some [0, 0, 0] := by decide +kernel
theorem test_osc :
    seen (exec (.produceOsc 1#8 8) (put 1 (leaf .one (.osc (noteOsc 0x02AAAAAB#32 96#32))) State.reset)) (firsts 8)
      = some [0, 337, 669, 992, 1308, 1618, 1920, 2215] := by decide +kernel
theorem test_player : seen (exec (.producePlayer 1#8 6) playS) (firsts 6) = some [4096, 0, -4096, -2048, 0, 0] := by
  decide +kernel
theorem test_player_four :
    seen (exec (.producePlayer 1#8 10)
      (put 1 (playerNode .four 2#32 0#32 0x40000000#32) (lib4 0x40#8 0xC0#8 0#8 0#8 State.reset))) (firsts 10)
      = some [4096, 2048, 0, -2048, -4096, -3072, -2048, -1024, 0, 0] := by decide +kernel
theorem test_looper : seen (exec (.produceLooper 1#8 5) loopS) (firsts 5) = some [0, 58, 114, 170, 225] := by decide +kernel
theorem test_looper_wraps :
    seen (exec (.produceLooper 1#8 5) loopS) (fun t => match t.nodes[1].body with | .looper l => l.idx.toNat | _ => 99)
      = some 1 := by decide +kernel
theorem test_mixer_saturates : seen (exec (.produceMixer 1#8 6) mixS) (firsts 6) = some [32767, -32768, 32767, 0, 0, 0] := by
  decide +kernel
theorem test_filter :
    seen (exec (.produceFilter 1#8 7) filterS) (firsts 7) = some [1024, 1408, 1296, 902, 430, 28, -231] := by decide +kernel
theorem test_delay : seen (exec (.produceDelay 1#8 4) delayS) (firsts 4) = some [4096, 4096, 0, 0] := by decide +kernel
theorem test_produce_mismatch : exec (.produceOsc 1#8 4) delayS = .refused .produceTypeMismatch := rfl

/-! ### Agent steps (95_test_vectors V12, V20, V25, V28) -/

theorem test_read_param3 :
    seen (step { State.reset with sched := [.hostRead 0x034#32 .b4] }) (·.busData) = some 0x05C6100A#32 := by decide +kernel
theorem test_write_lib_little_endian :
    seen (step { State.reset with sched := [.hostWrite 0x001FFFFC#32 .b4 0x01020304#32] }) (·.lib)
      = some [(0xFFFFC, 4#8), (0xFFFFD, 3#8), (0xFFFFE, 2#8), (0xFFFFF, 1#8)] := by decide +kernel
theorem test_read_crossing_the_top :
    seen (step { State.reset with sched := [.hostRead 0x00000FFE#32 .b4] }) record = some (16#6, 0x20#8, 0x00000FFE#32) := by
  decide +kernel
theorem test_start_not_ready :
    seen (step { State.reset with periphReady := false, sched := [.hostWrite 0x004#32 .b4 1#32] }) (fun t => (statusWord t, t.errCode))
      = some (0x00000100#32, 0x30#8) := by decide +kernel
theorem test_start :
    seen (step { State.reset with sched := [.hostWrite 0x004#32 .b4 1#32] }) (fun t => (statusWord t, t.bufB[95]))
      = some (0x00000201#32, 512#10) := by decide +kernel
theorem test_tick_overrun :
    seen (step { runS with sched := [.tick], drainIdx := 95, fillReq := true, inflight := .B, completions := 1#32, sticky := 1#6 })
      (fun t => (statusWord t, t.errCode, t.errInfo)) = some (0x0000021D#32, 0x40#8, 2#32) := by decide +kernel
theorem test_fifo_overflow :
    seen (step { runS with
      sched := [.hostWrite 0x048#32 .b4 0x00000302#32], fifo := List.replicate 16 ⟨0#32, 0#32, 0#32⟩ })
      (fun t => (statusWord t, t.errInfo)) = some (0x00100241#32, 0x00000302#32) := by decide +kernel

/-! ### Other instances (00_scope R10): the ends of the ranges -/

/-- Every parameter at the lower end of its range. -/
abbrev smallest : Config where
  sampleRate := 1
  bufLen := 1
  dacBits := 1
  nNodes := 1
  libBytes := 1
  tankLen := 4
  fifoDepth := 1
  attShiftBase := 2
  relShiftBase := 2
  dlySlewShift := 1
  sampleRate_range := by decide
  bufLen_range := by decide
  dacBits_range := by decide
  nNodes_range := by decide
  libBytes_range := by decide
  tankLen_range := by decide
  fifoDepth_range := by decide
  attShiftBase_range := by decide
  relShiftBase_range := by decide
  dlySlewShift_range := by decide

/-- Every parameter at the upper end of its range, SAMPLE_RATE the greatest PARAM4 can show. -/
abbrev largest : Config where
  sampleRate := 4294967295
  bufLen := 255
  dacBits := 14
  nNodes := 256
  libBytes := 1048576
  tankLen := 65536
  fifoDepth := 255
  attShiftBase := 15
  relShiftBase := 15
  dlySlewShift := 15
  sampleRate_range := by decide
  bufLen_range := by decide
  dacBits_range := by decide
  nNodes_range := by decide
  libBytes_range := by decide
  tankLen_range := by decide
  fifoDepth_range := by decide
  attShiftBase_range := by decide
  relShiftBase_range := by decide
  dlySlewShift_range := by decide

/-- With BUF_LEN = 1 every TICK completes a drain (R251); the one-bit code of a zero signal is 1 (R220). -/
theorem test_smallest_tick :
    (match stepOf { State.resetOf smallest with running := true, sched := [.tick] } with
      | .next t => some (t.completions, t.fillReq, t.inflight, t.dacWord)
      | .fault _ | .refused _ => none) = some (1#32, true, .B, 1#1) := by decide +kernel

/-- PARAM3 of the greatest instance (R55): [27:24] = 15, [23:20] = 15, [19:16] = 15, [15:8] = 255, [7:0] = 14. -/
theorem test_largest_param3 :
    (match stepOf { State.resetOf largest with sched := [.hostRead 0x034#32 .b4] } with
      | .next t => some t.busData
      | .fault _ | .refused _ => none) = some 0x0FFFFF0E#32 := by decide +kernel

/-! ### The host's side (95_test_vectors V10, V35, V96; R318) -/

theorem test_assemble_drops_ignored_words :
    assemble (.smpPlay 1#8 0x40000000#32) = [w32 0x040#32 0x40000000#32, w32 0x048#32 0x00000105#32] := by decide
theorem test_cfg_looper :
    asmCfg 2#8 .looper .four 0#8 0#8 = [w32 0x040#32 0x23#32, w32 0x044#32 0#32, w32 0x048#32 0x00000201#32] := by decide
theorem test_driver_inc : driverInc hardware 440 = 39370534#32 := by decide +kernel
theorem test_driver_dur : driverDur hardware (1 / 10) = 4800 := by decide +kernel
theorem test_driver_fb : driverFb 2 = 65535 := by decide +kernel

/-! ### Witnesses: states and operands that meet the hypotheses of each obligation, clause by clause, at boundary values -/

/-- Commands that meet the hypotheses of the checks before a command's effect: one with a reserved bit set, one with NODE =
N_NODES, and one whose node 1 has a type the command does not take. -/
abbrev meetsChecks (opc : BitVec 8) (mask0 mask1 : Word) (types : List NodeType) (s : State) (bad far wrong : Command) : Prop :=
  (opcOf bad.word = opc ∧ ¬ reservedClear mask0 mask1 bad)
  ∧ (opcOf far.word = opc ∧ reservedClear mask0 mask1 far ∧ hardware.nNodes ≤ (nodeOf far.word).toNat)
  ∧ (opcOf wrong.word = opc ∧ reservedClear mask0 mask1 wrong ∧ (nodeOf wrong.word).toNat = (1 : Fin hardware.nNodes).val
      ∧ s.nodes[(1 : Fin hardware.nNodes)].body.type ∉ types)

/-- The state whose next entry is e. -/
def upNext (e : Event) (s : State) : State := { s with sched := e :: s.sched }

/-- A running block whose FIFO is empty and whose node table is well-formed: what the prompt agent's run keeps. -/
def quiet (s : State) : Prop := s.running = true ∧ s.fifo = [] ∧ nodesOk s.nodes = true

theorem quiet_step (s : State) (h : quiet s) : ∃ t, step { s with sched := [promptEvent s] } = .next t ∧ quiet t := by
  obtain ⟨hr, hf, hn⟩ := h
  rw [step_cons _ (promptEvent s) [] rfl]
  unfold promptEvent
  split
  · rename_i hq
    obtain ⟨xs, t', p, hp⟩ := fillInto_total s.inflight.other { s with sched := [], fillReq := false, fifo := [] } hn
    refine ⟨{ storeDest s.inflight.other { s with sched := [], fillReq := false, fifo := [], nodes := t', dest := xs } with
      fillCycles := Config.fillCycles s.fillDraws, fillDraws := s.fillDraws + 1 }, ?_, ?_⟩
    · have hd : ¬ (s.running = false ∨ s.fillReq = false) := by simp [hr, hq]
      simp only [runEvent, fillStep, if_neg hd, hf, applyAll, andThen_next, hp]
      simp
    · exact ⟨by simpa using hr, by simp, by simpa using p.ok⟩
  · refine ⟨tickStep { s with sched := [] }, rfl, ?_⟩
    unfold tickStep
    rw [if_neg (by simp [hr])]
    dsimp only
    split
    · exact ⟨hr, hf, hn⟩
    · exact ⟨by simpa using hr, by simpa using hf, by simpa using hn⟩

/-- The run of the prompt agent from a quiet state is fair and meets the deadline. -/
theorem quietRun_fair (s : State) (h : quiet s) :
    IsRun (fun n => promptEvent (promptRun s n)) (promptRun s) ∧ Fair (fun n => promptEvent (promptRun s n)) (promptRun s)
      ∧ RunMeetsDeadline (fun n => promptEvent (promptRun s n)) (promptRun s) :=
  promptRun_fair quiet s h (fun _ h => h.1) quiet_step

/-- The block right after START plays the silent root. -/
theorem runS_quiet : quiet runS := by
  refine ⟨rfl, rfl, ?_⟩
  decide +kernel

/-- The same with a request pending. -/
theorem owedS_quiet : quiet { runS with fillReq := true } := ⟨rfl, rfl, runS_quiet.2.2⟩

theorem witness_DecodedCommandReencodes : decode ⟨0x00000105#32, 0x40000000#32, 9#32⟩ = .ok (.smpPlay 1#8 0x40000000#32) := by
  decide

theorem witness_ReservedOpcodesAreRejected : 0x0B ≤ (opcOf 0x0000000B#32).toNat := by decide

theorem witness_StepRunsTheDecodedInstruction :
    ((upNext (.hostWrite 0x048#32 .b4 0x00000302#32) State.reset).sched = .hostWrite 0x048#32 .b4 0x00000302#32 :: []
      ∧ State.reset.running = false ∧ decode ⟨0x00000302#32, State.reset.cmdArg0, State.reset.cmdArg1⟩ = .ok (.install 3#8))
    ∧ (let s := upNext .fill { runS with fillReq := true }
       s.sched = .fill :: [] ∧ s.running = true ∧ s.fillReq = true ∧ s.fifo = []
        ∧ decodeCall ⟨s.nodes[s.rootIdx].body.type.code, BitVec.ofNat 8 s.rootIdx.val, 96⟩ = .ok (.produceSilence 0#8 96))
    ∧ encode (.install 3#8) = .command ⟨0x00000302#32, 0#32, 0#32⟩ := by decide +kernel

theorem witness_NopHasNoEffect :
    (opcOf 0x00000000#32 = 0x00#8 ∧ (0x00000000#32).extractLsb' 8 24 = 0#24)
    ∧ (opcOf 0x00000100#32 = 0x00#8 ∧ (0x00000100#32).extractLsb' 8 24 ≠ 0#24)
    ∧ (let s := upNext (.hostWrite 0x048#32 .b4 0#32) { runS with fifo := List.replicate 15 ⟨0#32, 0#32, 0#32⟩ }
       s.sched = .hostWrite 0x048#32 .b4 0#32 :: [] ∧ s.running = true ∧ s.fifo.length < 16)
    ∧ (let s := upNext .fill { runS with fillReq := true, fifo := [⟨0#32, 0#32, 0#32⟩] }
       s.sched = .fill :: [] ∧ s.running = true ∧ s.fillReq = true ∧ seen (step s) (·.fifo) = some []) := by decide +kernel

theorem witness_CfgNodeConstructsTheNode :
    meetsChecks 0x01#8 0xFFFFFFC0#32 0xFFFF0000#32 [] State.reset ⟨0x00000101#32, 0x40#32, 0#32⟩ ⟨0x00001001#32, 0#32, 0#32⟩
      ⟨0x00000101#32, 0#32, 0#32⟩
    ∧ (1#8).toNat = (1 : Fin hardware.nNodes).val
    ∧ seen (exec (.cfgNode 1#8 7#4 0#2 0#8 0#8) State.reset) (·.errCode) = some 0x05#8
    ∧ seen (exec (.cfgNode 1#8 0#4 3#2 0#8 0#8) State.reset) (·.errCode) = some 0x05#8
    ∧ seen (exec (.cfgNode 1#8 6#4 0#2 1#8 0#8) State.reset) (·.errCode) = some 0x06#8
    ∧ seen (exec (.cfgNode 1#8 6#4 0#2 15#8 0#8) State.reset) (fun t => (t.errCode, t.nodes[1].body.type)) = some (0#8, .delay) := by
  decide +kernel

theorem witness_InstallSetsTheRoot :
    meetsChecks 0x02#8 0#32 0#32 [] State.reset ⟨0x00010002#32, 0#32, 0#32⟩ ⟨0x00001002#32, 0#32, 0#32⟩ ⟨0x00000102#32, 0#32, 0#32⟩
    ∧ (15#8).toNat = (15 : Fin hardware.nNodes).val
    ∧ (let s := upNext (.hostWrite 0x048#32 .b4 0x00000F02#32) { runS with fifo := List.replicate 15 ⟨0#32, 0#32, 0#32⟩ }
       s.sched = .hostWrite 0x048#32 .b4 0x00000F02#32 :: [] ∧ s.running = true ∧ s.fifo.length < 16
        ∧ 0x00000F02#32 = cmdWord 0x02#8 15#8)
    ∧ (let s := upNext .fill { runS with fillReq := true, fifo := [⟨0x00000F02#32, 0#32, 0#32⟩] }
       s.sched = .fill :: [] ∧ s.running = true ∧ s.fillReq = true ∧ s.fifo = [⟨cmdWord 0x02#8 15#8, 0#32, 0#32⟩]) := by
  decide +kernel

theorem witness_OscNoteStartsTheNote :
    meetsChecks 0x03#8 0#32 0#32 [.osc] playS ⟨0x00010103#32, 0#32, 0#32⟩ ⟨0x00001003#32, 0#32, 0#32⟩ ⟨0x00000103#32, 0#32, 0#32⟩
    ∧ (1#8).toNat = (1 : Fin hardware.nNodes).val
    ∧ oscS.nodes[(1 : Fin hardware.nNodes)].body = .osc ⟨0#32, 0#32, 0#32, 0#32⟩ := by decide +kernel

theorem witness_SmpLoadLoadsTheEntry :
    meetsChecks 0x04#8 0#32 0#32 [.player, .looper] oscS ⟨0x00010104#32, 0#32, 0#32⟩ ⟨0x00001004#32, 0#32, 0#32⟩
      ⟨0x00000104#32, 0#32, 0#32⟩
    ∧ (1#8).toNat = (1 : Fin hardware.nNodes).val
    ∧ playS.nodes[(1 : Fin hardware.nNodes)].body = .player ⟨0#32, 2#32, 0#32, 0#2, 0x40000000#32⟩
    ∧ quietLoopS.nodes[(1 : Fin hardware.nNodes)].body = .looper ⟨0#32, 4#32, 0#32, 0#2, 0#32, 0#32, false, 0x8000#16⟩
    ∧ (1048576 < (2#32).toNat ∨ (1048576 : Int) - (2#32).toNat < (0x000FFFFF#32).toNat)
    ∧ ¬ (1048576 < (2#32).toNat ∨ (1048576 : Int) - (2#32).toNat < (0x000FFFFE#32).toNat)
    ∧ ¬ (1048576 < (0#32).toNat ∨ (1048576 : Int) - (0#32).toNat < (0x00100000#32).toNat) := by decide +kernel

theorem witness_SmpPlayRestartsThePlayer :
    meetsChecks 0x05#8 0#32 0#32 [.player] loopS ⟨0x00010105#32, 0#32, 0#32⟩ ⟨0x00001005#32, 0#32, 0#32⟩ ⟨0x00000105#32, 0#32, 0#32⟩
    ∧ (1#8).toNat = (1 : Fin hardware.nNodes).val
    ∧ playS.nodes[(1 : Fin hardware.nNodes)].body = .player ⟨0#32, 2#32, 0#32, 0#2, 0x40000000#32⟩ := by decide +kernel

theorem witness_LoopSetposStoresTheOffset :
    meetsChecks 0x06#8 0xFFFF0000#32 0#32 [.looper] playS ⟨0x00000106#32, 0x00010000#32, 0#32⟩ ⟨0x00001006#32, 0#32, 0#32⟩
      ⟨0x00000106#32, 0#32, 0#32⟩
    ∧ (1#8).toNat = (1 : Fin hardware.nNodes).val
    ∧ quietLoopS.nodes[(1 : Fin hardware.nNodes)].body = .looper ⟨0#32, 4#32, 0#32, 0#2, 0#32, 0#32, false, 0x8000#16⟩ := by
  decide +kernel

theorem witness_LoopGateSetsTheTarget :
    meetsChecks 0x07#8 0#32 0#32 [.looper] playS ⟨0x00010107#32, 0#32, 0#32⟩ ⟨0x00001007#32, 0#32, 0#32⟩ ⟨0x00000107#32, 0#32, 0#32⟩
    ∧ (1#8).toNat = (1 : Fin hardware.nNodes).val
    ∧ quietLoopS.nodes[(1 : Fin hardware.nNodes)].body = .looper ⟨0#32, 4#32, 0#32, 0#2, 0#32, 0#32, false, 0x8000#16⟩ := by
  decide +kernel

theorem witness_GateMapIsMonotone :
    (1#8).toNat = (1 : Fin hardware.nNodes).val
    ∧ quietLoopS.nodes[(1 : Fin hardware.nNodes)].body = .looper ⟨0#32, 4#32, 0#32, 0#2, 0#32, 0#32, false, 0x8000#16⟩
    ∧ ((200#16).toNat ≤ (400#16).toNat ∧ (0#16).toNat ≤ (200#16).toNat ∧ (200#16).toNat < (400#16).toNat
        ∧ (200#16).toNat ≤ (200#16).toNat)
    ∧ ((400#16).toNat ≤ (400#16).toNat ∧ (0#16).toNat ≤ (400#16).toNat) := by decide +kernel

theorem witness_FltSetComputesTheFeedback :
    meetsChecks 0x08#8 0xFFFF0000#32 0xFFFF0000#32 [.filter] playS ⟨0x00000108#32, 0#32, 0x00010000#32⟩
      ⟨0x00001008#32, 0#32, 0#32⟩ ⟨0x00000108#32, 0#32, 0#32⟩
    ∧ (1#8).toNat = (1 : Fin hardware.nNodes).val
    ∧ filterS.nodes[(1 : Fin hardware.nNodes)].body = .filter ⟨8192#16, 8192#16, 24576#32, 0#32, 0#32⟩ := by decide +kernel

theorem witness_DlySetDelayClampsTheTarget :
    meetsChecks 0x09#8 0#32 0#32 [.delay] playS ⟨0x00010109#32, 0#32, 0#32⟩ ⟨0x00001009#32, 0#32, 0#32⟩ ⟨0x00000109#32, 0#32, 0#32⟩
    ∧ (1#8).toNat = (1 : Fin hardware.nNodes).val
    ∧ delayS.nodes[(1 : Fin hardware.nNodes)].body = .delay ⟨[], 0, 0x00010000#32, 0x00010000#32, 0#32, 0#32⟩ := by decide +kernel

theorem witness_DlySetFeedbackClampsTheGain :
    meetsChecks 0x0A#8 0xFFFF0000#32 0#32 [.delay] playS ⟨0x0000010A#32, 0x00010000#32, 0#32⟩ ⟨0x0000100A#32, 0#32, 0#32⟩
      ⟨0x0000010A#32, 0#32, 0#32⟩
    ∧ (1#8).toNat = (1 : Fin hardware.nNodes).val
    ∧ delayS.nodes[(1 : Fin hardware.nNodes)].body = .delay ⟨[], 0, 0x00010000#32, 0x00010000#32, 0#32, 0#32⟩ := by decide +kernel

theorem witness_CommandsChangeOnlyTheirNode : (Instr.dlySetFeedback 15#8 0#16).isCommand = true := by decide

theorem witness_SilenceProducesZeros :
    (15#8).toNat = (15 : Fin hardware.nNodes).val ∧ 1 ≤ 96 ∧ State.reset.nodes[(15 : Fin hardware.nNodes)].body = .silence := by
  decide +kernel

theorem witness_OscProducesTheTriangle :
    (1#8).toNat = (1 : Fin hardware.nNodes).val ∧ 1 ≤ 96
    ∧ (put 1 (leaf .one (.osc (noteOsc 1#32 96#32))) State.reset).nodes[(1 : Fin hardware.nNodes)].body
        = .osc ⟨0x40000000#32, 1#32, 0x40000000#32, 11184811#32⟩
    ∧ (0x40000000#32).toNat ≤ 2 ^ 30 := by decide +kernel

theorem witness_OscNoteIsSilentAfterItsDuration :
    (1#8).toNat = (1 : Fin hardware.nNodes).val ∧ oscS.nodes[(1 : Fin hardware.nNodes)].body = .osc ⟨0#32, 0#32, 0#32, 0#32⟩
    ∧ 1 ≤ (1#32).toNat ∧ ∀ n ∈ [1, 96], 1 ≤ n ∧ n ≤ 96 := by decide +kernel

theorem witness_PlayerProducesItsEntry :
    (1#8).toNat = (1 : Fin hardware.nNodes).val ∧ 1 ≤ 96
    ∧ playS.nodes[(1 : Fin hardware.nNodes)].body = .player ⟨0#32, 2#32, 0#32, 0#2, 0x40000000#32⟩
    ∧ bodyOk hardware playS.nodes[(1 : Fin hardware.nNodes)].div (.player ⟨0#32, 2#32, 0#32, 0#2, 0x40000000#32⟩) = true := by
  decide +kernel

/-- A play under way, and one at its end. -/
theorem witness_PlayerReproducesTheLibrary :
    (let s := put 1 (playerNode .one 4#32 3#32 0x40000000#32) State.reset
     s.nodes[(1 : Fin hardware.nNodes)].body = .player ⟨0#32, 4#32, 3#32, 0#2, 0x40000000#32⟩
      ∧ s.nodes[(1 : Fin hardware.nNodes)].div = .one)
    ∧ (let s := put 1 (playerNode .one 4#32 4#32 0x40000000#32) State.reset
       s.nodes[(1 : Fin hardware.nNodes)].body = .player ⟨0#32, 4#32, 4#32, 0#2, 0x40000000#32⟩
        ∧ s.nodes[(1 : Fin hardware.nNodes)].div = .one)
    ∧ (1#8).toNat = (1 : Fin hardware.nNodes).val ∧ (0#32).toNat + (4#32).toNat ≤ 1048576
    ∧ ∀ n ∈ [1, 96], 1 ≤ n ∧ n ≤ 96 := by decide +kernel

theorem witness_LooperProducesTheLoop :
    (1#8).toNat = (1 : Fin hardware.nNodes).val ∧ 1 ≤ 96
    ∧ loopS.nodes[(1 : Fin hardware.nNodes)].body = .looper ⟨0#32, 4#32, 0#32, 0#2, 0#32, 966367642#32, true, 0x8000#16⟩
    ∧ bodyOk hardware loopS.nodes[(1 : Fin hardware.nNodes)].div
        (.looper ⟨0#32, 4#32, 0#32, 0#2, 0#32, 966367642#32, true, 0x8000#16⟩) = true := by decide +kernel

theorem witness_MixerSumsItsChildren :
    (1#8).toNat = (1 : Fin hardware.nNodes).val ∧ mixS.nodes[(1 : Fin hardware.nNodes)].body = initialBody .mixer
    ∧ nodesOk mixS.nodes = true := by decide +kernel

/-- For FilterProducesTheRecurrence. -/
theorem witness_FilterProducesTheRecurrence :
    (1#8).toNat = (1 : Fin hardware.nNodes).val
    ∧ filterS.nodes[(1 : Fin hardware.nNodes)].body = .filter ⟨8192#16, 8192#16, 24576#32, 0#32, 0#32⟩
    ∧ nodesOk filterS.nodes = true := by decide +kernel

theorem witness_DelayProducesTheEcho :
    (1#8).toNat = (1 : Fin hardware.nNodes).val ∧ delayS.nodes[(1 : Fin hardware.nNodes)].body = initialBody .delay
    ∧ nodesOk delayS.nodes = true := by decide +kernel

theorem witness_FilterHoldsAtZeroFrequency :
    (let s := overS (filterNode 0#16 16383#16 32766#32)
     s.nodes[(1 : Fin hardware.nNodes)].body = .filter ⟨0#16, 16383#16, 32766#32, 0#32, 0#32⟩ ∧ nodesOk s.nodes = true) := by
  decide +kernel

theorem witness_DelayEchoesItsInput :
    (1#8).toNat = (1 : Fin hardware.nNodes).val ∧ nodesOk delayS.nodes = true
    ∧ delayS.nodes[(1 : Fin hardware.nNodes)].body = .delay ⟨[], 0, 0x00010000#32, 0x00010000#32, 0#32, 0#32⟩
    ∧ delayS.nodes[(1 : Fin hardware.nNodes)].childA.toNat = (2 : Fin hardware.nNodes).val
    ∧ (0x00010000#32).toNat = 1 * 2 ^ 16 ∧ ∀ n ∈ [1, 96], 1 ≤ n ∧ n ≤ 96 := by decide +kernel

/-- The mixer's subtree holds nodes 1 to 3; node 4, of a greater index, is outside it. -/
theorem witness_ProduceCompletesOnEveryNode :
    1 ≤ 96 ∧ nodesOk mixS.nodes = true ∧ InSubtree mixS.nodes 1 3 ∧ ¬ InSubtree mixS.nodes 1 4 := by
  have leaf (c : Fin hardware.nNodes) (hc : mixS.nodes[c].body.type = .player) (j : Fin hardware.nNodes)
      (h : InSubtree mixS.nodes c j) : j = c := by
    cases h with
    | self => rfl
    | viaA c' d j hty => rw [hc] at hty; rcases hty with h | h | h <;> cases h
    | viaB c' d j hty => rw [hc] at hty; cases hty
  refine ⟨by decide, by decide +kernel, .viaB 1 3 3 rfl rfl (.self 3), fun h => ?_⟩
  cases h with
  | viaA i c j _ hc h =>
    have : c = 2 := Fin.ext hc.symm
    subst this
    exact absurd (leaf 2 rfl 4 h) (by decide)
  | viaB i c j _ hc h =>
    have : c = 3 := Fin.ext hc.symm
    subst this
    exact absurd (leaf 3 rfl 4 h) (by decide)

theorem witness_ProduceReadsOnlyNodesAndLib :
    (Instr.produceMixer 1#8 96).isCommand = false ∧ mixS.nodes = { mixS with running := true, ticks := 7#32 }.nodes
    ∧ mixS.lib = { mixS with running := true, ticks := 7#32 }.lib := ⟨rfl, rfl, rfl⟩

theorem witness_ProduceStopsByName :
    16 ≤ (16#8).toNat ∧ State.reset.nodes[(1 : Fin hardware.nNodes)].body.type ≠ .osc
    ∧ (let p : Player := ⟨0x000FFFFF#32, 2#32, 0#32, 0#2, 0#32⟩
       (put 1 (leaf .one (.player p)) State.reset).nodes[(1 : Fin hardware.nNodes)].body = .player p
        ∧ 1048576 < p.base.toNat + p.len.toNat)
    ∧ (let l : Looper := ⟨0#32, 2#32, 2#32, 0#2, 0#32, 0#32, false, 0#16⟩
       (put 1 (leaf .one (.looper l)) State.reset).nodes[(1 : Fin hardware.nNodes)].body = .looper l
        ∧ (l.len ≠ 0#32 ∧ l.len.toNat ≤ l.idx.toNat))
    ∧ (let s := put 2 (filterNode 0#16 0#16 0#32) State.reset
       s.nodes[(2 : Fin hardware.nNodes)].body = .filter ⟨0#16, 0#16, 0#32, 0#32, 0#32⟩
        ∧ s.nodes[(2 : Fin hardware.nNodes)].childA = 2#8) := by decide +kernel

theorem witness_TickDrainsTheInFlightBuffer :
    (let s := upNext .tick { runS with drainIdx := 94 }
     s.sched = .tick :: [] ∧ s.running = true ∧ (95 : Fin hardware.bufLen).val = s.drainIdx.val + 1)
    ∧ (let s := upNext .tick { runS with drainIdx := 95 }
       s.sched = .tick :: [] ∧ s.running = true ∧ s.drainIdx.val = 95) := by decide +kernel

theorem witness_StartPrimesBothBuffers :
    (let s := upNext (.hostWrite 0x004#32 .b4 1#32) mixS
     s.sched = .hostWrite 0x004#32 .b4 1#32 :: [] ∧ (1#32).getLsbD 0 = true ∧ s.running = false ∧ s.periphReady = true
      ∧ nodesOk s.nodes = true)
    ∧ (upNext (.hostWrite 0x004#32 .b4 1#32) runS).running = true ∧ { State.reset with periphReady := false }.running = false
    ∧ (2#32).getLsbD 0 = false := by decide +kernel

theorem witness_FillServesTheRequest :
    (let s := upNext .fill { mixS with running := true, fillReq := true, fifo := [⟨0x00000102#32, 0#32, 0#32⟩] }
     s.sched = .fill :: [] ∧ s.running = true ∧ s.fillReq = true ∧ nodesOk s.nodes = true) := by decide +kernel

theorem witness_IssueAppliesQueuesOrDrops :
    (upNext (.hostWrite 0x048#32 .b4 0#32) State.reset).sched = .hostWrite 0x048#32 .b4 0#32 :: [] ∧ State.reset.running = false
    ∧ runS.running = true
    ∧ { runS with fifo := List.replicate 15 (⟨0#32, 0#32, 0#32⟩ : Command) }.fifo.length < 16
    ∧ 16 ≤ { runS with fifo := List.replicate 16 (⟨0#32, 0#32, 0#32⟩ : Command) }.fifo.length := by decide +kernel

theorem witness_InFlightBufferIsNeverWritten :
    (let s := upNext .fill { runS with fillReq := true }
     s.sched = .fill :: [] ∧ s.running = true ∧ Event.fill ≠ .reset ∧ s.inflight = .A
      ∧ seen (step s) (·.running) = some true)
    ∧ (let s := upNext .tick { runS with drainIdx := 95, inflight := .B }
       s.sched = .tick :: [] ∧ s.running = true ∧ s.inflight = .B ∧ Event.tick ≠ .fill
        ∧ seen (step s) (·.inflight) = some .A) := by decide +kernel

theorem witness_DisabledEntriesAreNoSteps :
    ((upNext .tick State.reset).sched = .tick :: [] ∧ State.reset.running = false)
    ∧ (upNext .fill runS).sched = .fill :: [] ∧ runS.fillReq = false ∧ State.reset.sched = [] := by decide +kernel

theorem witness_ResetStepResetsAllButLib : (upNext .reset mixS).sched = .reset :: [] := rfl

theorem witness_StepKeepsTheInvariant :
    (let s := upNext (.hostWrite 0x048#32 .b4 0x00000F02#32) mixS
     inv s = true ∧ seen (step s) (·.rootIdx.val) = some 15) := by decide +kernel

theorem witness_StepNeverStops : inv (upNext (.hostWrite 0x004#32 .b4 1#32) mixS) = true := by decide +kernel

/-- A run under way with a RESET and a later START, an idle one, and an infinite one. A request a RESET withdraws is not owed, and the
ticks of an idle block do not count. -/
theorem witness_DeadlineMeansNoOverrun :
    (let s := { mixS with
        running := true, drainIdx := 95,
        sched := [.tick, .hostRead 0x008#32 .b4, .fill, .tick, .reset] ++ List.replicate 96 .tick
          ++ [.hostWrite 0x004#32 .b4 1#32] ++ List.replicate 96 .tick ++ [.reset, .hostWrite 0x004#32 .b4 1#32]
          ++ List.replicate 96 .tick ++ [.fill] ++ List.replicate 96 .tick }
     inv s = true ∧ deadlineMet hardware (.of s) s.sched = true ∧ s.sticky.getLsbD 1 = false)
    ∧ deadlineMet hardware (.of State.reset) [.tick, .hostWrite 0x004#32 .b4 1#32] = true
    ∧ deadlineMet hardware (.of runS) (List.replicate 192 .tick) = false
    ∧ ∃ (ev : Nat → Event) (σ : Nat → State), IsRun ev σ ∧ RunMeetsDeadline ev σ ∧ (σ 0).sticky.getLsbD 1 = false :=
  ⟨by decide +kernel, by decide +kernel, by decide +kernel,
    _, _, (quietRun_fair _ runS_quiet).1, (quietRun_fair _ runS_quiet).2.2, rfl⟩

theorem witness_FairRunsServeEveryRequest :
    (∃ (ev : Nat → Event) (σ : Nat → State), IsRun ev σ ∧ Fair ev σ ∧ (σ 0).running = true)
    ∧ ∃ (ev : Nat → Event) (σ : Nat → State), IsRun ev σ ∧ Fair ev σ ∧ (σ 0).running = true ∧ (σ 0).fillReq = true :=
  ⟨⟨_, _, (quietRun_fair _ runS_quiet).1, (quietRun_fair _ runS_quiet).2.1, rfl⟩,
    _, _, (quietRun_fair _ owedS_quiet).1, (quietRun_fair _ owedS_quiet).2.1, rfl, rfl⟩

theorem witness_DacStreamIsGapFree :
    (let evs : List Event := List.replicate 96 .tick ++ [.fill] ++ List.replicate 100 .tick
     let s := { mixS with sched := .hostWrite 0x004#32 .b4 1#32 :: evs }
     inv s = true ∧ s.running = false ∧ s.periphReady = true ∧ (1#32).getLsbD 0 = true ∧ (∀ e ∈ evs, e = .tick ∨ e = .fill)
      ∧ deadlineMet hardware (.of s) s.sched = true ∧ 1 ≤ (evs.take 1).count .tick) := by decide +kernel

/-- For EveryInstanceKeepsTheInvariant: a state of another instance that meets the invariant and takes a step. -/
theorem witness_EveryInstanceKeepsTheInvariant :
    (let s : State smallest := { State.resetOf smallest with sched := [.hostWrite 0x004#32 .b4 1#32] }
     inv s = true ∧ (match stepOf s with | .next t => t.running | .fault _ | .refused _ => false) = true)
    ∧ inv (State.resetOf largest) = true := by decide +kernel

/-- The hypotheses of ParametersAreArguments at the ends of the ranges. -/
theorem witness_ParametersAreArguments :
    ({ State.resetOf largest with sched := [.hostRead 0x028#32 .b4] }).sched = .hostRead 0x028#32 .b4 :: []
    ∧ (0x7F8#32).toNat = 0x400 + 4 * (254 : Fin largest.bufLen).val ∧ (0x800#32).toNat = 0x800 + 4 * (0 : Fin smallest.bufLen).val := by
  decide +kernel

theorem witness_ErrorsAreLatchedOnce :
    State.reset.errValid = false ∧ (recordError .overrun 3#32 State.reset).errValid = true
    ∧ (upNext (.hostWrite 0x010#32 .b4 0#32) State.reset).sched = .hostWrite 0x010#32 .b4 0#32 :: []
    ∧ (upNext (.hostWrite 0x008#32 .b4 8#32) State.reset).sched = .hostWrite 0x008#32 .b4 8#32 :: [] := by decide +kernel

theorem witness_StickyBitsStayUntilCleared :
    (let s := upNext (.hostWrite 0x008#32 .b4 0x10#32) { State.reset with sticky := 0b100001#6 }
     s.sched = .hostWrite 0x008#32 .b4 0x10#32 :: [] ∧ Event.hostWrite 0x008#32 .b4 0x10#32 ≠ .reset
      ∧ seen (step s) (·.sticky) = some 0b100001#6 ∧ s.sticky.getLsbD 0 = true ∧ s.sticky.getLsbD 5 = true
      ∧ (0x10#32).getLsbD 3 = false ∧ (0x10#32).getLsbD 8 = false) := by decide +kernel

theorem witness_StatusShowsTheFlags :
    { runS with fifo := List.replicate 16 (⟨0#32, 0#32, 0#32⟩ : Command) }.fifo.length ≤ 16
    ∧ (upNext (.hostWrite 0x008#32 .b4 0x1F8#32) runS).sched = .hostWrite 0x008#32 .b4 0x1F8#32 :: [] := by decide +kernel

theorem witness_RegisterReadsReturnTheState :
    (upNext (.hostRead 0x048#32 .b4) State.reset).sched = .hostRead 0x048#32 .b4 :: []
    ∧ (0x57C#32).toNat = 0x400 + 4 * (95 : Fin 96).val ∧ (0x800#32).toNat = 0x800 + 4 * (0 : Fin 96).val := by decide +kernel

theorem witness_RegisterWritesStoreOrAreIgnored :
    (upNext (.hostWrite 0x03C#32 .b4 1#32) State.reset).sched = .hostWrite 0x03C#32 .b4 1#32 :: []
    ∧ (0x03C#32) ∈ [0x000#32, 0x014#32, 0x018#32, 0x01C#32, 0x020#32, 0x024#32, 0x028#32, 0x02C#32, 0x030#32, 0x034#32,
        0x038#32, 0x03C#32]
    ∧ (0x400#32).toNat = 0x400 + 4 * (0 : Fin 96).val ∧ (0x97C#32).toNat = 0x800 + 4 * (95 : Fin 96).val := by decide +kernel

/-- The register region's last halfword, a byte of a register, and the last misaligned halfword of LIB. -/
theorem witness_MisalignedAccessesAreRejected :
    ((0xFFE#32).toNat + AccessSize.b2.bytes - 1 ≤ 0x0FFF ∧ (AccessSize.b2.bytes ≠ 4 ∨ (0xFFE#32).toNat % 4 ≠ 0))
    ∧ ((0x002#32).toNat + AccessSize.b4.bytes - 1 ≤ 0x0FFF ∧ (AccessSize.b4.bytes ≠ 4 ∨ (0x002#32).toNat % 4 ≠ 0))
    ∧ (0x00100000 ≤ (0x001FFFFD#32).toNat ∧ (0x001FFFFD#32).toNat + AccessSize.b2.bytes - 1 ≤ 0x001FFFFF
        ∧ (0x001FFFFD#32).toNat % AccessSize.b2.bytes ≠ 0)
    ∧ (upNext (.hostRead 0xFFE#32 .b2) State.reset).sched = .hostRead 0xFFE#32 .b2 :: []
    ∧ (upNext (.hostWrite 0x002#32 .b4 1#32) State.reset).sched = .hostWrite 0x002#32 .b4 1#32 :: [] := by decide +kernel

/-- The access across the register region's top, the one across LIB's top, the last address, and both ends of the register holes. -/
theorem witness_UnmappedAccessesAreRejected :
    (0x0FFF < (0xFFE#32).toNat + AccessSize.b4.bytes - 1 ∧ ((0xFFE#32).toNat < 0x00100000 ∨ 0x001FFFFF < (0xFFE#32).toNat + AccessSize.b4.bytes - 1))
    ∧ (0x0FFF < (0x1000#32).toNat + AccessSize.b1.bytes - 1 ∧ ((0x1000#32).toNat < 0x00100000 ∨ 0x001FFFFF < (0x1000#32).toNat + AccessSize.b1.bytes - 1))
    ∧ (0x0FFF < (0x000FFFFF#32).toNat + AccessSize.b2.bytes - 1 ∧ ((0x000FFFFF#32).toNat < 0x00100000 ∨ 0x001FFFFF < (0x000FFFFF#32).toNat + AccessSize.b2.bytes - 1))
    ∧ (0x0FFF < (0x001FFFFE#32).toNat + AccessSize.b4.bytes - 1 ∧ ((0x001FFFFE#32).toNat < 0x00100000 ∨ 0x001FFFFF < (0x001FFFFE#32).toNat + AccessSize.b4.bytes - 1))
    ∧ (0x0FFF < (0xFFFFFFFF#32).toNat + AccessSize.b1.bytes - 1 ∧ ((0xFFFFFFFF#32).toNat < 0x00100000 ∨ 0x001FFFFF < (0xFFFFFFFF#32).toNat + AccessSize.b1.bytes - 1))
    ∧ ((0x04C#32).toNat % 4 = 0 ∧ 0x04C ≤ (0x04C#32).toNat ∧ (0x04C#32).toNat < 0x400)
    ∧ ((0x3FC#32).toNat % 4 = 0 ∧ 0x04C ≤ (0x3FC#32).toNat ∧ (0x3FC#32).toNat < 0x400)
    ∧ ((0x580#32).toNat % 4 = 0 ∧ 0x400 + 4 * 96 ≤ (0x580#32).toNat ∧ (0x580#32).toNat < 0x800)
    ∧ ((0x7FC#32).toNat % 4 = 0 ∧ 0x400 + 4 * 96 ≤ (0x7FC#32).toNat ∧ (0x7FC#32).toNat < 0x800)
    ∧ ((0x980#32).toNat % 4 = 0 ∧ 0x800 + 4 * 96 ≤ (0x980#32).toNat ∧ (0x980#32).toNat < 0x1000)
    ∧ ((0xFFC#32).toNat % 4 = 0 ∧ 0x800 + 4 * 96 ≤ (0xFFC#32).toNat ∧ (0xFFC#32).toNat < 0x1000)
    ∧ (upNext (.hostRead 0x04C#32 .b4) State.reset).sched = .hostRead 0x04C#32 .b4 :: []
    ∧ (upNext (.hostWrite 0xFFC#32 .b4 1#32) State.reset).sched = .hostWrite 0xFFC#32 .b4 1#32 :: [] := by decide +kernel

theorem witness_LibAccessesAreLittleEndian :
    (0x001FFFFC#32).toNat = 0x00100000 + 0xFFFFC ∧ 0xFFFFC + AccessSize.b4.bytes ≤ 1048576
    ∧ (0x001FFFFC#32).toNat % AccessSize.b4.bytes = 0 ∧ Lib.wf hardware mixS.lib = true
    ∧ (upNext (.hostWrite 0x001FFFFC#32 .b4 1#32) mixS).sched = .hostWrite 0x001FFFFC#32 .b4 1#32 :: []
    ∧ (upNext (.hostRead 0x001FFFFC#32 .b4) mixS).sched = .hostRead 0x001FFFFC#32 .b4 :: [] := by decide +kernel

theorem witness_SlewNeverOvershoots :
    1 ≤ 5 ∧ (rshrRound 16 5 ≠ 0 ∧ rshrRound 15 5 = 0 ∧ rshrRound (-16) 5 = 0 ∧ rshrRound (-17) 5 ≠ 0) := by decide +kernel

theorem witness_RoundingShiftRoundsHalfUp : 1 ≤ 1 ∧ rshrRound 5 1 = 3 := by decide +kernel

/-- The boundary Samples of the converter's table (95_test_vectors V1). -/
theorem witness_ConverterSaturatesToTheCodes :
    [0, 7, 8, -8, -9, 4096, -4096, 8167, 8168, 32767, -8184, -8185, -32768].map
        (fun x : Int => ((BitVec.ofInt 16 x).toInt, (native hardware (BitVec.ofInt 16 x)).toNat))
      = [(0, 512), (7, 512), (8, 513), (-8, 512), (-9, 511), (4096, 768), (-4096, 256), (8167, 1022), (8168, 1023),
        (32767, 1023), (-8184, 1), (-8185, 0), (-32768, 0)] := by decide +kernel

end Sys2Proof.Tests
end

section
/-!
PROOF. The invariant of Safety.lean as a structure, and that it is kept: by the updates of the state, by every command, by filling
a buffer, and by every agent step, none of which stops (00_scope R10; 10_state; 41_delivery_engine; 60_exceptions).
-/

namespace Sys2Proof.Machine

variable {C : Config}

/-! ### The invariant, part by part -/

/-- The parts of the invariant under names. -/
structure Invariant (s : State C) : Prop where
  nodes : nodesOk s.nodes = true
  lib : Lib.wf C s.lib = true
  fifo : s.fifo.length ≤ C.fifoDepth
  idle : idleOk s = true
  latch : latchOk s = true
  dest : s.dest = []

theorem inv_iff (s : State C) : inv s = true ↔ Invariant s := by
  simp only [inv, Bool.and_eq_true, decide_eq_true_eq, beq_iff_eq]
  constructor
  · rintro ⟨⟨⟨⟨⟨hn, hl⟩, hf⟩, hi⟩, he⟩, hd⟩
    exact ⟨hn, hl, hf, hi, he, hd⟩
  · rintro ⟨hn, hl, hf, hi, he, hd⟩
    exact ⟨⟨⟨⟨⟨hn, hl⟩, hf⟩, hi⟩, he⟩, hd⟩

/-- The outcome is a next state, and that state meets the invariant. -/
def KeepsInvariant (o : Host.Outcome (State C) Fault Refusal) : Prop := ∃ t, o = .next t ∧ Invariant t

theorem next_keeps {s : State C} (h : Invariant s) : KeepsInvariant (.next s) := ⟨s, rfl, h⟩

theorem KeepsInvariant.of_next {o : Host.Outcome (State C) Fault Refusal} {t : State C} (h : KeepsInvariant o)
    (ho : o = .next t) : Invariant t := by
  obtain ⟨u, hu, hinv⟩ := h
  exact Host.Outcome.next.inj (hu.symm.trans ho) ▸ hinv

theorem andThen_keeps {o : Host.Outcome (State C) Fault Refusal} {k : State C → Host.Outcome (State C) Fault Refusal}
    (ho : KeepsInvariant o) (hk : ∀ s, Invariant s → KeepsInvariant (k s)) : KeepsInvariant (andThen o k) := by
  obtain ⟨t, rfl, ht⟩ := ho
  exact hk t ht

/-- A running engine need not be as reset left it. -/
theorem idleOk_of_running {s : State C} (h : s.running = true) : idleOk s = true := by simp [idleOk, h]

theorem latchOk_of_code {s : State C} (e : ErrorCode) (hv : s.errValid = true) (hc : s.errCode = e.code) :
    latchOk s = true := by
  rw [latchOk, if_pos hv, List.any_eq_true]
  exact ⟨e, by cases e <;> decide, by simp [hc]⟩

/-! ### Updates of the state -/

/-- R505: the latch keeps a code of R500, or takes one. -/
theorem recordError_latchOk (e : ErrorCode) (info : Word) {s : State C} (h : latchOk s = true) :
    latchOk (recordError e info s) = true := by
  cases hv : s.errValid with
  | false => exact latchOk_of_code e (by simp) (by simp [hv])
  | true => simpa [latchOk, hv] using h

theorem recordError_keeps (e : ErrorCode) (info : Word) {s : State C} (h : Invariant s) :
    Invariant (recordError e info s) where
  nodes := by simpa using h.nodes
  lib := by simpa using h.lib
  fifo := by simpa using h.fifo
  idle := by simpa [idleOk] using h.idle
  latch := recordError_latchOk e info h.latch
  dest := by simpa using h.dest

theorem clearCause_keeps {s : State C} (h : Invariant s) : Invariant (clearCause s) :=
  ⟨h.nodes, h.lib, h.fifo, h.idle, by simp [latchOk], h.dest⟩

theorem raiseCmd_keeps (e : ErrorCode) (w : Word) {s : State C} (h : Invariant s) : KeepsInvariant (raiseCmd e w s) :=
  next_keeps (recordError_keeps e w h)

theorem onNode_keeps {w : Word} {k : BitVec 8} {s : State C} {f : Fin C.nNodes → Host.Outcome (State C) Fault Refusal}
    (h : Invariant s) (hf : ∀ i, k.toNat = i.val → KeepsInvariant (f i)) : KeepsInvariant (onNode w k s f) := by
  unfold onNode
  split
  · exact raiseCmd_keeps _ w h
  · exact hf _ ((nodeIdx?_eq_some _ _).1 ‹_›)

theorem nodes_keeps {s : State C} {t : NodeTable C} (h : Invariant s) (ht : nodesOk t = true) :
    Invariant { s with nodes := t } :=
  ⟨ht, h.lib, h.fifo, h.idle, h.latch, h.dest⟩

/-- New fields of a node's own type that keep their bounds (R63 to R68). -/
theorem setBody_keeps {s : State C} {i : Fin C.nNodes} {b b' : NodeBody C} (h : Invariant s) (hb : s.nodes[i].body = b)
    (ht : b'.type = b.type) (hok : ∀ d, bodyOk C d b = true → bodyOk C d b' = true) :
    KeepsInvariant (.next (s.setBody i b')) := by
  subst hb
  exact next_keeps (nodes_keeps h (setBody_ok _ i b' h.nodes ht (hok _ ((nodesOk_iff _).1 h.nodes i).2)))

/-! ### The bounds of the fields a command stores -/

theorem initialBody_type (ty : NodeType) : (initialBody ty : NodeBody C).type = ty := by cases ty <;> rfl

/-- CFG_NODE's initial fields are within their bounds (R62 to R68); a DELAY's needs TANK_LEN ≥ 4 (R10). -/
theorem initialBody_ok (d : Divisor) (ty : NodeType) : bodyOk C d (initialBody ty) = true := by
  have hd := divisor_pos d
  cases ty with
  | delay =>
    have hL : 0x10000 ≤ (C.tankLen - 1) * 2 ^ 16 - 1 := by have := C.tankLen_range; omega
    simpa [bodyOk, initialBody, tankWf, risingBelow] using hL
  | filter => simp [bodyOk, initialBody, filterFb]
  | _ => simp [bodyOk, initialBody, -divisor_toNat_eq, hd]

theorem noteOsc_ok (d : Divisor) (inc dur : Word) : bodyOk C d (.osc (noteOsc inc dur)) = true := by
  simp [bodyOk, noteOsc]

/-- The target is 0 or in [AMP_LO, AMP_HI] (R346, R350). -/
theorem gateTarget_range (value thresh rmin rmax : Half) :
    gateTarget value thresh rmin rmax = 0
      ∨ Config.ampLo ≤ gateTarget value thresh rmin rmax ∧ gateTarget value thresh rmin rmax ≤ Config.ampHi := by
  unfold gateTarget
  split
  · exact .inl rfl
  · split
    · exact .inr (by decide)
    · right
      have hle : (clampNat value.toNat rmin.toNat rmax.toNat - rmin.toNat) * (Config.ampHi - Config.ampLo)
          / (rmax.toNat - rmin.toNat) ≤ Config.ampHi - Config.ampLo :=
        Nat.div_le_of_le_mul (Nat.mul_le_mul_right _ (by unfold clampNat; omega))
      exact ⟨Nat.le_add_right _ _, Nat.add_le_of_le_sub' (by decide) hle⟩

/-- The start offset lies inside the entry (R346). -/
theorem strikeIdx_le (l : Looper) : (strikeIdx l).toNat ≤ l.len.toNat - 1 := by
  have hf := l.frac.isLt
  have hle : l.frac.toNat * l.len.toNat / 65536 ≤ l.len.toNat - 1 := by
    rw [← Nat.lt_succ_iff, Nat.div_lt_iff_lt_mul (by decide)]
    have := Nat.mul_le_mul_right l.len.toNat (Nat.le_of_lt_succ hf)
    omega
  exact (BitVec.toNat_ofNat .. ▸ Nat.mod_le _ _).trans hle

theorem gateLooper_ok (d : Divisor) (l : Looper) (t : Nat) (ht : t = 0 ∨ Config.ampLo ≤ t ∧ t ≤ Config.ampHi)
    (h : bodyOk C d (.looper l) = true) : bodyOk C d (.looper (gateLooper l t)) = true := by
  have hd := divisor_pos d
  have hs := strikeIdx_le l
  have htn : (BitVec.ofNat 32 t).toNat = t := Nat.mod_eq_of_lt (by simp only [Config.ampHi] at ht; omega)
  simp only [bodyOk, Bool.and_eq_true, decide_eq_true_eq] at h ⊢
  obtain ⟨⟨⟨⟨⟨hlib, hidx⟩, hj⟩, hamp⟩, -⟩, -⟩ := h
  have htgt : (BitVec.ofNat 32 t == 0#32 || decide (Config.ampLo ≤ (BitVec.ofNat 32 t).toNat)
      && decide ((BitVec.ofNat 32 t).toNat ≤ Config.ampHi)) = true := by
    rcases ht with rfl | ht
    · rfl
    · simp [htn, ht]
  unfold gateLooper
  split
  · exact ⟨⟨⟨⟨⟨hlib, hs⟩, hd⟩, hamp⟩, htgt⟩, by simp [htn]⟩
  · exact ⟨⟨⟨⟨⟨hlib, hidx⟩, hj⟩, hamp⟩, htgt⟩, by simp [htn]⟩

/-! ### The commands -/

theorem set_ok {t : NodeTable C} (i : Fin C.nNodes) {n : Node C} (h : nodesOk t = true) (hw : wiringOk i.val n = true)
    (hb : bodyOk C n.div n.body = true) : nodesOk (t.set i n) = true := by
  rw [nodesOk_iff] at h ⊢
  intro j
  by_cases hj : i.val = j.val
  · simpa [hj] using ⟨hj ▸ hw, hb⟩
  · simpa [hj] using h j

/-- A divisor other than 1 goes to a PLAYER or LOOPER only (R60, R143). -/
theorem cfgType?_div {typ : BitVec 4} {divc : BitVec 2} {ty : NodeType} {d : Divisor}
    (h : cfgType? typ divc = some (ty, d)) : d = .one ∨ ty = .player ∨ ty = .looper := by
  unfold cfgType? at h
  split at h
  · split at h
    · cases h; assumption
    · cases h
  · cases h

theorem execCfgNode_keeps (k : BitVec 8) (typ : BitVec 4) (divc : BitVec 2) (a b : BitVec 8) {s : State C} (h : Invariant s) :
    KeepsInvariant (execCfgNode k typ divc a b s) :=
  onNode_keeps h fun i hk => by
    split
    · exact raiseCmd_keeps _ _ h
    · rename_i ty d hcfg
      split
      · rename_i hch
        have hki : BitVec.ofNat 8 i.val = k := by rw [← hk, BitVec.ofNat_toNat, BitVec.setWidth_eq]
        have hw : wiringOk i.val (⟨d, a, b, initialBody ty⟩ : Node C) = true := by
          simpa [wiringOk, initialBody_type, hki, hch, or_assoc] using cfgType?_div hcfg
        exact next_keeps (nodes_keeps h (set_ok i h.nodes hw (initialBody_ok d ty)))
      · exact raiseCmd_keeps _ _ h

theorem execInstall_keeps (k : BitVec 8) {s : State C} (h : Invariant s) : KeepsInvariant (execInstall k s) :=
  onNode_keeps h fun _ _ => next_keeps ⟨h.nodes, h.lib, h.fifo, h.idle, h.latch, h.dest⟩

theorem execOscNote_keeps (k : BitVec 8) (inc dur : Word) {s : State C} (h : Invariant s) :
    KeepsInvariant (execOscNote k inc dur s) :=
  onNode_keeps h fun i _ => by
    split
    · rename_i o ho
      exact setBody_keeps h ho rfl fun d _ => noteOsc_ok d inc dur
    · exact raiseCmd_keeps _ _ h

theorem execSmpLoad_keeps (k : BitVec 8) (base len : Word) {s : State C} (h : Invariant s) :
    KeepsInvariant (execSmpLoad k base len s) :=
  onNode_keeps h fun i _ => by
    split
    · rename_i p hp
      split
      · rename_i hr
        refine setBody_keeps h hp rfl fun d _ => ?_
        have hd := divisor_pos d
        simpa [bodyOk, loadInRange, -divisor_toNat_eq, hd] using hr
      · exact raiseCmd_keeps _ _ h
    · rename_i l hl
      split
      · rename_i hr
        refine setBody_keeps h hl rfl fun d hb => ?_
        have hd := divisor_pos d
        simp_all [bodyOk, loadInRange, -divisor_toNat_eq]
      · exact raiseCmd_keeps _ _ h
    · exact raiseCmd_keeps _ _ h

theorem execSmpPlay_keeps (k : BitVec 8) (amp : Word) {s : State C} (h : Invariant s) : KeepsInvariant (execSmpPlay k amp s) :=
  onNode_keeps h fun i _ => by
    split
    · rename_i p hp
      refine setBody_keeps h hp rfl fun d hb => ?_
      have hd := divisor_pos d
      simp_all [bodyOk, -divisor_toNat_eq]
    · exact raiseCmd_keeps _ _ h

theorem execLoopSetpos_keeps (k : BitVec 8) (frac : Half) {s : State C} (h : Invariant s) :
    KeepsInvariant (execLoopSetpos k frac s) :=
  onNode_keeps h fun i _ => by
    split
    · rename_i l hl
      exact setBody_keeps h hl rfl fun _ hb => hb
    · exact raiseCmd_keeps _ _ h

theorem execLoopGate_keeps (k : BitVec 8) (value thresh rmin rmax : Half) {s : State C} (h : Invariant s) :
    KeepsInvariant (execLoopGate k value thresh rmin rmax s) :=
  onNode_keeps h fun i _ => by
    split
    · rename_i l hl
      exact setBody_keeps h hl rfl fun d hb => gateLooper_ok d _ _ (gateTarget_range value thresh rmin rmax) hb
    · exact raiseCmd_keeps _ _ h

theorem execFltSet_keeps (k : BitVec 8) (f q : Half) {s : State C} (h : Invariant s) : KeepsInvariant (execFltSet k f q s) :=
  onNode_keeps h fun i _ => by
    dsimp only
    split
    · rename_i n hn
      refine setBody_keeps h hn rfl fun d _ => ?_
      have hf : min f.toNat Config.fMax % 65536 = min f.toNat Config.fMax := Nat.mod_eq_of_lt (by omega)
      have hq : min q.toNat Config.qMax % 65536 = min q.toNat Config.qMax := Nat.mod_eq_of_lt (by omega)
      simp [bodyOk, hf, hq]
    · exact raiseCmd_keeps _ _ h

theorem execDlySetDelay_keeps (k : BitVec 8) (delay : Word) {s : State C} (h : Invariant s) :
    KeepsInvariant (execDlySetDelay k delay s) :=
  onNode_keeps h fun i _ => by
    split
    · rename_i n hn
      refine setBody_keeps h hn rfl fun d hb => ?_
      have hL := C.tankLen_range
      simp only [bodyOk, Bool.and_eq_true, decide_eq_true_eq, BitVec.toNat_ofNat, clampNat] at hb ⊢
      obtain ⟨⟨⟨⟨⟨⟨ht, -⟩, -⟩, hr⟩, hr'⟩, hf⟩, hf'⟩ := hb
      refine ⟨⟨⟨⟨⟨⟨ht, ?_⟩, ?_⟩, hr⟩, hr'⟩, hf⟩, hf'⟩ <;> omega
    · exact raiseCmd_keeps _ _ h

theorem execDlySetFeedback_keeps (k : BitVec 8) (fb : Half) {s : State C} (h : Invariant s) :
    KeepsInvariant (execDlySetFeedback k fb s) :=
  onNode_keeps h fun i _ => by
    split
    · rename_i n hn
      refine setBody_keeps h hn rfl fun d hb => ?_
      simp only [bodyOk, Bool.and_eq_true, decide_eq_true_eq, BitVec.toNat_ofNat, Config.fbkMax] at hb ⊢
      obtain ⟨⟨h1, -⟩, hf'⟩ := hb
      exact ⟨⟨h1, by omega⟩, hf'⟩
    · exact raiseCmd_keeps _ _ h

theorem perform_keeps {i : Instr} (hi : i.isCommand = true) {s : State C} (h : Invariant s) : KeepsInvariant (perform i s) := by
  cases i with
  | nop => exact next_keeps h
  | cfgNode k typ divc a b => exact execCfgNode_keeps k typ divc a b h
  | install k => exact execInstall_keeps k h
  | oscNote k inc dur => exact execOscNote_keeps k inc dur h
  | smpLoad k base len => exact execSmpLoad_keeps k base len h
  | smpPlay k amp => exact execSmpPlay_keeps k amp h
  | loopSetpos k frac => exact execLoopSetpos_keeps k frac h
  | loopGate k value thresh rmin rmax => exact execLoopGate_keeps k value thresh rmin rmax h
  | fltSet k f q => exact execFltSet_keeps k f q h
  | dlySetDelay k delay => exact execDlySetDelay_keeps k delay h
  | dlySetFeedback k fb => exact execDlySetFeedback_keeps k fb h
  | _ => cases hi

theorem whenClear_eq_ok {clear : Bool} {i j : Instr} (h : whenClear clear i = .ok j) : i = j := by
  cases clear with
  | true => exact Except.ok.inj h
  | false => cases h

/-- The decoder of a command reads a command (R141, R145). -/
theorem decode_isCommand {c : Command} {i : Instr} (h : decode c = .ok i) : i.isCommand = true := by
  unfold decode at h
  dsimp only at h
  split at h
  case h_12 => cases h
  all_goals rw [← whenClear_eq_ok h]; rfl

theorem applyCommand_keeps (c : Command) {s : State C} (h : Invariant s) : KeepsInvariant (applyCommand c s) := by
  unfold applyCommand
  split
  · exact perform_keeps (decode_isCommand ‹_›) h
  · exact raiseCmd_keeps _ _ h

theorem applyAll_keeps (cs : List Command) {s : State C} (h : Invariant s) : KeepsInvariant (applyAll cs s) := by
  induction cs generalizing s with
  | nil => exact next_keeps h
  | cons c cs ih => exact andThen_keeps (applyCommand_keeps c h) fun _ => ih

/-! ### The delivery engine -/

theorem resetOf_invariant (C : Config) : Invariant (State.resetOf C) where
  nodes := by
    rw [nodesOk_iff]
    intro i
    simp [State.resetOf, Node.atReset, wiringOk, NodeBody.type, childrenValid, bodyOk]
  lib := by simp [State.resetOf, Lib.wf, risingBelow]
  fifo := Nat.zero_le _
  idle := by simp [State.resetOf, idleOk]
  latch := rfl
  dest := rfl

theorem resetStep_keeps {s : State C} (h : Invariant s) : Invariant (resetStep s) :=
  have hr := resetOf_invariant C
  ⟨hr.nodes, h.lib, hr.fifo, hr.idle, hr.latch, hr.dest⟩

/-- Filling a buffer ends with no Samples left over (R254). -/
theorem fillInto_keeps (x : BufId) {s : State C} (h : Invariant s) : KeepsInvariant (fillInto x s) := by
  obtain ⟨xs, t', p, heq⟩ := fillInto_total x s h.nodes
  exact ⟨_, heq, by simpa using p.ok, by simpa using h.lib, by simpa using h.fifo, by simpa [idleOk] using h.idle,
    by simpa [latchOk] using h.latch, storeDest_dest ..⟩

theorem issue_keeps (w : Word) {s : State C} (h : Invariant s) : KeepsInvariant (issue w s) := by
  unfold issue
  dsimp only
  split
  · exact applyCommand_keeps _ h
  · rename_i hr
    split
    · rename_i hlt
      exact next_keeps ⟨h.nodes, h.lib, by simpa using hlt, idleOk_of_running (by simpa using hr), h.latch, h.dest⟩
    · exact next_keeps (recordError_keeps _ w h)

theorem startEngine_keeps {s : State C} (h : Invariant s) : KeepsInvariant (startEngine s) := by
  unfold startEngine
  split
  · exact next_keeps h
  · split
    · exact next_keeps (recordError_keeps _ _ h)
    · refine andThen_keeps (fillInto_keeps .A h) fun t ht => andThen_keeps (fillInto_keeps .B ht) fun u hu => ?_
      exact next_keeps ⟨hu.nodes, hu.lib, hu.fifo, idleOk_of_running rfl, hu.latch, hu.dest⟩

theorem drainComplete_keeps {s : State C} (hr : s.running = true) (h : Invariant s) : Invariant (drainComplete s) where
  nodes := by simpa using h.nodes
  lib := by simpa using h.lib
  fifo := by simpa using h.fifo
  idle := idleOk_of_running (by simpa using hr)
  latch := by
    unfold drainComplete
    dsimp only
    split
    · exact recordError_latchOk _ _ h.latch
    · exact h.latch
  dest := by simpa using h.dest

theorem tickStep_keeps {s : State C} (h : Invariant s) : Invariant (tickStep s) := by
  unfold tickStep
  split
  · exact h
  · rename_i hr
    have hr : s.running = true := by simpa using hr
    dsimp only
    split
    · exact ⟨h.nodes, h.lib, h.fifo, idleOk_of_running hr, h.latch, h.dest⟩
    · exact drainComplete_keeps hr ⟨h.nodes, h.lib, h.fifo, idleOk_of_running hr, h.latch, h.dest⟩

/-- An idle engine has nothing queued, so emptying the FIFO leaves it as reset left it. -/
theorem clearFifo_keeps {s : State C} (h : Invariant s) : Invariant { s with fifo := [] } where
  __ := h
  fifo := Nat.zero_le _
  idle := by
    have hi := h.idle
    simp only [idleOk, Bool.or_eq_true, Bool.and_eq_true] at hi ⊢
    tauto

theorem fillStep_keeps {s : State C} (h : Invariant s) : KeepsInvariant (fillStep s) := by
  unfold fillStep
  split
  · exact next_keeps h
  · rename_i hr
    have hr : s.running = true := by simp_all
    have h0 : Invariant { s with fillReq := false } := ⟨h.nodes, h.lib, h.fifo, idleOk_of_running hr, h.latch, h.dest⟩
    refine andThen_keeps (applyAll_keeps s.fifo h0) fun t ht => ?_
    refine andThen_keeps (fillInto_keeps _ (clearFifo_keeps ht)) fun u hu => ?_
    exact next_keeps ⟨hu.nodes, hu.lib, hu.fifo, hu.idle, hu.latch, hu.dest⟩

/-! ### The host bus -/

theorem hostRead_keeps (addr : Word) (n : AccessSize) {s : State C} (h : Invariant s) : Invariant (hostRead addr n s) := by
  have busData_keeps {u : State C} (hu : Invariant u) (v : Word) : Invariant { u with busData := v } :=
    ⟨hu.nodes, hu.lib, hu.fifo, hu.idle, hu.latch, hu.dest⟩
  unfold hostRead
  split
  · exact busData_keeps h _
  · exact busData_keeps h _
  · exact busData_keeps (recordError_keeps _ addr h) _

theorem writeReg_keeps (r : Reg C) (v : Word) {s : State C} (h : Invariant s) : KeepsInvariant (writeReg r v s) := by
  cases r with
  | ctrl =>
    unfold writeReg
    dsimp only
    split
    · exact startEngine_keeps h
    · exact next_keeps h
  | cmdWord => exact issue_keeps v h
  | errCause => exact next_keeps (clearCause_keeps h)
  | _ => exact next_keeps ⟨h.nodes, h.lib, h.fifo, h.idle, h.latch, h.dest⟩

/-- A host access that reaches LIB lies inside it (R101, R110). -/
theorem busTarget_lib_le {addr n a : Nat} (h : busTarget C addr n = .lib a) : a + n ≤ C.libBytes := by
  unfold busTarget at h
  split at h
  · split at h
    · cases h
    · split at h <;> cases h
  · split at h
    · split at h
      · cases h
      · have ha := Target.lib.inj h
        omega
    · cases h

theorem hostWrite_keeps (addr : Word) (n : AccessSize) (v : Word) {s : State C} (h : Invariant s) :
    KeepsInvariant (hostWrite addr n v s) := by
  unfold hostWrite
  split
  · exact writeReg_keeps _ v h
  · exact next_keeps ⟨h.nodes, libWriteN_wf _ _ _ _ (busTarget_lib_le ‹_›) h.lib, h.fifo, h.idle, h.latch, h.dest⟩
  · exact next_keeps (recordError_keeps _ addr h)

/-! ### The step -/

theorem runEvent_keeps (e : Event) {s : State C} (h : Invariant s) : KeepsInvariant (runEvent e s) := by
  cases e with
  | hostRead addr n => exact next_keeps (hostRead_keeps addr n h)
  | hostWrite addr n v => exact hostWrite_keeps addr n v h
  | tick => exact next_keeps (tickStep_keeps h)
  | fill => exact fillStep_keeps h
  | reset => exact next_keeps (resetStep_keeps h)
  | periphReady level => exact next_keeps ⟨h.nodes, h.lib, h.fifo, h.idle, h.latch, h.dest⟩

/-- Whatever the parameters, every agent step answers a next state that meets the invariant (R10, R515). -/
theorem stepOf_keeps {s : State C} (h : Invariant s) : KeepsInvariant (stepOf s) := by
  cases hs : s.sched with
  | nil => exact stepOf_rest s hs ▸ next_keeps h
  | cons e rest => exact stepOf_cons s e rest hs ▸ runEvent_keeps e ⟨h.nodes, h.lib, h.fifo, h.idle, h.latch, h.dest⟩

/-- Settles O59: the invariant holds at reset, and a step from a state that meets it answers a next state that meets it. -/
theorem everyInstanceKeepsTheInvariant : Obligations.EveryInstanceKeepsTheInvariant := by
  intro C
  refine ⟨(inv_iff _).2 (resetOf_invariant C), fun s t hs ht => ?_, fun s hs => ?_⟩
  · exact (inv_iff t).2 ((stepOf_keeps ((inv_iff s).1 hs)).of_next ht)
  · obtain ⟨t, ht, -⟩ := stepOf_keeps ((inv_iff s).1 hs)
    exact ⟨t, ht⟩

end Sys2Proof.Machine
end

section
/-!
PROOF. What follows the parameters of R10: the register and buffer words a host read returns, and the values stored in B bits
(10_state R55, R59; 40_fixed_point R220; 70_reset_and_hazards R600).
-/

namespace Sys2Proof.Machine

variable {C : Config}

/-! ### Host reads of registers -/

theorem busTarget_reg {addr : Nat} {r : Reg C} (hlt : addr + 4 ≤ 0x1000) (hal : addr % 4 = 0)
    (hr : regAt? C (addr / 4) = some r) : busTarget C addr 4 = .reg r := by
  simp [busTarget, hlt, hal, hr]

/-- The words of BUF[A] stand at the word indices from 0x100 on (R130). -/
theorem regAt?_bufA (j : Fin C.bufLen) : regAt? C (0x100 + j.val) = some (.bufA j) := by
  have hj := j.isLt
  have hL := C.bufLen_range
  unfold regAt?
  split
  case h_20 => simp [show ¬ 0x200 ≤ 0x100 + j.val by omega]
  all_goals omega

/-- The words of BUF[B] stand at the word indices from 0x200 on (R130). -/
theorem regAt?_bufB (j : Fin C.bufLen) : regAt? C (0x200 + j.val) = some (.bufB j) := by
  unfold regAt?
  split
  case h_20 => simp
  all_goals omega

theorem busTarget_bufA {addr : Nat} (j : Fin C.bufLen) (h : addr = 0x400 + 4 * j.val) :
    busTarget C addr 4 = .reg (.bufA j) := by
  have hj := j.isLt
  have hL := C.bufLen_range
  refine busTarget_reg (by omega) (by omega) ?_
  rw [show addr / 4 = 0x100 + j.val by omega, regAt?_bufA]

theorem busTarget_bufB {addr : Nat} (j : Fin C.bufLen) (h : addr = 0x800 + 4 * j.val) :
    busTarget C addr 4 = .reg (.bufB j) := by
  have hj := j.isLt
  have hL := C.bufLen_range
  refine busTarget_reg (by omega) (by omega) ?_
  rw [show addr / 4 = 0x200 + j.val by omega, regAt?_bufB]

/-- A read of a register returns its value and takes its entry from the schedule (R110, log 8). -/
theorem stepOf_hostRead_reg {s : State C} {addr : Word} {rest : List Event} {r : Reg C}
    (hs : s.sched = .hostRead addr .b4 :: rest) (hr : busTarget C addr.toNat 4 = .reg r) :
    stepOf s = .next { s with sched := rest, busData := readReg r s } := by
  rw [stepOf_cons s _ rest hs]
  simp only [runEvent, hostRead, AccessSize.bytes, hr]
  cases r <;> rfl

/-! ### The words of PARAM0 to PARAM4 -/

theorem toNat_append_eq_add {n m : Nat} (x : BitVec n) (y : BitVec m) : (x ++ y).toNat = x.toNat * 2 ^ m + y.toNat := by
  rw [BitVec.toNat_append, ← Nat.shiftLeft_add_eq_or_of_lt y.isLt, Nat.shiftLeft_eq]

/-- The number the parameters of a PARAM register make in their fields (R55). -/
def paramValue (C : Config) (i : Fin 5) : Nat :=
  match i with
  | 0 => C.nNodes * 65536 + C.bufLen
  | 1 => C.libBytes
  | 2 => C.tankLen
  | 3 => C.dlySlewShift * 2 ^ 24 + C.relShiftBase * 2 ^ 20 + C.attShiftBase * 2 ^ 16 + C.fifoDepth * 2 ^ 8 + C.dacBits
  | 4 => C.sampleRate

/-- Every parameter fits its field in the ranges of R10; only SAMPLE_RATE may be too wide for 32 bits (log 6). -/
theorem paramWord_toNat (C : Config) (i : Fin 5) (h : paramValue C i < 2 ^ 32) : (paramWord C i).toNat = paramValue C i := by
  match i with
  | 0 =>
    have hN := C.nNodes_range
    have hL := C.bufLen_range
    simp only [paramWord, paramValue, toNat_append_eq_add, BitVec.toNat_ofNat]
    omega
  | 1 => exact Nat.mod_eq_of_lt h
  | 2 => exact Nat.mod_eq_of_lt h
  | 3 =>
    have hS := C.dlySlewShift_range
    have hR := C.relShiftBase_range
    have hA := C.attShiftBase_range
    have hF := C.fifoDepth_range
    have hB := C.dacBits_range
    simp only [paramWord, paramValue, toNat_append_eq_add, BitVec.toNat_ofNat]
    omega
  | 4 =>
    have h : C.sampleRate < 2 ^ 32 := h
    simp only [paramWord, if_pos h]
    exact Nat.mod_eq_of_lt h

/-- A read of PARAMi returns the parameters in their fields and changes nothing else. -/
theorem stepOf_param {s : State C} {addr : Word} {rest : List Event} (i : Fin 5)
    (hs : s.sched = .hostRead addr .b4 :: rest) (hi : busTarget C addr.toNat 4 = .reg (.param i)) :
    ∃ r : Word, stepOf s = .next { s with sched := rest, busData := r }
      ∧ (paramValue C i < 2 ^ 32 → r.toNat = paramValue C i) :=
  ⟨paramWord C i, stepOf_hostRead_reg hs hi, paramWord_toNat C i⟩

/-! ### The values stored in B bits -/

theorem zeroCode_toNat (C : Config) : (zeroCode C).toNat = 2 ^ (C.dacBits - 1) := by
  have hB := C.dacBits_range
  exact Nat.mod_eq_of_lt (Nat.pow_lt_pow_right (by decide) (by omega))

/-- R220: the clamp keeps the code within B bits, so storing it loses nothing. -/
theorem native_toNat (C : Config) (x : Sample) :
    ((native C x).toNat : Int) =
      clampInt (rshrRound x.toInt (14 - C.dacBits) + 2 ^ (C.dacBits - 1)) 0 (2 ^ C.dacBits - 1) := by
  have hp : (0 : Int) < 2 ^ C.dacBits := by positivity
  rw [native, BitVec.toNat_ofInt, Nat.cast_pow, Nat.cast_ofNat, Int.toNat_of_nonneg (Int.emod_nonneg _ hp.ne')]
  exact Int.emod_eq_of_lt (by unfold clampInt; omega) (by unfold clampInt; omega)

/-- Settles O60, with the reads of PARAM0 to PARAM4 and of the buffer windows, the values at reset, and this hardware's values. -/
theorem parametersAreArguments : Obligations.ParametersAreArguments := by
  refine ⟨fun C s addr rest hs => ⟨?_, fun j => ⟨fun ha => ?_, fun ha => ?_⟩⟩, fun C j => ?_, native_toNat,
    rfl, rfl, rfl, rfl, rfl, rfl, rfl, rfl, rfl, rfl, rfl, fun _ => rfl, fun i s => (perform_eq_exec i s).symm⟩
  · simp only [List.forall_mem_cons, List.not_mem_nil, false_implies, implies_true, and_true]
    refine ⟨?_, ?_, ?_, ?_, ?_⟩ <;> rintro rfl
    · exact stepOf_param 0 hs rfl
    · exact stepOf_param 1 hs rfl
    · exact stepOf_param 2 hs rfl
    · exact stepOf_param 3 hs rfl
    · exact stepOf_param 4 hs rfl
  · exact stepOf_hostRead_reg hs (busTarget_bufA j ha)
  · exact stepOf_hostRead_reg hs (busTarget_bufB j ha)
  · simp [State.resetOf, zeroCode_toNat]

end Sys2Proof.Machine
end

section
/-!
PROOF. The frame of the commands: each answers a next state that records one error with the command's own word or differs at most in
the node addressed and, for INSTALL, in the root (10_state R69; 41_delivery_engine R247; 60_exceptions R507).
-/

namespace Sys2Proof.Machine

variable {C : Config}

/-! ### The frame and the outcome of a command -/

/-- What a command that is not rejected leaves unchanged. -/
structure CommandFrame (i : Instr) (s t : State C) : Prop where
  rest : t = { s with nodes := t.nodes, rootIdx := t.rootIdx }
  nodes : ∀ k, i = .install k → t.nodes = s.nodes
  root : (∀ k, i ≠ .install k) → t.rootIdx = s.rootIdx
  others : ∀ j : Fin C.nNodes, (addressed i).toNat ≠ j.val → t.nodes[j] = s.nodes[j]
  common : (∀ k typ divc a b, i ≠ .cfgNode k typ divc a b) → ∀ j : Fin C.nNodes,
    t.nodes[j].body.type = s.nodes[j].body.type ∧ t.nodes[j].div = s.nodes[j].div
      ∧ t.nodes[j].childA = s.nodes[j].childA ∧ t.nodes[j].childB = s.nodes[j].childB

theorem CommandFrame.lib {i : Instr} {s t : State C} (h : CommandFrame i s t) : t.lib = s.lib := by rw [h.rest]

/-- w is the command word the encoder gives the command, the information word of its errors (R500, log 13). -/
def IsCommandWord (i : Instr) (w : Word) : Prop := ∃ c, encode i = .command c ∧ c.word = w

/-- The outcome of a command: the record of one CMD_ERR error with the command's own word, or a state within the frame. -/
def CommandOutcome (i : Instr) (s : State C) (o : Host.Outcome (State C) Fault Refusal) : Prop :=
  (∃ (e : ErrorCode) (w : Word), e.bit = .cmdErr ∧ IsCommandWord i w ∧ o = .next (recordError e w s))
    ∨ ∃ t, o = .next t ∧ CommandFrame i s t

variable {i : Instr} {w : Word} {s : State C}

theorem raiseCmd_outcome {e : ErrorCode} (hw : IsCommandWord i w) (he : e.bit = .cmdErr) :
    CommandOutcome i s (raiseCmd e w s) :=
  .inl ⟨e, w, he, hw, rfl⟩

/-- The node range check is the first of a command's own checks (R150 step 3). -/
theorem onNode_outcome {k : BitVec 8} {f : Fin C.nNodes → Host.Outcome (State C) Fault Refusal} (hw : IsCommandWord i w)
    (hf : ∀ j, k.toNat = j.val → CommandOutcome i s (f j)) : CommandOutcome i s (onNode w k s f) := by
  unfold onNode
  split
  · exact raiseCmd_outcome hw rfl
  · exact hf _ ((nodeIdx?_eq_some _ _).1 ‹_›)

/-- New fields of the addressed node's own type change that node alone and keep its common fields (R69). -/
theorem setBody_outcome {j : Fin C.nNodes} {b b' : NodeBody C} (hi : ∀ k, i ≠ .install k) (hj : (addressed i).toNat = j.val)
    (hb : s.nodes[j].body = b) (ht : b'.type = b.type) : CommandOutcome i s (.next (s.setBody j b')) := by
  refine .inr ⟨_, rfl, rfl, fun k hk => absurd hk (hi k), fun _ => rfl, fun l hl => ?_, fun _ l => ⟨?_, setBody_common ..⟩⟩
  · exact setBody_get_other _ _ _ _ fun h => hl (h ▸ hj)
  · by_cases h : l = j
    · subst h
      simp [State.setBody, ht, ← hb]
    · exact congrArg (·.body.type) (setBody_get_other _ _ _ _ h)

/-! ### Each command -/

theorem execNop_outcome (s : State C) : CommandOutcome .nop s (execNop s) :=
  .inr ⟨s, rfl, rfl, nofun, fun _ => rfl, fun _ _ => rfl, fun _ _ => ⟨rfl, rfl, rfl, rfl⟩⟩

theorem execCfgNode_outcome (k : BitVec 8) (typ : BitVec 4) (divc : BitVec 2) (a b : BitVec 8) (s : State C) :
    CommandOutcome (.cfgNode k typ divc a b) s (execCfgNode k typ divc a b s) :=
  onNode_outcome ⟨_, rfl, rfl⟩ fun j hj => by
    split
    · exact raiseCmd_outcome ⟨_, rfl, rfl⟩ rfl
    · split
      · refine .inr ⟨_, rfl, rfl, nofun, fun _ => rfl, fun l hl => ?_, fun h => absurd rfl (h k typ divc a b)⟩
        have hne : j.val ≠ l.val := fun h => hl (hj.trans h)
        simp [hne]
      · exact raiseCmd_outcome ⟨_, rfl, rfl⟩ rfl

theorem execInstall_outcome (k : BitVec 8) (s : State C) : CommandOutcome (.install k) s (execInstall k s) :=
  onNode_outcome ⟨_, rfl, rfl⟩ fun _ _ =>
    .inr ⟨_, rfl, rfl, fun _ _ => rfl, fun h => absurd rfl (h k), fun _ _ => rfl, fun _ _ => ⟨rfl, rfl, rfl, rfl⟩⟩

theorem execSmpLoad_outcome (k : BitVec 8) (base len : Word) (s : State C) :
    CommandOutcome (.smpLoad k base len) s (execSmpLoad k base len s) :=
  onNode_outcome ⟨_, rfl, rfl⟩ fun _ hj => by
    split
    · rename_i hb
      split
      · exact setBody_outcome nofun hj hb rfl
      · exact raiseCmd_outcome ⟨_, rfl, rfl⟩ rfl
    · rename_i hb
      split
      · exact setBody_outcome nofun hj hb rfl
      · exact raiseCmd_outcome ⟨_, rfl, rfl⟩ rfl
    · exact raiseCmd_outcome ⟨_, rfl, rfl⟩ rfl

/-- The commands that only store fields of one node share one argument: they check its type and replace its own fields. -/
theorem perform_outcome (hi : i.isCommand = true) (s : State C) : CommandOutcome i s (perform i s) := by
  cases i with
  | nop => exact execNop_outcome s
  | cfgNode k typ divc a b => exact execCfgNode_outcome k typ divc a b s
  | install k => exact execInstall_outcome k s
  | smpLoad k base len => exact execSmpLoad_outcome k base len s
  | oscNote | smpPlay | loopSetpos | loopGate | fltSet | dlySetDelay | dlySetFeedback =>
    refine onNode_outcome ⟨_, rfl, rfl⟩ fun _ hj => ?_
    split
    · rename_i hb
      exact setBody_outcome nofun hj hb rfl
    · exact raiseCmd_outcome ⟨_, rfl, rfl⟩ rfl
  | _ => cases hi

/-- Settles O18: a command ends in the record of its error or in a state within its frame, and both keep LIB. -/
theorem commandsChangeOnlyTheirNode : Obligations.CommandsChangeOnlyTheirNode := by
  intro i s hi
  rw [← perform_eq_exec]
  rcases perform_outcome hi s with ⟨e, _, he, ⟨c, hc, rfl⟩, ho⟩ | ⟨t, ho, hf⟩
  · exact ⟨_, ho, fun a => by rw [recordError_lib], .inl ⟨e, c, he, hc, rfl⟩⟩
  · exact ⟨t, ho, fun a => by rw [hf.lib], .inr ⟨hf.rest, hf.nodes, hf.root, hf.others, hf.common⟩⟩

end Sys2Proof.Machine
end

section
/-!
PROOF. This hardware's reset state and invariant, the fields of STATUS, and what a host write of a register stores (10_state R40,
R46, R47, R57, R59, R80).
-/

namespace Sys2Proof.Machine

variable {C : Config}

/-! ### The reset state and the invariant -/

/-- Settles O40, field by field; with nothing listed in LIB a read gives the power-on byte. -/
theorem powerOnStateIsTheResetState : Obligations.PowerOnStateIsTheResetState := by
  refine ⟨rfl, rfl, rfl, rfl, rfl, rfl, rfl, rfl, rfl, rfl, rfl, rfl, rfl, rfl, rfl, rfl, rfl, rfl, fun i => ?_, fun _ => rfl⟩
  simp [State.reset, State.resetOf, Node.atReset]

/-- Settles O41: the reset state of every configuration meets the invariant. -/
theorem resetMeetsTheInvariant : Obligations.ResetMeetsTheInvariant := (inv_iff _).2 (resetOf_invariant _)

/-- Settles O42: this hardware's step is the step of its configuration, which keeps the invariant agent by agent. -/
theorem stepKeepsTheInvariant : Obligations.StepKeepsTheInvariant := fun s t hs ht =>
  (inv_iff t).2 ((stepOf_keeps ((inv_iff s).1 hs)).of_next ht)

/-! ### The STATUS word -/

/-- Bit b of STATUS, by the fields R46 lists; the FIFO level stands in bits [23:16]. -/
def statusBit (s : State C) (b : Nat) : Bool :=
  if b = 0 then s.running
  else if b = 1 then s.inflight.bit
  else if b = 2 then s.fillReq
  else if b < 9 then s.sticky.getLsbD (b - 3)
  else if b = 9 then s.periphReady
  else decide (16 ≤ b) && (BitVec.ofNat 8 s.fifo.length).getLsbD (b - 16)

theorem statusBit_high (s : State C) {b : Nat} (h : 10 ≤ b) :
    statusBit s b = (decide (16 ≤ b) && (BitVec.ofNat 8 s.fifo.length).getLsbD (b - 16)) := by
  rw [statusBit, if_neg (by omega), if_neg (by omega), if_neg (by omega), if_neg (by omega), if_neg (by omega)]

theorem getLsbD_statusWord (s : State C) (b : Nat) : (statusWord s).getLsbD b = statusBit s b := by
  rw [statusWord, BitVec.getLsbD_append]
  simp only [BitVec.getLsbD_append, BitVec.getLsbD_ofBool, BitVec.getLsbD_zero, Nat.sub_sub]
  rcases Nat.lt_or_ge b 10 with h | h
  · interval_cases b <;> rfl
  · rw [statusBit_high s h, if_neg (by omega), if_neg (by omega), if_neg (by omega), if_neg (by omega), if_neg (by omega)]
    grind

theorem getLsbD_statusWord_sticky (s : State C) {b : Nat} (h : b < 6) :
    (statusWord s).getLsbD (b + 3) = s.sticky.getLsbD b := by
  rw [getLsbD_statusWord]
  simp [statusBit, h]

theorem inflight_bit_iff (x : BufId) : x.bit = true ↔ x = .B := by cases x <;> decide

theorem statusWord_bits_10_15 (s : State C) : (statusWord s).extractLsb' 10 6 = 0#6 := by
  ext i hi
  rw [BitVec.getElem_extractLsb', getLsbD_statusWord, statusBit_high s (by omega), decide_eq_false (by omega)]
  simp

theorem statusWord_bits_16_23 (s : State C) : (statusWord s).extractLsb' 16 8 = BitVec.ofNat 8 s.fifo.length := by
  ext i hi
  rw [BitVec.getElem_extractLsb', getLsbD_statusWord, statusBit_high s (by omega)]
  simp [hi]

theorem statusWord_bits_24_31 (s : State C) : (statusWord s).extractLsb' 24 8 = 0#8 := by
  ext i hi
  rw [BitVec.getElem_extractLsb', getLsbD_statusWord, statusBit_high s (by omega), BitVec.getLsbD_of_ge _ _ (by omega)]
  simp

/-- At reset only bit 9 is set, which shows the input PERIPH_READY (R46, log 3). -/
theorem statusWord_reset : statusWord State.reset = BitVec.twoPow 32 9 := rfl

/-! ### Host writes of registers -/

/-- A write that reaches a register has the register's own effect, and its entry leaves the schedule (R110). -/
theorem stepOf_hostWrite_reg {s : State C} {addr v : Word} {rest : List Event} {r : Reg C}
    (hs : s.sched = .hostWrite addr .b4 v :: rest) (hr : busTarget C addr.toNat 4 = .reg r) :
    stepOf s = writeReg r v { s with sched := rest } := by
  rw [stepOf_cons s _ rest hs]
  simp only [runEvent, hostWrite, AccessSize.bytes, hr]

theorem getLsbD_clearSticky (v : Word) (s : State C) {b : Nat} (h : b < 6) :
    (clearSticky v s).sticky.getLsbD b = (s.sticky.getLsbD b && !v.getLsbD (b + 3)) := by
  simp [h, Nat.add_comm]

/-- Settles O49, with the bits of the STATUS word and the W1C write. -/
theorem statusShowsTheFlags : Obligations.StatusShowsTheFlags := by
  refine ⟨fun s hlen => ⟨getLsbD_statusWord s 0, ?_, getLsbD_statusWord s 2, fun b hb => getLsbD_statusWord_sticky s hb,
    getLsbD_statusWord s 9, statusWord_bits_10_15 s, ?_, statusWord_bits_24_31 s⟩, fun s v rest hs => ?_, fun b _ h9 => ?_⟩
  · exact (getLsbD_statusWord s 1).symm ▸ inflight_bit_iff s.inflight
  · rw [statusWord_bits_16_23, BitVec.toNat_ofNat]
    omega
  · exact ⟨_, stepOf_hostWrite_reg hs busTarget_status, fun b hb => getLsbD_clearSticky v s hb⟩
  · simp [statusWord_reset, BitVec.getLsbD_twoPow, Ne.symm h9]

/-- The read-only registers at the offsets R130 gives them ignore what is written (R40). -/
theorem writeReg_readOnly {addr : Word} (h : addr ∈ [0x000#32, 0x014#32, 0x018#32, 0x01C#32, 0x020#32, 0x024#32, 0x028#32,
      0x02C#32, 0x030#32, 0x034#32, 0x038#32, 0x03C#32]) :
    ∃ r : Reg C, busTarget C addr.toNat 4 = .reg r ∧ ∀ v (s : State C), writeReg r v s = .next s := by
  simp only [List.mem_cons, List.not_mem_nil, or_false] at h
  rcases h with rfl | rfl | rfl | rfl | rfl | rfl | rfl | rfl | rfl | rfl | rfl | rfl <;> exact ⟨_, rfl, fun _ _ => rfl⟩

/-- Settles O51: each address reaches its register, and the register's own write does the rest. -/
theorem registerWritesStoreOrAreIgnored : Obligations.RegisterWritesStoreOrAreIgnored := by
  intro s addr v rest hs
  refine ⟨?_, ?_, ?_, fun h => ?_, fun j h => ?_⟩
  · rintro rfl
    exact stepOf_hostWrite_reg (r := .irqEn) hs rfl
  · rintro rfl
    exact stepOf_hostWrite_reg (r := .cmdArg0) hs rfl
  · rintro rfl
    exact stepOf_hostWrite_reg (r := .cmdArg1) hs rfl
  · obtain ⟨r, hr, hw⟩ := writeReg_readOnly h
    exact (stepOf_hostWrite_reg hs hr).trans (hw v _)
  · rcases h with h | h
    · exact stepOf_hostWrite_reg hs (busTarget_bufA j h)
    · exact stepOf_hostWrite_reg hs (busTarget_bufB j h)

end Sys2Proof.Machine
end

section
/-!
PROOF. The host bus: what an access of each form reaches (20_memory R110, R130), what a read of every register returns, which accesses
are rejected (R112), and the little-endian accesses of LIB (R111).
-/

namespace Sys2Proof.Machine

variable {C : Config}

/-! ### What an access reaches -/

theorem AccessSize.bytes_pos (n : AccessSize) : 0 < n.bytes := by cases n <;> decide

theorem AccessSize.bytes_le_four (n : AccessSize) : n.bytes ≤ 4 := by cases n <;> decide

/-- The word indices of the register region at no register and in no BUF window (R130). -/
theorem regAt?_hole {q : Nat} (h : (19 ≤ q ∧ q < 0x100) ∨ (0x100 + C.bufLen ≤ q ∧ q < 0x200) ∨ 0x200 + C.bufLen ≤ q) :
    regAt? C q = none := by
  obtain ⟨k, rfl⟩ := Nat.exists_eq_add_of_le' (show 19 ≤ q by omega)
  simp only [regAt?]
  split
  · rw [dif_neg (by omega)]
  · split
    · rw [dif_neg (by omega)]
    · rfl

theorem busTarget_reg_misaligned {addr n : Nat} (hlt : addr + n ≤ 0x1000) (h : n ≠ 4 ∨ addr % 4 ≠ 0) :
    busTarget C addr n = .bad .busSizeAlign := by
  rw [busTarget, if_pos hlt, if_pos h]

theorem busTarget_hole {addr : Nat} (hlt : addr + 4 ≤ 0x1000) (hal : addr % 4 = 0) (hr : regAt? C (addr / 4) = none) :
    busTarget C addr 4 = .bad .busUnmapped := by
  simp [busTarget, hlt, hal, hr]

/-- Inside the LIB window the alignment alone decides (R110, R112). -/
theorem busTarget_libWindow {addr n : Nat} (hlo : Config.libWindow ≤ addr) (hhi : addr + n ≤ Config.libWindow + C.libBytes) :
    busTarget C addr n = if addr % n ≠ 0 then .bad .busSizeAlign else .lib (addr - Config.libWindow) := by
  have h0 : 0x1000 < Config.libWindow := by decide
  rw [busTarget, if_neg (by omega), if_pos ⟨hlo, hhi⟩]

/-- The first host address above this hardware's LIB window (R101). -/
theorem libWindow_end : Config.libWindow + Config.hardware.libBytes = 0x200000 := rfl

theorem busTarget_outside {addr n : Nat} (hreg : 0x1000 < addr + n)
    (hlib : addr < Config.libWindow ∨ Config.libWindow + C.libBytes < addr + n) :
    busTarget C addr n = .bad .busUnmapped := by
  rw [busTarget, if_neg (by omega), if_neg (by omega)]

/-! ### Reads of the registers -/

/-- The registers at the byte offsets R130 gives them. -/
def registerMap (C : Config) : List (Word × Reg C) :=
  [(0x000#32, .id), (0x004#32, .ctrl), (0x008#32, .status), (0x00C#32, .irqEn), (0x010#32, .errCause), (0x014#32, .errInfo),
    (0x018#32, .completions), (0x01C#32, .ticks), (0x020#32, .fillCycles), (0x024#32, .root), (0x028#32, .param 0),
    (0x02C#32, .param 1), (0x030#32, .param 2), (0x034#32, .param 3), (0x038#32, .param 4), (0x03C#32, .dacOut),
    (0x040#32, .cmdArg0), (0x044#32, .cmdArg1), (0x048#32, .cmdWord)]

theorem busTarget_registerMap {p : Word × Reg C} (hp : p ∈ registerMap C) : busTarget C p.1.toNat 4 = .reg p.2 := by
  fin_cases hp <;> dsimp only <;> rfl

/-- Settles O50: the listed words are what the registers of R130 read as, at their offsets. -/
theorem registerReadsReturnTheState : Obligations.RegisterReadsReturnTheState := by
  intro s addr rest hs
  refine ⟨fun p hp ha => ?_, fun j => ⟨fun h => ?_, fun h => ?_⟩⟩
  · change p ∈ (registerMap Config.hardware).map fun q => (q.1, readReg q.2 s) at hp
    obtain ⟨q, hq, rfl⟩ := List.mem_map.1 hp
    exact stepOf_hostRead_reg hs (ha ▸ busTarget_registerMap hq)
  · exact stepOf_hostRead_reg hs (busTarget_bufA j h)
  · exact stepOf_hostRead_reg hs (busTarget_bufB j h)

/-! ### Rejected accesses -/

/-- An access the bus rejects is not performed: it leaves the record of its error and address, and a read returns 0 (R110, R112). -/
theorem stepOf_rejected {s : State C} {addr : Word} {n : AccessSize} {e : ErrorCode}
    (hb : busTarget C addr.toNat n.bytes = .bad e) (v : Word) (rest : List Event) :
    (s.sched = .hostRead addr n :: rest →
      stepOf s = .next { recordError e addr { s with sched := rest } with busData := 0#32 })
    ∧ (s.sched = .hostWrite addr n v :: rest → stepOf s = .next (recordError e addr { s with sched := rest })) := by
  refine ⟨fun hs => ?_, fun hs => ?_⟩ <;> rw [stepOf_cons s _ rest hs]
  · simp only [runEvent, hostRead, hb]
    rfl
  · simp only [runEvent, hostWrite, hb]

/-- Settles O52: each of the two regions answers BUS_SIZE_ALIGN. -/
theorem misalignedAccessesAreRejected : Obligations.MisalignedAccessesAreRejected := by
  rintro s addr v n rest (⟨hlt, h⟩ | ⟨hlo, hhi, h⟩) <;> have hn := n.bytes_pos
  · exact stepOf_rejected (busTarget_reg_misaligned (by omega) h) v rest
  · exact stepOf_rejected ((busTarget_libWindow hlo (by rw [libWindow_end]; omega)).trans (if_pos h)) v rest

/-- Settles O53: outside both regions, and in the holes of the register region, nothing is reached. -/
theorem unmappedAccessesAreRejected : Obligations.UnmappedAccessesAreRejected := by
  rintro s addr v n rest (⟨hreg, hlib⟩ | ⟨rfl, hal, h⟩)
  · exact stepOf_rejected (busTarget_outside (by omega) (hlib.imp_right fun h => by rw [libWindow_end]; omega)) v rest
  · refine stepOf_rejected (busTarget_hole (by omega) hal (regAt?_hole ?_)) v rest
    show _ ∨ (0x100 + 96 ≤ _ ∧ _) ∨ 0x200 + 96 ≤ _
    omega

/-! ### LIB accesses -/

theorem stepOf_hostRead_lib {s : State C} {addr : Word} {n : AccessSize} {rest : List Event} {a : Nat}
    (hs : s.sched = .hostRead addr n :: rest) (hb : busTarget C addr.toNat n.bytes = .lib a) :
    stepOf s = .next { s with sched := rest, busData := BitVec.ofNat 32 (libReadN s.lib a n.bytes) } := by
  rw [stepOf_cons s _ rest hs]
  simp only [runEvent, hostRead, hb]

theorem stepOf_hostWrite_lib {s : State C} {addr v : Word} {n : AccessSize} {rest : List Event} {a : Nat}
    (hs : s.sched = .hostWrite addr n v :: rest) (hb : busTarget C addr.toNat n.bytes = .lib a) :
    stepOf s = .next { s with sched := rest, lib := libWriteN s.lib a v.toNat n.bytes } := by
  rw [stepOf_cons s _ rest hs]
  simp only [runEvent, hostWrite, hb]

/-- Data bits [8i+7:8i] as a digit in base 256, the form in which a LIB access takes its bytes (R111). -/
theorem extractLsb'_byte (v : Word) (i : Nat) : v.extractLsb' (8 * i) 8 = BitVec.ofNat 8 (v.toNat / 256 ^ i) := by
  rw [BitVec.extractLsb', Nat.shiftRight_eq_div_pow, Nat.pow_mul]

theorem libReadN_lt (m : Lib) (a n : Nat) : libReadN m a n < 256 ^ n := by
  induction n generalizing a with
  | zero => exact Nat.one_pos
  | succ n ih =>
    have hb : (libRead8 m a).toNat < 256 := (libRead8 m a).isLt
    have hr := ih (a + 1)
    rw [libReadN, Nat.pow_succ]
    omega

/-- Digit i in base 256 of the number read is the byte at a + i, and 0 above the bytes read. -/
theorem libReadN_byte (m : Lib) (a n i : Nat) :
    BitVec.ofNat 8 (libReadN m a n / 256 ^ i) = if i < n then libRead8 m (a + i) else 0#8 := by
  induction n generalizing a i with
  | zero => simp [libReadN]
  | succ n ih =>
    have hb : (libRead8 m a).toNat < 256 := (libRead8 m a).isLt
    cases i with
    | zero =>
      rw [Nat.pow_zero, Nat.div_one, if_pos n.succ_pos, Nat.add_zero, libReadN]
      exact BitVec.eq_of_toNat_eq ((Nat.add_mul_mod_self_left _ 256 _).trans (Nat.mod_eq_of_lt hb))
    | succ i =>
      have hd : libReadN m a (n + 1) / 256 ^ (i + 1) = libReadN m (a + 1) n / 256 ^ i := by
        rw [libReadN, Nat.pow_succ', ← Nat.div_div_eq_div_mul, Nat.add_mul_div_left _ _ (by decide), Nat.div_eq_of_lt hb,
          Nat.zero_add]
      rw [hd, ih, Nat.add_right_comm]
      simp [Nat.add_assoc]

/-- The word a LIB read returns loses nothing of the at most 4 bytes read (R110). -/
theorem toNat_libReadN (m : Lib) (a : Nat) (n : AccessSize) :
    (BitVec.ofNat 32 (libReadN m a n.bytes)).toNat = libReadN m a n.bytes :=
  Nat.mod_eq_of_lt ((libReadN_lt m a n.bytes).trans_le (Nat.pow_le_pow_right (n := 256) (by decide) n.bytes_le_four))

/-- Settles O54: the access reaches LIB at a, and its bytes are the digits in base 256 of its data. -/
theorem libAccessesAreLittleEndian : Obligations.LibAccessesAreLittleEndian := by
  intro s addr v n rest a haddr ha hal
  have hb : busTarget Config.hardware addr.toNat n.bytes = .lib a := by
    rw [busTarget_libWindow (haddr ▸ Nat.le_add_right _ _) (by rw [libWindow_end]; omega), if_neg (not_not.2 hal), haddr,
      Nat.add_sub_cancel_left]
  refine ⟨fun hs => ⟨_, stepOf_hostWrite_lib hs hb, libWriteN_wf _ _ _ _ ha, fun i hi => ?_, fun x hx => ?_⟩,
    fun hs => ⟨_, stepOf_hostRead_lib hs hb, fun i _ => ?_⟩⟩
  · rw [libRead8_writeN_inside _ _ _ _ _ hi, extractLsb'_byte]
  · exact libRead8_writeN_outside _ _ _ _ _ hx
  · rw [extractLsb'_byte, toNat_libReadN, libReadN_byte]

end Sys2Proof.Machine
end

section
/-!
PROOF. The decoder and the encoder are inverse to each other on the words read, the spec's own words decode, and a reserved opcode
is rejected before anything else (30_encoding R140 to R152).
-/

namespace Sys2Proof

/-! ### Words put together from their fields -/

/-- Three adjacent fields of x, from bit 0 up, put together again. -/
theorem append_three_fields {v : Nat} (x : BitVec v) (l m n : Nat) :
    x.extractLsb' (n + m) l ++ x.extractLsb' n m ++ x.extractLsb' 0 n = x.extractLsb' 0 (l + m + n) := by
  rw [BitVec.extractLsb'_append_extractLsb'_eq_extractLsb' rfl,
    BitVec.extractLsb'_append_extractLsb'_eq_extractLsb' (Nat.zero_add n).symm]

/-- R140: a command word whose reserved half word is 0 is its opcode and its node. -/
theorem cmdWord_nodeOf {w : Word} {opc : BitVec 8} (hop : (opcOf w).toNat = opc.toNat) (hr : rsvdOf w = 0#16) :
    cmdWord opc (nodeOf w) = w := by
  rw [cmdWord, ← BitVec.eq_of_toNat_eq hop, ← hr]
  exact (append_three_fields w 16 8 8).trans BitVec.extractLsb'_eq_self

theorem hiHalf_append_loHalf (a : Word) : (hiHalf a ++ loHalf a : Word) = a :=
  (BitVec.extractLsb'_append_extractLsb'_eq_extractLsb' rfl).trans BitVec.extractLsb'_eq_self

/-- R142: an argument word whose reserved high half is 0 is its low half. -/
theorem argHalf_loHalf {a : Word} (h : hiHalf a = 0#16) : argHalf (loHalf a) = a := by
  rw [argHalf, ← h, hiHalf_append_loHalf]

/-! ### The argument words of CFG_NODE (R142, R143) -/

section CfgNode

variable (typ : BitVec 4) (divc : BitVec 2) (a b : BitVec 8)

@[simp] theorem cfgNode_arg0_typ : (0#26 ++ divc ++ typ : Word).extractLsb' 0 4 = typ :=
  BitVec.extractLsb'_append_eq_right

@[simp] theorem cfgNode_arg0_divc : (0#26 ++ divc ++ typ : Word).extractLsb' 4 2 = divc :=
  (BitVec.extractLsb'_append_eq_of_le (by decide)).trans BitVec.extractLsb'_append_eq_right

@[simp] theorem cfgNode_arg0_rsvd : (0#26 ++ divc ++ typ : Word).extractLsb' 6 26 = 0#26 :=
  (BitVec.extractLsb'_append_eq_of_le (by decide)).trans BitVec.extractLsb'_append_eq_left

@[simp] theorem cfgNode_arg1_childA : (0#16 ++ b ++ a : Word).extractLsb' 0 8 = a := opcOf_cmdWord a b

@[simp] theorem cfgNode_arg1_childB : (0#16 ++ b ++ a : Word).extractLsb' 8 8 = b := nodeOf_cmdWord a b

@[simp] theorem cfgNode_arg1_rsvd : (0#16 ++ b ++ a : Word).extractLsb' 16 16 = 0#16 := rsvdOf_cmdWord a b

theorem cfgNode_arg0_of_fields {w : Word} (h : w.extractLsb' 6 26 = 0#26) :
    (0#26 ++ w.extractLsb' 4 2 ++ w.extractLsb' 0 4 : Word) = w := by
  rw [← h]
  exact (append_three_fields w 26 2 4).trans BitVec.extractLsb'_eq_self

theorem cfgNode_arg1_of_fields {w : Word} (h : w.extractLsb' 16 16 = 0#16) :
    (0#16 ++ w.extractLsb' 8 8 ++ w.extractLsb' 0 8 : Word) = w :=
  cmdWord_nodeOf (opc := opcOf w) rfl h

end CfgNode

end Sys2Proof

namespace Sys2Proof.Machine

/-! ### The decoder and the encoder -/

/-- A row that decodes passed the check of its reserved bits (R150 step 2). -/
theorem clear_of_whenClear_eq_ok {clear : Bool} {i j : Instr} (h : whenClear clear i = .ok j) : clear = true := by
  cases clear with
  | true => rfl
  | false => cases h

/-- Settles O1, by the constructors: a command from the fields of its words, a produce operation from its type code. -/
theorem encodedInstructionDecodesBack : Obligations.EncodedInstructionDecodesBack := by
  intro i
  cases i with
  | nop | cfgNode | install | oscNote | smpLoad | smpPlay | loopSetpos | loopGate | fltSet | dlySetDelay | dlySetFeedback =>
    simp [decodeEncoded, encode, decode]
  | produceSilence k n => exact decodeCall_code .silence k n
  | produceOsc k n => exact decodeCall_code .osc k n
  | producePlayer k n => exact decodeCall_code .player k n
  | produceLooper k n => exact decodeCall_code .looper k n
  | produceMixer k n => exact decodeCall_code .mixer k n
  | produceFilter k n => exact decodeCall_code .filter k n
  | produceDelay k n => exact decodeCall_code .delay k n

/-- Settles O2, by the rows of the decoder: the reserved bits it checked are those the encoder fills with 0. -/
theorem decodedCommandReencodes : Obligations.DecodedCommandReencodes := by
  intro c i h
  unfold decode at h
  dsimp only at h
  split at h
  case h_12 => cases h
  all_goals
    rename_i hop
    have hclear := clear_of_whenClear_eq_ok h
    obtain rfl := whenClear_eq_ok h
    simp only [Bool.and_eq_true, beq_iff_eq] at hclear
  case h_1 => -- NOP
    obtain ⟨hr, hk⟩ := hclear
    have hw : cmdWord 0x00#8 (nodeOf c.word) = c.word := cmdWord_nodeOf hop hr
    exact ⟨_, rfl, hk ▸ hw, nofun, nofun⟩
  case h_2 => -- CFG_NODE
    obtain ⟨⟨hr, h0⟩, h1⟩ := hclear
    exact ⟨_, rfl, cmdWord_nodeOf hop hr, fun _ => cfgNode_arg0_of_fields h0, fun _ => cfgNode_arg1_of_fields h1⟩
  case h_3 => -- INSTALL
    exact ⟨_, rfl, cmdWord_nodeOf hop hclear, nofun, nofun⟩
  case h_4 | h_5 => -- OSC_NOTE, SMP_LOAD
    exact ⟨_, rfl, cmdWord_nodeOf hop hclear, fun _ => rfl, fun _ => rfl⟩
  case h_6 | h_10 => -- SMP_PLAY, DLY_SET_DELAY
    exact ⟨_, rfl, cmdWord_nodeOf hop hclear, fun _ => rfl, nofun⟩
  case h_7 | h_11 => -- LOOP_SETPOS, DLY_SET_FEEDBACK
    obtain ⟨hr, h0⟩ := hclear
    exact ⟨_, rfl, cmdWord_nodeOf hop hr, fun _ => argHalf_loHalf h0, nofun⟩
  case h_8 => -- LOOP_GATE
    exact ⟨_, rfl, cmdWord_nodeOf hop hclear, fun _ => hiHalf_append_loHalf _, fun _ => hiHalf_append_loHalf _⟩
  case h_9 => -- FLT_SET
    obtain ⟨⟨hr, h0⟩, h1⟩ := hclear
    exact ⟨_, rfl, cmdWord_nodeOf hop hr, fun _ => argHalf_loHalf h0, fun _ => argHalf_loHalf h1⟩

/-- Settles O3: each of the written words is evaluated. -/
theorem specWordsDecode : Obligations.SpecWordsDecode := by
  unfold Obligations.SpecWordsDecode
  decide

/-- R150 step 1, R151: no row of the decoder takes a reserved opcode. -/
theorem decode_reservedOpcode {c : Command} (h : 0x0B ≤ (opcOf c.word).toNat) : decode c = .error .reservedOpcode := by
  unfold decode
  dsimp only
  split
  case h_12 => rfl
  all_goals omega

/-- Settles O4: the decode fails at its first check, and applying the command records that. -/
theorem reservedOpcodesAreRejected : Obligations.ReservedOpcodesAreRejected := by
  intro c s h
  rw [applyCommand, decode_reservedOpcode h]
  rfl

end Sys2Proof.Machine
end

section
/-!
PROOF. The fixed-point layer: the rounding shift as the one integer between its two bounds, the slew step at rest in the dead band,
and the DAC converter, level by level (40_fixed_point R210, R212, R220, R221).
-/

namespace Sys2Proof.Machine

open Sys2Proof.Config (hardware)

/-! ### The rounding shift (R210) -/

/-- R210: the rounding shift is the one integer whose half-open unit interval holds x / 2^s + 1/2. -/
theorem rshrRound_succ_eq_iff (x r : Int) (s : Nat) :
    rshrRound x (s + 1) = r ↔ r * 2 ^ (s + 1) ≤ x + 2 ^ s ∧ x + 2 ^ s < (r + 1) * 2 ^ (s + 1) := by
  have hp : (0 : Int) < 2 ^ (s + 1) := by positivity
  rw [rshrRound, ← Int.le_ediv_iff_mul_le hp, ← Int.ediv_lt_iff_lt_mul hp]
  omega

theorem rshrRound_mono (s : Nat) {x y : Int} (h : x ≤ y) : rshrRound x s ≤ rshrRound y s := by
  cases s with
  | zero => exact h
  | succ s => exact Int.ediv_le_ediv (by positivity) (by omega)

/-- Settles O55, by the two bounds that fix the rounding shift; the examples are evaluated. -/
theorem roundingShiftRoundsHalfUp : Obligations.RoundingShiftRoundsHalfUp := by
  refine ⟨fun _ => rfl, fun x s hs => ?_, by decide⟩
  obtain ⟨s, rfl⟩ := Nat.exists_eq_add_of_le' hs
  exact (rshrRound_succ_eq_iff x _ s).mp rfl

/-! ### The slew step (R212) -/

/-- R212: the rounding shift is 0 exactly in the dead band. -/
theorem rshrRound_eq_zero_iff (d : Int) {s : Nat} (hs : 1 ≤ s) :
    rshrRound d s = 0 ↔ -(2 ^ (s - 1)) ≤ d ∧ d < 2 ^ (s - 1) := by
  obtain ⟨s, rfl⟩ := Nat.exists_eq_add_of_le' hs
  rw [rshrRound_succ_eq_iff, Int.pow_succ, Nat.add_sub_cancel]
  omega

theorem rshrRound_ne_zero_pos_iff {d : Int} {s : Nat} (h : rshrRound d s ≠ 0) : 0 < rshrRound d s ↔ 0 < d := by
  obtain ⟨hlo, hhi⟩ := rshrRound_between d s
  omega

theorem abs_rshrRound_le (d : Int) (s : Nat) : |rshrRound d s| ≤ |d| := by
  obtain ⟨hlo, hhi⟩ := rshrRound_between d s
  exact abs_le.mpr ⟨(le_min (neg_nonpos.mpr (abs_nonneg d)) (neg_abs_le d)).trans hlo,
    hhi.trans (max_le (abs_nonneg d) (le_abs_self d))⟩

/-- R212: a slew step is at rest exactly when the rounded step is 0. -/
theorem slew_eq_self_iff (v t : Word) (s : Nat) : slew v t s = v ↔ rshrRound ((t.toNat : Int) - v.toNat) s = 0 := by
  have h := slew_toNat v t s
  rw [← BitVec.toNat_inj]
  omega

/-- Settles O56: a rounding shift lies between 0 and its argument, so a slew step lies between the old value and the target. -/
theorem slewNeverOvershoots : Obligations.SlewNeverOvershoots := by
  refine ⟨fun d s hs => ⟨rshrRound_eq_zero_iff d hs, rshrRound_ne_zero_pos_iff, abs_rshrRound_le d s⟩, fun v t s hs => ?_⟩
  obtain ⟨hlo, hhi⟩ := slew_between v t s
  exact ⟨hlo, hhi, (slew_eq_self_iff v t s).trans (rshrRound_eq_zero_iff _ hs)⟩

/-! ### The DAC converter (R220, R221) -/

/-- R220 at B = 10. -/
theorem native_hardware_toNat (x : Sample) :
    ((native hardware x).toNat : Int) = clampInt (rshrRound x.toInt 4 + 512) 0 1023 :=
  native_toNat hardware x

theorem clampInt_mono {v w : Int} (lo hi : Int) (h : v ≤ w) : clampInt v lo hi ≤ clampInt w lo hi :=
  min_le_min_right hi (max_le_max_right lo h)

theorem native_hardware_mono {x y : Sample} (h : x.toInt ≤ y.toInt) :
    (native hardware x).toNat ≤ (native hardware y).toNat := by
  rw [← Int.ofNat_le, native_hardware_toNat, native_hardware_toNat]
  exact clampInt_mono 0 1023 (Int.add_le_add_right (rshrRound_mono 4 h) 512)

/-- A code of this hardware is known by its value. -/
theorem native_hardware_eq {x : Sample} {c : BitVec 10} (h : clampInt (rshrRound x.toInt 4 + 512) 0 1023 = c.toNat) :
    native hardware x = c :=
  BitVec.eq_of_toNat_eq (Int.ofNat_inj.mp ((native_hardware_toNat x).trans h))

/-- R220: code c holds the Samples within half a step of 16 · (c − 512), the upper end left out. -/
theorem native_hardware_eq_of_level {x : Sample} {c : BitVec 10} (hlo : ((c.toNat : Int) - 512) * 16 ≤ x.toInt + 8)
    (hhi : x.toInt + 8 < ((c.toNat : Int) - 511) * 16) : native hardware x = c := by
  have hr : rshrRound x.toInt 4 = c.toNat - 512 := (rshrRound_succ_eq_iff _ _ 3).mpr ⟨hlo, by omega⟩
  exact native_hardware_eq (by rw [hr, clampInt]; omega)

/-- R221: the converter saturates at the largest code. -/
theorem native_hardware_top {x : Sample} (h : 8168 ≤ x.toInt) : native hardware x = 1023#10 := by
  have hr : 511 ≤ rshrRound x.toInt 4 := rshrRound_mono 4 h
  exact native_hardware_eq (by rw [clampInt, BitVec.toNat_ofNat]; omega)

/-- R221: the converter saturates at code 0. -/
theorem native_hardware_bottom {x : Sample} (h : x.toInt ≤ -8185) : native hardware x = 0#10 := by
  have hr : rshrRound x.toInt 4 ≤ -512 := rshrRound_mono 4 h
  exact native_hardware_eq (by rw [clampInt, BitVec.toNat_ofNat]; omega)

/-- Settles O57: each row of the table is a level of the converter, or one of its two saturated ends. -/
theorem converterSaturatesToTheCodes : Obligations.ConverterSaturatesToTheCodes := by
  refine ⟨native_hardware_toNat, fun _ _ => native_hardware_mono,
    fun x => ⟨fun _ _ => ?_, fun _ => ?_, fun _ => ?_, fun _ => ?_, fun _ => ?_, fun _ => ?_, fun _ => ?_,
      native_hardware_top, fun _ => ?_, native_hardware_bottom⟩⟩ <;>
  exact native_hardware_eq_of_level (by rw [BitVec.toNat_ofNat]; omega) (by rw [BitVec.toNat_ofNat]; omega)

end Sys2Proof.Machine
end

section
/-!
PROOF. Issuing a command and serving a refill, one equation per branch: the host's write of CMD_WORD, the decoded command, the FILL
(41_delivery_engine R245, R246, R247, R253, R254), and the entries of agents that are not enabled (log 2).
-/

namespace Sys2Proof.Machine

variable {C : Config}

/-! ### Issue (R245, R246, R247) -/

/-- A host write of CMD_WORD issues the command. -/
theorem step_cmdWord {s : State} {w : Word} {rest : List Event} (hs : s.sched = .hostWrite 0x048#32 .b4 w :: rest) :
    step s = issue w { s with sched := rest } :=
  stepOf_hostWrite_reg hs busTarget_cmdWord

theorem issue_idle (w : Word) {s : State C} (hr : s.running = false) :
    issue w s = applyCommand ⟨w, s.cmdArg0, s.cmdArg1⟩ s := by
  simp [issue, hr]

theorem issue_queues (w : Word) {s : State C} (hr : s.running = true) (hlt : s.fifo.length < C.fifoDepth) :
    issue w s = .next { s with fifo := s.fifo ++ [⟨w, s.cmdArg0, s.cmdArg1⟩] } := by
  simp [issue, hr, hlt]

theorem issue_drops (w : Word) {s : State C} (hr : s.running = true) (hfull : C.fifoDepth ≤ s.fifo.length) :
    issue w s = .next (recordError .cmdFifoOverflow w s) := by
  simp [issue, hr, Nat.not_lt.2 hfull]

theorem applyCommand_of_decode {c : Command} {i : Instr} (h : decode c = .ok i) (s : State C) :
    applyCommand c s = perform i s := by
  simp [applyCommand, h]

theorem applyCommand_of_error {c : Command} {e : DecodeError} (h : decode c = .error e) (s : State C) :
    applyCommand c s = .next (recordError (errorOfDecode e) c.word s) := by
  simp [applyCommand, h, raiseCmd]

/-- The words the encoder gives a command decode to it (R145). -/
theorem decode_of_encode {i : Instr} {c : Command} (h : encode i = .command c) : decode c = .ok i := by
  have hi := encodedInstructionDecodesBack i
  rwa [h] at hi

/-- Settles O36: a write of CMD_WORD is an issue, which has a branch for each clause. -/
theorem issueAppliesQueuesOrDrops : Obligations.IssueAppliesQueuesOrDrops := by
  intro s w rest hs s0 c
  rw [step_cmdWord hs]
  exact ⟨fun hr => issue_idle w hr, fun hr hlt => issue_queues w hr hlt, fun hr hfull => issue_drops w hr hfull⟩

/-! ### The FILL (R253, R254) -/

/-- Continuations that agree on the state reached give the same outcome. -/
theorem andThen_congr {α β : Type} {o : Host.Outcome α Fault Refusal} {k k' : α → Host.Outcome β Fault Refusal}
    (h : ∀ a, o = .next a → k a = k' a) : andThen o k = andThen o k' := by
  cases o with
  | next a => exact h a rfl
  | fault r => rfl
  | refused r => rfl

theorem andThen_assoc {α β γ : Type} (o : Host.Outcome α Fault Refusal) (k : α → Host.Outcome β Fault Refusal)
    (l : β → Host.Outcome γ Fault Refusal) : andThen (andThen o k) l = andThen o fun a => andThen (k a) l := by
  cases o <;> rfl

/-- What ends a FILL: the buffer takes the native codes of the Samples, and FILL_CYCLES a value drawn for it (log 5). -/
def endFill (s u : State C) : State C :=
  { storeDest u.inflight.other u with fillCycles := Config.fillCycles s.fillDraws, fillDraws := s.fillDraws + 1 }

/-- An enabled FILL applies the queued commands, empties the FIFO, and runs produce of the root they leave (R253). -/
theorem fillStep_enabled {s : State C} (hr : s.running = true) (hf : s.fillReq = true) :
    fillStep s = andThen (applyAll s.fifo { s with fillReq := false }) fun t =>
      andThen (perform (rootInstr t) { t with fifo := [] }) fun u => .next (endFill s u) := by
  rw [fillStep, if_neg (by simp [hr, hf])]
  refine andThen_congr fun t ht => ?_
  rw [fillInto, andThen_assoc]
  refine andThen_congr fun u hu => ?_
  have hframe := (applyAll_effect ht).frame
  have hinflight : u.inflight = t.inflight := by rw [(perform_effect hu).frame]
  have hdraws : u.fillDraws = s.fillDraws := by rw [(perform_effect hu).frame, hframe]
  simp [endFill, hinflight, hdraws]

theorem step_fill_enabled {s : State} {rest : List Event} (hs : s.sched = .fill :: rest) (hr : s.running = true)
    (hf : s.fillReq = true) :
    step s = andThen (applyAll s.fifo { s with sched := rest, fillReq := false }) fun t =>
      andThen (perform (rootInstr t) { t with fifo := [] }) fun u => .next (endFill s u) :=
  (step_cons s _ rest hs).trans (fillStep_enabled (s := { s with sched := rest }) hr hf)

/-- With no command queued a FILL is produce of the root. -/
theorem step_fill_noCommand {s : State} {rest : List Event} (hs : s.sched = .fill :: rest) (hr : s.running = true)
    (hf : s.fillReq = true) (hq : s.fifo = []) :
    step s = andThen (exec (rootInstr s) { s with sched := rest, fillReq := false }) fun u => .next (endFill s u) := by
  rw [step_fill_enabled hs hr hf, hq, applyAll, andThen_next, perform_eq_exec, ← hq]
  rfl

/-- An idle write of CMD_WORD is the decoded instruction (R245, R247). -/
theorem step_cmdWord_idle {s : State} {w : Word} {rest : List Event} {i : Instr}
    (hs : s.sched = .hostWrite 0x048#32 .b4 w :: rest) (hr : s.running = false)
    (hd : decode ⟨w, s.cmdArg0, s.cmdArg1⟩ = .ok i) : step s = exec i { s with sched := rest } := by
  rw [step_cmdWord hs, issue_idle (s := { s with sched := rest }) w hr, applyCommand_of_decode hd,
    perform_eq_exec]

/-- Settles O5: each clause is the equation of its agent step; the placed state is an idle write of the encoder's words. -/
theorem stepRunsTheDecodedInstruction : Obligations.StepRunsTheDecodedInstruction := by
  refine ⟨fun s w rest i hs hr hd => step_cmdWord_idle hs hr hd, fun c s i hd => ?_, fun s rest i hs hr hf hq hd => ?_,
    fun s i c hc => ?_⟩
  · rw [applyCommand_of_decode hd, perform_eq_exec]
  · rw [decodeCall_code] at hd
    obtain rfl := Except.ok.inj hd
    exact step_fill_noCommand hs hr hf hq
  · exact step_cmdWord_idle (s := placeCommand c s) rfl rfl (decode_of_encode hc)

/-! ### Agents that are not enabled (log 2) -/

theorem tickStep_idle {s : State C} (hr : s.running = false) : tickStep s = s := by simp [tickStep, hr]

theorem fillStep_disabled {s : State C} (h : s.running = false ∨ s.fillReq = false) : fillStep s = .next s := by
  rw [fillStep, if_pos h]

/-- Settles O38: the disabled branches of TICK and FILL, and the empty schedule. -/
theorem disabledEntriesAreNoSteps : Obligations.DisabledEntriesAreNoSteps := by
  refine ⟨fun s rest hs hr => ?_, fun s rest hs hd => ?_, step_rest⟩
  · rw [step_cons s _ rest hs, runEvent, tickStep_idle (s := { s with sched := rest }) hr]
  · rw [step_cons s _ rest hs, runEvent, fillStep_disabled (s := { s with sched := rest }) hd]

end Sys2Proof.Machine
end

section
/-!
PROOF. The produce operation of any type: it completes on every node of a well-formed table (41_delivery_engine R260, R264; 10_state
R69), reads only the node table, LIB and its arguments (R265), and stops by name where no rule calls it (logs 10 and 14).
-/

namespace Sys2Proof.Machine

open Sys2Proof.Config (hardware)

variable {C : Config}

/-! ### Completion (R260, R264) -/

theorem countOk_iff (n : Nat) : countOk C n = true ↔ 1 ≤ n ∧ n ≤ C.bufLen := by
  simp [countOk, Nat.succ_le_iff]

/-- Produce of a node of a well-formed table gives what `Produces` says, and changes the node table and dest only. -/
theorem exec_childInstr {n : Nat} {s : State} (i : Fin hardware.nNodes) (hn : countOk hardware n = true)
    (h : nodesOk s.nodes = true) : ∃ (xs : List Sample) (t' : NodeTable), Produces s.lib s.nodes i n xs t'
      ∧ exec (childInstr s i n) s = .next { s with nodes := t', dest := xs } := by
  obtain ⟨xs, t', p⟩ := produces_total s.lib n hardware.nNodes i s.nodes (by omega) h
  have hk := (nodeIdx?_eq_some _ _).1 (nodeIdx?_ofNat i)
  refine ⟨xs, t', p, ?_⟩
  rw [childInstr, exec_ofType, Fin.getElem_fin, produceOp_of_type _ _ _ s i hk hn rfl,
    p.eq hardware.nNodes _ hk (by omega) (by decide)]
  rfl

/-- Settles O30: `Produces` holds of every node; the subtree rises with the children. -/
theorem produceCompletesOnEveryNode : Obligations.ProduceCompletesOnEveryNode := by
  intro n s i h1 hn h
  obtain ⟨xs, t', p, he⟩ := exec_childInstr i ((countOk_iff n).2 ⟨h1, hn⟩) h
  refine ⟨_, he, rfl, p.length, p.ok, p.outside, fun j hj => ?_, p.common⟩
  have hle := hj.le h
  rcases Nat.eq_or_lt_of_le hle with heq | hlt
  · exact .inl (Fin.ext heq.symm)
  · exact .inr hlt

/-! ### What produce reads (R265) -/

/-- Every instruction that is no command is the produce operation of a type (R146). -/
theorem eq_ofType_of_not_command {i : Instr} (h : i.isCommand = false) : ∃ ty k n, i = Instr.ofType ty k n := by
  cases i with
  | produceSilence k n => exact ⟨.silence, k, n, rfl⟩
  | produceOsc k n => exact ⟨.osc, k, n, rfl⟩
  | producePlayer k n => exact ⟨.player, k, n, rfl⟩
  | produceLooper k n => exact ⟨.looper, k, n, rfl⟩
  | produceMixer k n => exact ⟨.mixer, k, n, rfl⟩
  | produceFilter k n => exact ⟨.filter, k, n, rfl⟩
  | produceDelay k n => exact ⟨.delay, k, n, rfl⟩
  | _ => cases h

/-- Settles O31: the checks and the recursion of produce see the node table and LIB alone. -/
theorem produceReadsOnlyNodesAndLib : Obligations.ProduceReadsOnlyNodesAndLib := by
  intro i s s' hi hn hl
  obtain ⟨ty, k, n, rfl⟩ := eq_ofType_of_not_command hi
  rw [exec_ofType, exec_ofType, produceOp, produceOp, ← hn, ← hl]
  split
  · split
    · rfl
    · split
      · rw [andThen_assoc]; rfl
      · rfl
  · rfl

/-! ### Where produce stops by name (logs 10 and 14) -/

section
variable {ty : NodeType} {k : BitVec 8} {n : Nat} {s : State C}

theorem produceOp_badCount (h : countOk C n = false) : produceOp ty k n s = .refused .produceCount := by
  simp [produceOp, h]

theorem produceOp_badNode (hn : countOk C n = true) (hk : C.nNodes ≤ k.toNat) :
    produceOp ty k n s = .refused .produceNodeRange := by
  simp [produceOp, hn, (nodeIdx?_eq_none k).2 hk]

theorem produceOp_otherType {i : Fin C.nNodes} (hn : countOk C n = true) (hk : k.toNat = i.val)
    (ht : s.nodes[i].body.type ≠ ty) : produceOp ty k n s = .refused .produceTypeMismatch := by
  simp only [Fin.getElem_fin] at ht
  simp [produceOp, hn, nodeIdx?_of_eq k i hk, ht]

end

section
variable (lib : Lib) (depth n : Nat) {k : BitVec 8} {t : NodeTable C} {i : Fin C.nNodes} (hk : k.toNat = i.val)
include hk

theorem produceAt_player_outside {p : Player} (h : t[i.val].body = .player p) (hp : playerInLib C p = false) :
    produceAt lib (depth + 1) k n t = .fault .libOutsideSpace := by
  simp [produceAt, nodeIdx?_of_eq k i hk, h, hp]

theorem produceAt_looper_outside {l : Looper} (h : t[i.val].body = .looper l) (hl : looperInLib C l = false) :
    produceAt lib (depth + 1) k n t = .fault .libOutsideSpace := by
  simp [produceAt, nodeIdx?_of_eq k i hk, h, hl]

/-- A FILTER that is its own child uses up any depth. -/
theorem produceAt_filter_ownChild {f : Filter} (h : t[i.val].body = .filter f) (hc : t[i.val].childA = k) :
    produceAt lib depth k n t = .refused .graphTooDeep := by
  induction depth with
  | zero => rfl
  | succ depth ih => rw [produceAt_filter lib depth n k t i hk f h, hc, ih, andThen_refused]

end

theorem playerInLib_eq_false {p : Player} (h : C.libBytes < p.base.toNat + p.len.toNat) : playerInLib C p = false := by
  simpa [playerInLib] using h

theorem looperInLib_eq_false {l : Looper}
    (h : C.libBytes < l.base.toNat + l.len.toNat ∨ (l.len ≠ 0#32 ∧ l.len.toNat ≤ l.idx.toNat)) : looperInLib C l = false := by
  by_contra hc
  simp only [looperInLib, Bool.not_eq_false, Bool.and_eq_true, Bool.or_eq_true, decide_eq_true_eq, beq_iff_eq] at hc
  obtain ⟨hlib, hidx⟩ := hc
  rcases h with h | ⟨hne, h⟩
  · omega
  · exact hidx.elim hne fun hlt => by omega

/-- A produce operation on a node of its type stops as its recursion does. -/
theorem exec_ofType_of_type {ty : NodeType} {k : BitVec 8} {n : Nat} {s : State} {i : Fin hardware.nNodes}
    (h1 : 1 ≤ n) (hn : n ≤ 96) (hk : k.toNat = i.val) (ht : s.nodes[i.val].body.type = ty) :
    exec (Instr.ofType ty k n) s =
      andThen (produceAt s.lib 16 k n s.nodes) fun r => .next { s with nodes := r.2, dest := r.1 } := by
  rw [exec_ofType, produceOp_of_type _ _ _ s i hk ((countOk_iff n).2 ⟨h1, hn⟩) ht]

/-- Settles O32: one stop per check of produce, in the order of the checks. -/
theorem produceStopsByName : Obligations.ProduceStopsByName := by
  refine ⟨fun ty k n s hn => ?_, fun ty k n s h1 hn hk => ?_, fun ty k n s i h1 hn hk ht => ?_,
    fun k n s i p h1 hn hk hb hp => ?_, fun k n s i l h1 hn hk hb hl => ?_, fun k n s i f h1 hn hk hb hc => ?_⟩
  · rw [exec_ofType, produceOp_badCount]
    rw [← Bool.not_eq_true, countOk_iff]
    exact fun ⟨h1, h96⟩ => hn.elim (by omega) (Nat.not_lt.2 h96)
  · rw [exec_ofType, produceOp_badNode ((countOk_iff n).2 ⟨h1, hn⟩) hk]
  · rw [exec_ofType, produceOp_otherType ((countOk_iff n).2 ⟨h1, hn⟩) hk ht]
  · rw [Fin.getElem_fin] at hb
    refine (exec_ofType_of_type (ty := .player) h1 hn hk (by rw [hb]; rfl)).trans ?_
    rw [produceAt_player_outside s.lib 15 n hk hb (playerInLib_eq_false hp), andThen_fault]
  · rw [Fin.getElem_fin] at hb
    refine (exec_ofType_of_type (ty := .looper) h1 hn hk (by rw [hb]; rfl)).trans ?_
    rw [produceAt_looper_outside s.lib 15 n hk hb (looperInLib_eq_false hl), andThen_fault]
  · rw [Fin.getElem_fin] at hb hc
    refine (exec_ofType_of_type (ty := .filter) h1 hn hk (by rw [hb]; rfl)).trans ?_
    rw [produceAt_filter_ownChild s.lib 16 n hk hb hc, andThen_refused]

end Sys2Proof.Machine
end

section
/-!
PROOF. The graph commands: the decode and range checks that stand before a command's effect (30_encoding R150 steps 2 and 3), NOP,
CFG_NODE and INSTALL (41_delivery_engine R270 to R272).
-/

namespace Sys2Proof.Machine

open Sys2Proof.Config (hardware)

/-! ### Reserved bits and the node range -/

/-- The high bits of a word are 0 where its conjunction with their mask is. -/
theorem and_highBits_eq_zero_iff (a : Word) {n m : Nat} (h : n + m = 32) :
    a &&& (BitVec.allOnes 32 <<< n) = 0#32 ↔ a.extractLsb' n m = 0#m := by
  have hbit (i : Nat) : (a &&& (BitVec.allOnes 32 <<< n)).getLsbD i = (decide (n ≤ i) && a.getLsbD i) := by
    rw [BitVec.getLsbD_and, BitVec.getLsbD_shiftLeft, BitVec.getLsbD_allOnes]
    rcases Nat.lt_or_ge i 32 with hi | hi
    · rw [Bool.and_comm, decide_eq_true hi, decide_eq_true (show i - n < 32 by omega), ← decide_not, Bool.true_and,
        Bool.and_true]
      simp only [Nat.not_lt]
    · simp [BitVec.getLsbD_of_ge a i hi]
  constructor
  · intro ha
    ext i hi
    have hni := hbit (n + i)
    rw [ha] at hni
    simpa using hni.symm
  · intro ha
    refine BitVec.eq_of_getLsbD_eq fun i hi => ?_
    rw [hbit, BitVec.getLsbD_zero, Bool.and_eq_false_imp]
    intro hn
    have hn : n ≤ i := of_decide_eq_true hn
    simpa [show i - n < m by omega, hn] using congrArg (·.getLsbD (i - n)) ha

/-- The checks 2 and 3 of R150, from the row of the decoder and the range check of the instruction's own meaning. -/
theorem rangeChecksFirst_of {opc : BitVec 8} {mask0 mask1 : Word} {mk : BitVec 8 → Word → Word → Instr}
    {clear : Command → Bool} (hclear : ∀ c, clear c = true ↔ reservedClear mask0 mask1 c)
    (hdecode : ∀ c, opcOf c.word = opc → decode c = whenClear (clear c) (mk (nodeOf c.word) c.arg0 c.arg1))
    (hrange : ∀ k a0 a1 (s : State), hardware.nNodes ≤ k.toNat →
      exec (mk k a0 a1) s = .next (recordError .cmdNodeRange (cmdWord opc k) s)) :
    RangeChecksFirst opc mask0 mask1 mk := by
  intro c s hop
  have happly (hc : reservedClear mask0 mask1 c) : applyCommand c s = exec (mk (nodeOf c.word) c.arg0 c.arg1) s := by
    rw [applyCommand_of_decode (by rw [hdecode c hop, (hclear c).2 hc, whenClear_true]), perform_eq_exec]
  refine ⟨fun hc => ?_, happly, fun hc hk => ?_⟩
  · rw [← hclear, Bool.not_eq_true] at hc
    have hd : decode c = .error .reservedBits := by rw [hdecode c hop, hc, whenClear_false]
    exact applyCommand_of_error hd s
  · have hw : cmdWord opc (nodeOf c.word) = c.word := cmdWord_nodeOf (congrArg BitVec.toNat hop) hc.1
    rw [happly hc, hrange _ _ _ s hk, hw]

/-! ### NOP (R270) -/

/-- CMD_WORD[31:8] is the reserved half word and the node. -/
theorem word_high24_eq_zero_iff (w : Word) : w.extractLsb' 8 24 = 0#24 ↔ rsvdOf w = 0#16 ∧ nodeOf w = 0#8 := by
  have hw : w.extractLsb' 8 (16 + 8) = rsvdOf w ++ nodeOf w :=
    (BitVec.extractLsb'_append_extractLsb'_eq_extractLsb' rfl).symm
  constructor
  · intro h
    have h : rsvdOf w ++ nodeOf w = 0#(16 + 8) := hw ▸ h
    exact ⟨BitVec.extractLsb'_append_eq_left.symm.trans (congrArg (·.extractLsb' 8 16) h),
      BitVec.extractLsb'_append_eq_right.symm.trans (congrArg (·.extractLsb' 0 8) h)⟩
  · rintro ⟨hr, hk⟩
    exact hw.trans (by rw [hr, hk]; rfl)

theorem decode_nop {c : Command} (hop : opcOf c.word = 0x00#8) :
    decode c = whenClear (rsvdOf c.word == 0#16 && nodeOf c.word == 0#8) .nop := by
  simp [decode, hop]

/-- Settles O6: NOP decodes from its reserved bits, is queued as any command, and a FILL leaves the FIFO it emptied. -/
theorem nopHasNoEffect : Obligations.NopHasNoEffect := by
  refine ⟨fun _ => rfl, fun c s hop => ⟨fun h => ?_, fun h => ?_⟩, fun s rest hs hr hlt => ?_, fun s t rest hs hr hf ht => ?_⟩
  · obtain ⟨hrsvd, hk⟩ := (word_high24_eq_zero_iff c.word).1 h
    rw [applyCommand_of_decode (by rw [decode_nop hop, hrsvd, hk]; rfl), perform_eq_exec]
  · have hclear : (rsvdOf c.word == 0#16 && nodeOf c.word == 0#8) = false := by
      rw [Ne, word_high24_eq_zero_iff] at h
      simpa using h
    have hd : decode c = .error .reservedBits := by rw [decode_nop hop, hclear, whenClear_false]
    exact applyCommand_of_error hd s
  · rw [step_cmdWord hs]
    exact issue_queues 0#32 hr hlt
  · rw [step_fill_enabled hs hr hf] at ht
    obtain ⟨u, -, ht⟩ := andThen_inv ht
    obtain ⟨v, hv, ht⟩ := andThen_inv ht
    cases ht
    show (storeDest v.inflight.other v).fifo = []
    rw [storeDest_fifo, (perform_effect hv).frame]

/-! ### CFG_NODE (R271) -/

theorem decode_cfgNode {c : Command} (hop : opcOf c.word = 0x01#8) :
    decode c = whenClear (rsvdOf c.word == 0#16 && c.arg0.extractLsb' 6 26 == 0#26 && c.arg1.extractLsb' 16 16 == 0#16)
      (.cfgNode (nodeOf c.word) (c.arg0.extractLsb' 0 4) (c.arg0.extractLsb' 4 2) (c.arg1.extractLsb' 0 8)
        (c.arg1.extractLsb' 8 8)) := by
  simp [decode, hop]

theorem cfgNode_clear_iff (c : Command) :
    (rsvdOf c.word == 0#16 && c.arg0.extractLsb' 6 26 == 0#26 && c.arg1.extractLsb' 16 16 == 0#16) = true
      ↔ reservedClear 0xFFFFFFC0#32 0xFFFF0000#32 c := by
  have h0 := and_highBits_eq_zero_iff c.arg0 (n := 6) (m := 26) rfl
  have h1 := and_highBits_eq_zero_iff c.arg1 (n := 16) (m := 16) rfl
  simp only [Bool.and_eq_true, beq_iff_eq, ← h0, ← h1, and_assoc]
  rfl

/-- The codes R271 refuses. -/
def BadTypeCode (typ : BitVec 4) (divc : BitVec 2) : Prop :=
  7 ≤ typ.toNat ∨ divc.toNat = 3 ∨ (divc.toNat ≠ 0 ∧ typ.toNat ≠ 2 ∧ typ.toNat ≠ 3)

theorem cfgType?_eq_none_iff (typ : BitVec 4) (divc : BitVec 2) : cfgType? typ divc = none ↔ BadTypeCode typ divc := by
  revert typ divc
  unfold BadTypeCode
  decide

theorem code_of_ofCode?_eq_some {code : BitVec 4} {ty : NodeType} (h : NodeType.ofCode? code = some ty) : ty.code = code := by
  revert code
  cases ty <;> decide

theorem Divisor.ofCode?_eq_some {divc : BitVec 2} {d : Divisor} (h : Divisor.ofCode? divc = some d) :
    d.toNat = 2 ^ divc.toNat := by
  revert divc
  cases d <;> decide

/-- The codes R271 accepts stand for the type and divisor they name (R143). -/
theorem cfgType?_eq_some {typ : BitVec 4} {divc : BitVec 2} {ty : NodeType} {d : Divisor}
    (h : cfgType? typ divc = some (ty, d)) : ty.code = typ ∧ d.toNat = 2 ^ divc.toNat := by
  unfold cfgType? at h
  split at h
  · rename_i hty hd
    split at h
    · cases h
      exact ⟨code_of_ofCode?_eq_some hty, Divisor.ofCode?_eq_some hd⟩
    · cases h
  · cases h

/-- The children R271 accepts for a TYPE code. -/
def ChildrenGiven (typ : BitVec 4) (k a b : BitVec 8) : Prop :=
  let child (c : BitVec 8) : Prop := k.toNat < c.toNat ∧ c.toNat < 16
  if typ.toNat = 4 then child a ∧ child b
  else if typ.toNat = 5 ∨ typ.toNat = 6 then child a ∧ b = 0#8
  else a = 0#8 ∧ b = 0#8

theorem childrenValid_iff (ty : NodeType) (k a b : BitVec 8) :
    childrenValid hardware ty k a b = true ↔ ChildrenGiven ty.code k a b := by
  cases ty <;> simp [childrenValid, ChildrenGiven, NodeType.code, childAbove]

section
variable {k a b : BitVec 8} {typ : BitVec 4} {divc : BitVec 2} {i : Fin hardware.nNodes} (hk : k.toNat = i.val)
include hk

theorem exec_cfgNode_badType (s : State) (h : BadTypeCode typ divc) :
    exec (.cfgNode k typ divc a b) s = .next (recordError .cmdBadTypeCode (cmdWord 0x01#8 k) s) := by
  refine (onNode_of_eq _ k s _ i hk).trans ?_
  rw [(cfgType?_eq_none_iff typ divc).2 h]
  rfl

theorem exec_cfgNode_badChild (s : State) {ty : NodeType} {d : Divisor} (hty : cfgType? typ divc = some (ty, d))
    (h : ¬ ChildrenGiven ty.code k a b) :
    exec (.cfgNode k typ divc a b) s = .next (recordError .cmdBadChild (cmdWord 0x01#8 k) s) := by
  refine (onNode_of_eq _ k s _ i hk).trans ?_
  rw [hty]
  exact if_neg fun hv => h ((childrenValid_iff ty k a b).1 hv)

theorem exec_cfgNode_ok (s : State) {ty : NodeType} {d : Divisor} (hty : cfgType? typ divc = some (ty, d))
    (h : ChildrenGiven ty.code k a b) :
    exec (.cfgNode k typ divc a b) s = .next { s with nodes := s.nodes.set i ⟨d, a, b, initialBody ty⟩ } := by
  refine (onNode_of_eq _ k s _ i hk).trans ?_
  rw [hty]
  exact if_pos ((childrenValid_iff ty k a b).2 h)

end

theorem cfgNode_rangeChecksFirst : RangeChecksFirst 0x01#8 0xFFFFFFC0#32 0xFFFF0000#32 fun k a0 a1 =>
    .cfgNode k (a0.extractLsb' 0 4) (a0.extractLsb' 4 2) (a1.extractLsb' 0 8) (a1.extractLsb' 8 8) :=
  rangeChecksFirst_of cfgNode_clear_iff (fun _ => decode_cfgNode) fun _ _ _ _ => onNode_of_range _ _ _ _

/-- Settles O7: the codes give the type and its divisor or none; then the children decide; the fields are those of the type. -/
theorem cfgNodeConstructsTheNode : Obligations.CfgNodeConstructsTheNode := by
  refine ⟨cfgNode_rangeChecksFirst, fun k typ divc a b s i hk => ?_⟩
  refine ⟨exec_cfgNode_badType hk s, fun hgood hch => ?_, fun hgood hch => ?_⟩
  all_goals
    obtain ⟨⟨ty, d⟩, hty⟩ := Option.ne_none_iff_exists'.1 (mt (cfgType?_eq_none_iff typ divc).1 hgood)
    obtain ⟨rfl, hd⟩ := cfgType?_eq_some hty
  · exact exec_cfgNode_badChild hk s hty hch
  · refine ⟨d, initialBody ty, exec_cfgNode_ok hk s hty hch, hd, ?_⟩
    cases ty with
    | delay => exact ⟨nofun, nofun, nofun, nofun, nofun, nofun, fun _ => ⟨_, rfl, fun _ => rfl, rfl, rfl, rfl, rfl, rfl⟩⟩
    | _ => simp [NodeType.code, initialBody]

/-! ### INSTALL (R272) -/

theorem decode_install {c : Command} (hop : opcOf c.word = 0x02#8) :
    decode c = whenClear (rsvdOf c.word == 0#16) (.install (nodeOf c.word)) := by
  simp [decode, hop]

theorem install_clear_iff (c : Command) : (rsvdOf c.word == 0#16) = true ↔ reservedClear 0#32 0#32 c := by
  simp [reservedClear]

theorem exec_install {k : BitVec 8} {i : Fin hardware.nNodes} (hk : k.toNat = i.val) (s : State) :
    exec (.install k) s = .next { s with rootIdx := i } :=
  onNode_of_eq _ k s _ i hk

/-- Settles O8: INSTALL as a command, queued, and applied by a FILL before it produces. -/
theorem installSetsTheRoot : Obligations.InstallSetsTheRoot := by
  refine ⟨rangeChecksFirst_of install_clear_iff (fun _ => decode_install) fun _ _ _ _ => onNode_of_range _ _ _ _, ?_⟩
  refine fun k s i hk => ⟨exec_install hk s, fun rest w hs hr hlt _ => ?_, fun rest a0 a1 hs hr hf hq => ?_⟩
  · rw [step_cmdWord hs]
    exact issue_queues w hr hlt
  · have hd : decode ⟨cmdWord 0x02#8 k, a0, a1⟩ = .ok (.install k) := by
      rw [decode_install (opcOf_cmdWord _ _), nodeOf_cmdWord, rsvdOf_cmdWord]
      rfl
    have happly : applyAll s.fifo { s with sched := rest, fillReq := false }
        = .next { s with sched := rest, fillReq := false, rootIdx := i } := by
      rw [hq, applyAll, applyCommand_of_decode hd, perform_eq_exec, exec_install hk]
      rfl
    rw [step_fill_enabled hs hr hf, happly, andThen_next, perform_eq_exec]
    rfl

end Sys2Proof.Machine
end

section
/-!
PROOF. The delivery engine's agent steps: the TICK and the drain-complete (41_delivery_engine R250, R251), START (R241), the FILL with
its queued commands (R253, R254), and that only a FILL writes a buffer of a running engine, never the one in flight (R242, R255).
-/

namespace Sys2Proof.Machine

open Sys2Proof.Config (hardware)

variable {C : Config}

/-! ### The TICK (R250, R251) -/

/-- A TICK before the last word only advances. -/
theorem tickStep_advances {s : State C} (hr : s.running = true) (next : Fin C.bufLen) (hn : next.val = s.drainIdx.val + 1) :
    tickStep s = { s with dacWord := (s.buf s.inflight)[s.drainIdx], ticks := s.ticks + 1#32, drainIdx := next } := by
  have hlt : s.drainIdx.val + 1 < C.bufLen := hn ▸ next.isLt
  have hnext : next = ⟨s.drainIdx.val + 1, hlt⟩ := Fin.ext hn
  simp [tickStep, hr, hlt, hnext]

/-- A TICK at the last word completes the drain. -/
theorem tickStep_wraps {s : State C} (hr : s.running = true) (hl : s.drainIdx.val + 1 = C.bufLen) :
    tickStep s = drainComplete
      { s with dacWord := (s.buf s.inflight)[s.drainIdx], ticks := s.ticks + 1#32, drainIdx := ⟨0, C.bufLen_pos⟩ } := by
  simp [tickStep, hr, hl]

/-- The drain-complete: OVERRUN is recorded with the new COMPLETIONS where the previous request still stands. -/
theorem drainComplete_eq (s : State C) :
    drainComplete s =
      let u : State C :=
        { s with
          completions := s.completions + 1#32, sticky := s.sticky ||| StatusBit.bufDone.mask,
          inflight := s.inflight.other, fillReq := true }
      if s.fillReq = true then recordError .overrun (s.completions + 1#32) u else u := by
  by_cases h : s.fillReq = true <;> simp [drainComplete, setSticky, recordError_eq, h]

/-- Settles O33, by the two branches of TICK. -/
theorem tickDrainsTheInFlightBuffer : Obligations.TickDrainsTheInFlightBuffer := by
  intro s rest hs hr word
  have hstep : step s = .next (tickStep { s with sched := rest }) := step_cons s _ rest hs
  have hword : word = (s.buf s.inflight)[s.drainIdx] := by
    show (match s.inflight with | .A => s.bufA | .B => s.bufB)[s.drainIdx] = _
    cases s.inflight <;> rfl
  refine ⟨fun next hn => ?_, fun hl => ?_⟩
  · rw [hstep, tickStep_advances (s := { s with sched := rest }) hr next hn, hword]
    rfl
  · rw [hstep, tickStep_wraps (s := { s with sched := rest }) hr (congrArg (· + 1) hl), drainComplete_eq, hword]
    rfl

/-! ### Filling a buffer (R254) -/

theorem storeDest_A (s : State C) : storeDest .A s = { s with bufA := codesOf C s.dest, dest := [] } := rfl

theorem storeDest_B (s : State C) : storeDest .B s = { s with bufB := codesOf C s.dest, dest := [] } := rfl

theorem codesOf_get (xs : List Sample) (j : Fin 96) : (codesOf hardware xs)[j] = native hardware (xs.getD j.val 0#16) := by
  simp [codesOf]

/-- The root's produce for a whole buffer completes on a well-formed table. -/
theorem perform_rootInstr {s : State} (h : nodesOk s.nodes = true) : ∃ t : State, perform (rootInstr s) s = .next t
    ∧ t = { s with nodes := t.nodes, dest := t.dest } ∧ t.dest.length = 96 ∧ nodesOk t.nodes = true := by
  obtain ⟨xs, t', p, he⟩ := exec_childInstr (n := 96) s.rootIdx (by decide) h
  exact ⟨_, (perform_eq_exec _ _).trans he, rfl, p.length, p.ok⟩

theorem rootInstr_storeDest (x : BufId) (s : State C) : rootInstr (storeDest x s) = childInstr s s.rootIdx C.bufLen := by
  cases x <;> rfl

/-! ### START (R241) -/

theorem startEngine_running {s : State C} (hr : s.running = true) : startEngine s = .next s := by simp [startEngine, hr]

theorem startEngine_notReady {s : State C} (hr : s.running = false) (hp : s.periphReady = false) :
    startEngine s = .next (recordError .startNotReady 0#32 s) := by simp [startEngine, hr, hp]

/-- Priming: produce of the root twice, for A and then for B, and then the engine runs. -/
theorem startEngine_primes {s t u : State C} (hr : s.running = false) (hp : s.periphReady = true)
    (hA : perform (rootInstr s) s = .next t)
    (hB : perform (rootInstr (storeDest .A t)) (storeDest .A t) = .next u) :
    startEngine s = .next
      { u with
        bufB := codesOf C u.dest, dest := [], inflight := .A, drainIdx := ⟨0, C.bufLen_pos⟩, fillReq := false,
        running := true } := by
  have hfillA : fillInto .A s = .next (storeDest .A t) := by rw [fillInto, hA, andThen_next]
  have hfillB : fillInto .B (storeDest .A t) = .next (storeDest .B u) := by rw [fillInto, hB, andThen_next]
  rw [startEngine, if_neg (by simp [hr]), if_neg (by simp [hp]), hfillA, andThen_next, hfillB]
  rfl

/-- A write of CTRL is a START or nothing, by its bit 0 (R45). -/
theorem step_ctrl {s : State} {v : Word} {rest : List Event} (hs : s.sched = .hostWrite 0x004#32 .b4 v :: rest) :
    step s = if v.getLsbD 0 then startEngine { s with sched := rest } else .next { s with sched := rest } :=
  stepOf_hostWrite_reg hs busTarget_ctrl

/-- Settles O34: the branches of START; priming is produce of the root twice, the second from the table the first left. -/
theorem startPrimesBothBuffers : Obligations.StartPrimesBothBuffers := by
  intro s v rest hs s0
  rw [step_ctrl hs]
  refine ⟨fun hv => by rw [hv]; rfl, fun hv hr => ?_, fun hv hr hp => ?_, fun hv hr hp hok => ?_⟩
  · rw [if_pos hv, startEngine_running (s := s0) hr]
  · rw [if_pos hv, startEngine_notReady (s := s0) hr hp]
  · obtain ⟨t1, hA, hframe, hlen1, hok1⟩ := perform_rootInstr (s := s0) hok
    obtain ⟨t2, hB, -, hlen2, -⟩ := perform_rootInstr (s := storeDest .A t1) (by rwa [storeDest_nodes])
    have hroot : t1.rootIdx = s.rootIdx := by rw [hframe]
    rw [if_pos hv, startEngine_primes (s := s0) hr hp hA hB]
    rw [perform_eq_exec] at hA
    rw [rootInstr_storeDest, hroot, storeDest_A, perform_eq_exec] at hB
    exact ⟨t1, t2, codesOf hardware t1.dest, codesOf hardware t2.dest, hA, hlen1, hB, hlen2,
      fun j => ⟨codesOf_get t1.dest j, codesOf_get t2.dest j⟩, rfl⟩

/-! ### The queued commands of a FILL (R253) -/

/-- Both outcomes are next states, with the same node table. -/
def SameTable (o o' : Host.Outcome (State C) Fault Refusal) : Prop :=
  ∃ t t', o = .next t ∧ o' = .next t' ∧ t.nodes = t'.nodes

theorem raiseCmd_sameTable (e : ErrorCode) (w : Word) {s s' : State C} (h : s.nodes = s'.nodes) :
    SameTable (raiseCmd e w s) (raiseCmd e w s') :=
  ⟨_, _, rfl, rfl, by simpa using h⟩

theorem onNode_sameTable {w : Word} {k : BitVec 8} {s s' : State C}
    {f f' : Fin C.nNodes → Host.Outcome (State C) Fault Refusal} (h : s.nodes = s'.nodes)
    (hf : ∀ i, SameTable (f i) (f' i)) : SameTable (onNode w k s f) (onNode w k s' f') := by
  unfold onNode
  split
  · exact raiseCmd_sameTable _ w h
  · exact hf _

theorem setBody_sameTable (i : Fin C.nNodes) (b : NodeBody C) {s s' : State C} (h : s.nodes = s'.nodes) :
    SameTable (.next (s.setBody i b)) (.next (s'.setBody i b)) :=
  ⟨_, _, rfl, rfl, by rw [setBody_nodes, setBody_nodes, h]⟩

/-- What a command makes of the node table depends on the node table only. -/
theorem perform_sameTable {i : Instr} (hi : i.isCommand = true) {s s' : State C} (h : s.nodes = s'.nodes) :
    SameTable (perform i s) (perform i s') := by
  cases i with
  | nop => exact ⟨s, s', rfl, rfl, h⟩
  | install k => exact onNode_sameTable h fun _ => ⟨_, _, rfl, rfl, h⟩
  | cfgNode k typ divc a b =>
    refine onNode_sameTable h fun j => ?_
    split
    · exact raiseCmd_sameTable _ _ h
    · split
      · exact ⟨_, _, rfl, rfl, by simp [h]⟩
      · exact raiseCmd_sameTable _ _ h
  | smpLoad k base len =>
    refine onNode_sameTable h fun j => ?_
    rw [← h]
    split
    · split
      · exact setBody_sameTable j _ h
      · exact raiseCmd_sameTable _ _ h
    · split
      · exact setBody_sameTable j _ h
      · exact raiseCmd_sameTable _ _ h
    · exact raiseCmd_sameTable _ _ h
  | oscNote | smpPlay | loopSetpos | loopGate | fltSet | dlySetDelay | dlySetFeedback =>
    refine onNode_sameTable h fun j => ?_
    rw [← h]
    split
    · exact setBody_sameTable j _ h
    · exact raiseCmd_sameTable _ _ h
  | _ => cases hi

theorem applyCommand_sameTable (c : Command) {s s' : State C} (h : s.nodes = s'.nodes) :
    SameTable (applyCommand c s) (applyCommand c s') := by
  unfold applyCommand
  split
  · exact perform_sameTable (decode_isCommand ‹_›) h
  · exact raiseCmd_sameTable _ _ h

/-- A command keeps a table well-formed, whatever else the state holds: it does what it does right after reset. -/
theorem applyCommand_nodesOk (c : Command) {s : State C} (h : nodesOk s.nodes = true) :
    ∃ t, applyCommand c s = .next t ∧ nodesOk t.nodes = true := by
  obtain ⟨t, t', ht, ht', heq⟩ := applyCommand_sameTable c (s := s) (s' := { State.resetOf C with nodes := s.nodes }) rfl
  refine ⟨t, ht, heq ▸ ?_⟩
  exact ((applyCommand_keeps c (nodes_keeps (resetOf_invariant C) h)).of_next ht').nodes

/-- Applying queued commands passes through one state per command, in order (R253). -/
theorem applyAll_states (cs : List Command) {s : State C} (h : nodesOk s.nodes = true) : ∃ q : Nat → State C,
    q 0 = s ∧ (∀ (j : Nat) (c : Command), cs[j]? = some c → applyCommand c (q j) = .next (q (j + 1)))
      ∧ applyAll cs s = .next (q cs.length) ∧ nodesOk (q cs.length).nodes = true := by
  induction cs generalizing s with
  | nil => exact ⟨fun _ => s, rfl, nofun, rfl, h⟩
  | cons c cs ih =>
    obtain ⟨t, ht, hok⟩ := applyCommand_nodesOk c h
    obtain ⟨q, hq0, hq, hall, hend⟩ := ih hok
    refine ⟨Stream'.cons s q, rfl, fun j d hd => ?_, by rw [applyAll, ht]; exact hall, hend⟩
    cases j with
    | zero =>
      obtain rfl := Option.some.inj hd
      exact ht.trans (congrArg _ hq0.symm)
    | succ j => exact hq j d hd

theorem endFill_of_A {s u : State C} (h : u.inflight = .A) :
    endFill s u = { u with bufB := codesOf C u.dest, dest := [], fillCycles := Config.fillCycles s.fillDraws,
                           fillDraws := s.fillDraws + 1 } := by
  have hx : storeDest u.inflight.other u = storeDest .B u := by rw [h, BufId.other]
  rw [endFill, hx, storeDest_B]

theorem endFill_of_B {s u : State C} (h : u.inflight = .B) :
    endFill s u = { u with bufA := codesOf C u.dest, dest := [], fillCycles := Config.fillCycles s.fillDraws,
                           fillDraws := s.fillDraws + 1 } := by
  have hx : storeDest u.inflight.other u = storeDest .A u := by rw [h, BufId.other]
  rw [endFill, hx, storeDest_A]

/-- The end of a FILL leaves the buffer in flight. -/
theorem endFill_buf_inflight (s u : State C) : (endFill s u).buf u.inflight = u.buf u.inflight := by
  cases h : u.inflight with
  | A => rw [endFill_of_A h]; rfl
  | B => rw [endFill_of_B h]; rfl

/-- Settles O35: the states of the queued commands, then produce of the root on the table they leave. -/
theorem fillServesTheRequest : Obligations.FillServesTheRequest := by
  intro s rest hs hr hf hok
  obtain ⟨q, hq0, hq, hall, hend⟩ := applyAll_states s.fifo (s := { s with sched := rest, fillReq := false }) hok
  obtain ⟨u, hu, hframe, hlen, -⟩ := perform_rootInstr (s := { q s.fifo.length with fifo := [] }) hend
  refine ⟨q, u, codesOf hardware u.dest, hq0, hq, (perform_eq_exec _ _).symm.trans hu, hlen, codesOf_get u.dest, ?_⟩
  have hinflight : u.inflight = s.inflight := by rw [hframe, (applyAll_effect hall).frame]
  have hstep : step s = .next (endFill s u) := by
    rw [step_fill_enabled hs hr hf, hall, andThen_next]
    exact congrArg (andThen · _) hu
  rw [hstep]
  cases hi : s.inflight with
  | A => rw [endFill_of_A (hinflight.trans hi)]
  | B => rw [endFill_of_B (hinflight.trans hi)]

/-! ### What a step of a running engine keeps (R242, R255) -/

/-- The engine runs on, and its roles and buffers are as before. -/
structure EngineKept (s t : State C) : Prop where
  running : t.running = s.running
  inflight : t.inflight = s.inflight
  bufA : t.bufA = s.bufA
  bufB : t.bufB = s.bufB

theorem EngineKept.buf {s t : State C} (h : EngineKept s t) (x : BufId) : t.buf x = s.buf x := by
  cases x
  · exact h.bufA
  · exact h.bufB

theorem recordError_engineKept (e : ErrorCode) (info : Word) (s : State C) : EngineKept s (recordError e info s) := by
  constructor <;> simp

theorem hostRead_engineKept (addr : Word) (n : AccessSize) (s : State C) : EngineKept s (hostRead addr n s) := by
  unfold hostRead
  split
  · exact ⟨rfl, rfl, rfl, rfl⟩
  · exact ⟨rfl, rfl, rfl, rfl⟩
  · constructor <;> simp

theorem writeReg_engineKept {r : Reg C} {v : Word} {s t : State C} (hr : s.running = true) (h : writeReg r v s = .next t) :
    EngineKept s t := by
  cases r with
  | ctrl =>
    rw [writeReg, startEngine_running hr, ite_self] at h
    cases h
    exact ⟨rfl, rfl, rfl, rfl⟩
  | cmdWord =>
    rcases Nat.lt_or_ge s.fifo.length C.fifoDepth with hlt | hfull
    · cases (issue_queues v hr hlt).symm.trans h
      exact ⟨rfl, rfl, rfl, rfl⟩
    · cases (issue_drops v hr hfull).symm.trans h
      exact recordError_engineKept ..
  | _ => cases h; exact ⟨rfl, rfl, rfl, rfl⟩

theorem hostWrite_engineKept {addr : Word} {n : AccessSize} {v : Word} {s t : State C} (hr : s.running = true)
    (h : hostWrite addr n v s = .next t) : EngineKept s t := by
  unfold hostWrite at h
  split at h
  · exact writeReg_engineKept hr h
  · cases h
    exact ⟨rfl, rfl, rfl, rfl⟩
  · cases h
    exact recordError_engineKept ..

/-- An instruction stays within its effect, which the engine is no part of. -/
theorem InstrEffect.engineKept {s t : State C} (h : InstrEffect s t) : EngineKept s t := by
  rw [h.frame]
  exact ⟨rfl, rfl, rfl, rfl⟩

/-- A FILL writes the buffer that is not in flight (R253). -/
theorem fillStep_inflight {s t : State C} (h : fillStep s = .next t) :
    t.running = s.running ∧ t.inflight = s.inflight ∧ t.buf s.inflight = s.buf s.inflight := by
  by_cases hd : s.running = false ∨ s.fillReq = false
  · cases (fillStep_disabled hd).symm.trans h
    exact ⟨rfl, rfl, rfl⟩
  · simp only [not_or, Bool.not_eq_false] at hd
    rw [fillStep_enabled hd.1 hd.2] at h
    obtain ⟨u, hu, h⟩ := andThen_inv h
    obtain ⟨v, hv, h⟩ := andThen_inv h
    cases h
    have ku := (applyAll_effect hu).engineKept
    have kv := (perform_effect hv).engineKept
    have kept : EngineKept s v :=
      ⟨kv.running.trans ku.running, kv.inflight.trans ku.inflight, kv.bufA.trans ku.bufA, kv.bufB.trans ku.bufB⟩
    refine ⟨(storeDest_running ..).trans kept.running, (storeDest_inflight ..).trans kept.inflight, ?_⟩
    rw [← kept.inflight, endFill_buf_inflight, kept.buf]

/-- A TICK writes no buffer, and flips the roles with the last word only (R250, R251). -/
theorem tickStep_buffers (s : State C) :
    (tickStep s).running = s.running ∧ (tickStep s).bufA = s.bufA ∧ (tickStep s).bufB = s.bufB
      ∧ ((tickStep s).inflight ≠ s.inflight → s.drainIdx.val + 1 = C.bufLen) := by
  unfold tickStep
  split
  · exact ⟨rfl, rfl, rfl, absurd rfl⟩
  · dsimp only
    split
    · exact ⟨rfl, rfl, rfl, absurd rfl⟩
    · have := s.drainIdx.isLt
      exact ⟨by simp, by simp, by simp, fun _ => by omega⟩

/-- Settles O37, by the agent whose step it is. -/
theorem inFlightBufferIsNeverWritten : Obligations.InFlightBufferIsNeverWritten := by
  intro s t e rest hs hr he h
  have kept (k : EngineKept { s with sched := rest } t) : t.running = true
      ∧ (s.inflight = .A → t.bufA = s.bufA) ∧ (s.inflight = .B → t.bufB = s.bufB)
      ∧ (e ≠ .fill → t.bufA = s.bufA ∧ t.bufB = s.bufB) ∧ (t.inflight ≠ s.inflight → e = .tick ∧ s.drainIdx.val = 95) :=
    ⟨k.running.trans hr, fun _ => k.bufA, fun _ => k.bufB, fun _ => ⟨k.bufA, k.bufB⟩, fun hne => absurd k.inflight hne⟩
  rw [step_cons s e rest hs] at h
  cases e with
  | hostRead addr n =>
    cases h
    exact kept (hostRead_engineKept ..)
  | hostWrite addr n v => exact kept (hostWrite_engineKept hr h)
  | tick =>
    cases h
    obtain ⟨hrun, hA, hB, hflip⟩ := tickStep_buffers { s with sched := rest }
    exact ⟨hrun.trans hr, fun _ => hA, fun _ => hB, fun _ => ⟨hA, hB⟩, fun hne => ⟨rfl, Nat.succ.inj (hflip hne)⟩⟩
  | fill =>
    obtain ⟨hrun, hinflight, hbuf⟩ := fillStep_inflight h
    refine ⟨hrun.trans hr, fun hi => ?_, fun hi => ?_, fun hne => absurd rfl hne, fun hne => absurd hinflight hne⟩
    · simpa [hi, State.buf] using hbuf
    · simpa [hi, State.buf] using hbuf
  | reset => exact absurd rfl he
  | periphReady level =>
    cases h
    exact kept ⟨rfl, rfl, rfl, rfl⟩

end Sys2Proof.Machine
end

section
/-!
PROOF. The commands of the leaf sources: the check of the node's type that stands before a command's effect (30_encoding R150 step 4),
OSC_NOTE, SMP_LOAD, SMP_PLAY, LOOP_SETPOS and LOOP_GATE with its gate map (42_leaf_sources R315, R325, R326, R345 to R347).
-/

namespace Sys2Proof.Machine

open Sys2Proof.Config (hardware)

/-! ### The node's type (R150 step 4) -/

/-- The node types a command accepts; none where it accepts every type (R150 step 4). -/
def acceptedTypes : Instr → Option (List NodeType)
  | .oscNote .. => some [.osc]
  | .smpLoad .. => some [.player, .looper]
  | .smpPlay .. => some [.player]
  | .loopSetpos .. | .loopGate .. => some [.looper]
  | .fltSet .. => some [.filter]
  | .dlySetDelay .. | .dlySetFeedback .. => some [.delay]
  | _ => none

/-- R150 step 3: a NODE that is no node is CMD_NODE_RANGE, with the command's own word. -/
theorem exec_nodeRange {i : Instr} {types : List NodeType} (hi : acceptedTypes i = some types) {w : Word}
    (hw : IsCommandWord i w) (s : State) (hk : hardware.nNodes ≤ (addressed i).toNat) :
    exec i s = .next (recordError .cmdNodeRange w s) := by
  obtain ⟨c, hc, rfl⟩ := hw
  cases i with
  | oscNote | smpLoad | smpPlay | loopSetpos | loopGate | fltSet | dlySetDelay | dlySetFeedback =>
    cases hc
    exact onNode_of_range _ _ _ _ hk
  | _ => cases hi

/-- R150 step 4: a node of a type the command does not accept is CMD_WRONG_TYPE, with the command's own word. -/
theorem exec_wrongType {i : Instr} {types : List NodeType} (hi : acceptedTypes i = some types) {w : Word}
    (hw : IsCommandWord i w) {s : State} {j : Fin hardware.nNodes} (hj : (addressed i).toNat = j.val)
    (ht : s.nodes[j].body.type ∉ types) : exec i s = .next (recordError .cmdWrongType w s) := by
  obtain ⟨c, hc, rfl⟩ := hw
  cases i with
  | oscNote | smpPlay | loopSetpos | loopGate | fltSet | dlySetDelay | dlySetFeedback =>
    cases hi
    cases hc
    refine (onNode_of_eq _ _ s _ j hj).trans ?_
    split
    · rename_i hb
      exact absurd (by rw [hb]; exact List.mem_singleton_self _) ht
    · rfl
  | smpLoad =>
    cases hi
    cases hc
    refine (onNode_of_eq _ _ s _ j hj).trans ?_
    split
    · rename_i hb
      exact absurd (by rw [hb]; exact List.mem_cons_self) ht
    · rename_i hb
      exact absurd (by rw [hb]; exact List.mem_cons_of_mem _ List.mem_cons_self) ht
    · rfl
  | _ => cases hi

/-- The checks 2 to 4 of R150, from the row of the decoder and the node types the instruction accepts. -/
theorem checksFirst_of {opc : BitVec 8} {mask0 mask1 : Word} {types : List NodeType} {mk : BitVec 8 → Word → Word → Instr}
    {clear : Command → Bool} (hclear : ∀ c, clear c = true ↔ reservedClear mask0 mask1 c)
    (hdecode : ∀ c, opcOf c.word = opc → decode c = whenClear (clear c) (mk (nodeOf c.word) c.arg0 c.arg1))
    (haccept : ∀ k a0 a1, acceptedTypes (mk k a0 a1) = some types) (hnode : ∀ k a0 a1, addressed (mk k a0 a1) = k)
    (hword : ∀ k a0 a1, IsCommandWord (mk k a0 a1) (cmdWord opc k)) : ChecksFirst opc mask0 mask1 types mk := by
  have hrange : RangeChecksFirst opc mask0 mask1 mk := rangeChecksFirst_of hclear hdecode fun k a0 a1 s hk =>
    exec_nodeRange (haccept k a0 a1) (hword k a0 a1) s (by rwa [hnode])
  refine ⟨hrange, fun c s i hop hc hk ht => ?_⟩
  obtain ⟨-, happly, -⟩ := hrange c s hop
  have hw : cmdWord opc (nodeOf c.word) = c.word := cmdWord_nodeOf (congrArg BitVec.toNat hop) hc.1
  rw [happly hc, exec_wrongType (haccept ..) (hword ..) (by rw [hnode, hk]) ht, hw]

/-! ### OSC_NOTE (R315) -/

theorem oscNote_checksFirst : ChecksFirst 0x03#8 0#32 0#32 [.osc] fun k a0 a1 => .oscNote k a0 a1 :=
  checksFirst_of install_clear_iff (fun c hop => by simp [decode, hop]) (fun _ _ _ => rfl) (fun _ _ _ => rfl)
    fun _ _ _ => ⟨_, rfl, rfl⟩

theorem exec_oscNote {k : BitVec 8} {i : Fin hardware.nNodes} (hk : k.toNat = i.val) {s : State} {o : Osc}
    (hb : s.nodes[i].body = .osc o) (inc dur : Word) :
    exec (.oscNote k inc dur) s = .next (s.setBody i (.osc (noteOsc inc dur))) := by
  refine (onNode_of_eq _ k s _ i hk).trans ?_
  rw [hb]

/-- The ceiling of a / b is the least number that b times reaches a, and is at most a (R15). -/
theorem ceilDiv_least {a b : Nat} (ha : 1 ≤ a) (hb : 1 ≤ b) :
    1 ≤ ceilDiv a b ∧ ceilDiv a b ≤ a ∧ a ≤ ceilDiv a b * b ∧ (ceilDiv a b - 1) * b < a := by
  obtain ⟨hlo, hhi⟩ := ceilDiv_spec a b hb
  have hpos : 1 ≤ ceilDiv a b := Nat.pos_of_mul_pos_right (ha.trans hlo)
  have hlt : (ceilDiv a b - 1) * b < a := by
    rw [Nat.sub_mul, Nat.one_mul]
    omega
  have hle := (Nat.le_mul_of_pos_right (ceilDiv a b - 1) hb).trans_lt hlt
  exact ⟨hpos, by omega, hlo, hlt⟩

theorem noteOsc_dec (inc dur : Word) : (noteOsc inc dur).dec.toNat = ceilDiv (2 ^ 30) (max dur.toNat 1) := by
  obtain ⟨-, hle, -⟩ := ceilDiv_least (a := 2 ^ 30) (by decide) (le_max_right dur.toNat 1)
  exact Nat.mod_eq_of_lt (hle.trans_lt (by decide))

/-- Settles O9: the decrement is the ceiling of a quotient. -/
theorem oscNoteStartsTheNote : Obligations.OscNoteStartsTheNote := by
  refine ⟨oscNote_checksFirst, fun k inc dur s i o hk hb => ⟨(noteOsc inc dur).dec, exec_oscNote hk hb inc dur, ?_⟩⟩
  rw [noteOsc_dec]
  exact ceilDiv_least (by decide) (le_max_right _ _)

/-! ### SMP_LOAD (R325) -/

theorem smpLoad_checksFirst : ChecksFirst 0x04#8 0#32 0#32 [.player, .looper] fun k a0 a1 => .smpLoad k a0 a1 :=
  checksFirst_of install_clear_iff (fun c hop => by simp [decode, hop]) (fun _ _ _ => rfl) (fun _ _ _ => rfl)
    fun _ _ _ => ⟨_, rfl, rfl⟩

/-- R325: the comparison that refuses a range is that of one not inside LIB. -/
theorem loadInRange_eq_false_iff (base len : Word) :
    loadInRange hardware base len = false ↔ 1048576 < len.toNat ∨ (1048576 : Int) - len.toNat < base.toNat := by
  simp only [loadInRange, decide_eq_false_iff_not]
  omega

section
variable {k : BitVec 8} {i : Fin hardware.nNodes} (hk : k.toNat = i.val) {s : State} {base len : Word}
include hk

theorem exec_smpLoad_player {p : Player} (hb : s.nodes[i].body = .player p) :
    exec (.smpLoad k base len) s =
      if loadInRange hardware base len then
        .next (s.setBody i (.player { p with base := base, len := len, j := 0#2, idx := len }))
      else .next (recordError .cmdLoadRange (cmdWord 0x04#8 k) s) := by
  refine (onNode_of_eq _ k s _ i hk).trans ?_
  rw [hb]
  rfl

theorem exec_smpLoad_looper {l : Looper} (hb : s.nodes[i].body = .looper l) :
    exec (.smpLoad k base len) s =
      if loadInRange hardware base len then
        .next (s.setBody i (.looper { l with base := base, len := len, j := 0#2, idx := 0#32 }))
      else .next (recordError .cmdLoadRange (cmdWord 0x04#8 k) s) := by
  refine (onNode_of_eq _ k s _ i hk).trans ?_
  rw [hb]
  rfl

end

/-- Settles O10: a PLAYER and a LOOPER each by the range check, which is that of R325. -/
theorem smpLoadLoadsTheEntry : Obligations.SmpLoadLoadsTheEntry := by
  refine ⟨smpLoad_checksFirst, fun k base len s i hk => ⟨fun p hb => ?_, fun l hb => ?_⟩⟩
  · rw [exec_smpLoad_player hk hb, ← loadInRange_eq_false_iff, Bool.not_eq_false]
    exact ⟨fun h => by rw [h]; rfl, fun h => if_pos h⟩
  · rw [exec_smpLoad_looper hk hb, ← loadInRange_eq_false_iff, Bool.not_eq_false]
    exact ⟨fun h => by rw [h]; rfl, fun h => if_pos h⟩

/-! ### SMP_PLAY (R326) -/

theorem smpPlay_checksFirst : ChecksFirst 0x05#8 0#32 0#32 [.player] fun k a0 _ => .smpPlay k a0 :=
  checksFirst_of install_clear_iff (fun c hop => by simp [decode, hop]) (fun _ _ _ => rfl) (fun _ _ _ => rfl)
    fun _ _ _ => ⟨_, rfl, rfl⟩

/-- Settles O11: the fields of a PLAYER that SMP_PLAY stores. -/
theorem smpPlayRestartsThePlayer : Obligations.SmpPlayRestartsThePlayer := by
  refine ⟨smpPlay_checksFirst, fun k amp s i p hk hb => ?_⟩
  refine (onNode_of_eq _ k s _ i hk).trans ?_
  rw [hb]
  rfl

/-! ### LOOP_SETPOS (R345) -/

theorem loopSetpos_clear_iff (c : Command) :
    (rsvdOf c.word == 0#16 && hiHalf c.arg0 == 0#16) = true ↔ reservedClear 0xFFFF0000#32 0#32 c := by
  have h0 := and_highBits_eq_zero_iff c.arg0 (n := 16) (m := 16) rfl
  simp only [Bool.and_eq_true, beq_iff_eq, hiHalf, ← h0, reservedClear, BitVec.and_zero, and_true]
  rfl

theorem loopSetpos_checksFirst : ChecksFirst 0x06#8 0xFFFF0000#32 0#32 [.looper] fun k a0 _ => .loopSetpos k (loHalf a0) :=
  checksFirst_of loopSetpos_clear_iff (fun c hop => by simp [decode, hop]) (fun _ _ _ => rfl) (fun _ _ _ => rfl)
    fun _ _ _ => ⟨_, rfl, rfl⟩

/-- Settles O12: the one field of a LOOPER that LOOP_SETPOS stores. -/
theorem loopSetposStoresTheOffset : Obligations.LoopSetposStoresTheOffset := by
  refine ⟨loopSetpos_checksFirst, fun k frac s i l hk hb => ?_⟩
  refine (onNode_of_eq _ k s _ i hk).trans ?_
  rw [hb]
  rfl

/-! ### LOOP_GATE (R346) -/

theorem loopGate_checksFirst : ChecksFirst 0x07#8 0#32 0#32 [.looper] fun k a0 a1 =>
    .loopGate k (loHalf a0) (hiHalf a0) (loHalf a1) (hiHalf a1) :=
  checksFirst_of install_clear_iff (fun c hop => by simp [decode, hop]) (fun _ _ _ => rfl) (fun _ _ _ => rfl)
    fun _ _ _ => ⟨_, rfl, rfl⟩

theorem exec_loopGate {k : BitVec 8} {i : Fin hardware.nNodes} (hk : k.toNat = i.val) {s : State} {l : Looper}
    (hb : s.nodes[i].body = .looper l) (value thresh rmin rmax : Half) :
    exec (.loopGate k value thresh rmin rmax) s =
      .next (s.setBody i (.looper (gateLooper l (gateTarget value thresh rmin rmax)))) := by
  refine (onNode_of_eq _ k s _ i hk).trans ?_
  rw [hb]

/-- The target the gate map gives fits its field. -/
theorem gateLooper_target (l : Looper) (value thresh rmin rmax : Half) :
    (gateLooper l (gateTarget value thresh rmin rmax)).target.toNat = gateTarget value thresh rmin rmax := by
  have h := gateTarget_range value thresh rmin rmax
  refine Nat.mod_eq_of_lt ?_
  simp only [Config.ampHi] at h
  omega

/-- R346: what no gate changes. -/
theorem gateLooper_kept (l : Looper) (t : Nat) :
    (gateLooper l t).base = l.base ∧ (gateLooper l t).len = l.len ∧ (gateLooper l t).amp = l.amp
      ∧ (gateLooper l t).frac = l.frac := by
  unfold gateLooper
  split <;> exact ⟨rfl, rfl, rfl, rfl⟩

/-- R346: the start offset, which is 0 without material. -/
theorem strikeIdx_toNat (l : Looper) :
    (strikeIdx l).toNat = if 0 < l.len.toNat then l.frac.toNat * l.len.toNat / 65536 else 0 := by
  have hle : l.frac.toNat * l.len.toNat / 65536 ≤ l.len.toNat :=
    Nat.div_le_of_le_mul (Nat.mul_le_mul_right _ l.frac.isLt.le)
  have hs : (strikeIdx l).toNat = l.frac.toNat * l.len.toNat / 65536 := Nat.mod_eq_of_lt (hle.trans_lt l.len.isLt)
  split
  · exact hs
  · rw [hs]
    omega

/-- R346: a gate strikes a looper that was not gated, and leaves the position of any other. -/
theorem gateLooper_position (l : Looper) (t : Nat) :
    if 0 < t ∧ l.gated = false then (gateLooper l t).idx = strikeIdx l ∧ (gateLooper l t).j = 0#2
    else (gateLooper l t).idx = l.idx ∧ (gateLooper l t).j = l.j := by
  unfold gateLooper
  split <;> exact ⟨rfl, rfl⟩

/-- Settles O13, by what a gate stores in each field. -/
theorem loopGateSetsTheTarget : Obligations.LoopGateSetsTheTarget := by
  refine ⟨loopGate_checksFirst, fun k value thresh rmin rmax s i l hk hb => ?_⟩
  have hpos := gateLooper_position l (gateTarget value thresh rmin rmax)
  obtain ⟨hbase, hlen, hamp, hfrac⟩ := gateLooper_kept l (gateTarget value thresh rmin rmax)
  refine ⟨_, exec_loopGate hk hb value thresh rmin rmax, gateLooper_target .., rfl, hbase, hlen, hamp, hfrac, ?_⟩
  rw [← strikeIdx_toNat, BitVec.toNat_inj]
  exact hpos

/-! ### The gate map (R347) -/

section
variable {value thresh rmin rmax : Half} (ht : thresh.toNat ≤ value.toNat)
include ht

/-- R346 at and above the threshold, in a range that is not empty. -/
theorem gateTarget_of_lt (hr : rmin.toNat < rmax.toNat) :
    gateTarget value thresh rmin rmax =
      Config.ampLo + (clampNat value.toNat rmin.toNat rmax.toNat - rmin.toNat) * (Config.ampHi - Config.ampLo)
        / (rmax.toNat - rmin.toNat) := by
  rw [gateTarget, if_neg (Nat.not_lt.2 ht), if_neg (Nat.not_le.2 hr)]

theorem gateTarget_of_le (hr : rmax.toNat ≤ rmin.toNat) : gateTarget value thresh rmin rmax = Config.ampHi := by
  rw [gateTarget, if_neg (Nat.not_lt.2 ht), if_pos hr]

/-- R347: AMP_LO at the bottom of the range. -/
theorem gateTarget_bottom (hr : rmin.toNat < rmax.toNat) (hv : value.toNat ≤ rmin.toNat) :
    gateTarget value thresh rmin rmax = Config.ampLo := by
  have hc : clampNat value.toNat rmin.toNat rmax.toNat - rmin.toNat = 0 := by unfold clampNat; omega
  rw [gateTarget_of_lt ht hr, hc, Nat.zero_mul, Nat.zero_div]

/-- R347: AMP_HI at the top of the range. -/
theorem gateTarget_top (hv : rmax.toNat ≤ value.toNat) : gateTarget value thresh rmin rmax = Config.ampHi := by
  rcases Nat.lt_or_ge rmin.toNat rmax.toNat with hr | hr
  · have hc : clampNat value.toNat rmin.toNat rmax.toNat = rmax.toNat := by unfold clampNat; omega
    rw [gateTarget_of_lt ht hr, hc, Nat.mul_div_cancel_left _ (Nat.sub_pos_of_lt hr)]
    rfl
  · exact gateTarget_of_le ht hr

/-- R347: above the threshold the target does not fall as the value rises. -/
theorem gateTarget_mono {value2 : Half} (hv : value.toNat ≤ value2.toNat) :
    gateTarget value thresh rmin rmax ≤ gateTarget value2 thresh rmin rmax := by
  rcases Nat.lt_or_ge rmin.toNat rmax.toNat with hr | hr
  · rw [gateTarget_of_lt ht hr, gateTarget_of_lt (ht.trans hv) hr]
    have hc : clampNat value.toNat rmin.toNat rmax.toNat ≤ clampNat value2.toNat rmin.toNat rmax.toNat := by
      unfold clampNat; omega
    exact Nat.add_le_add_left (Nat.div_le_div_right (Nat.mul_le_mul_right _ (Nat.sub_le_sub_right hc _))) _
  · rw [gateTarget_of_le ht hr, gateTarget_of_le (ht.trans hv) hr]

end

/-- Settles O14: the target stored is the gate map's. -/
theorem gateMapIsMonotone : Obligations.GateMapIsMonotone := by
  intro k value value2 thresh rmin rmax s i l hk hb hv
  refine ⟨_, _, exec_loopGate hk hb value thresh rmin rmax, exec_loopGate hk hb value2 thresh rmin rmax, ?_⟩
  rw [gateLooper_target, gateLooper_target]
  exact ⟨gateTarget_range .., gateTarget_bottom, gateTarget_top, fun ht => gateTarget_mono ht hv⟩

end Sys2Proof.Machine
end

section
/-!
PROOF. Produce of the leaf sources: one call, however it is reached, runs the per-sample loop on the fields of its node; calls one
after the other run one loop; and the loops in closed form (42_leaf_sources R300, R310, R316, R321, R323, R340).
-/

namespace Sys2Proof.Machine

open Sys2Proof.Config (hardware)

variable {σ : Type}

/-! ### One call (R260) -/

section
variable {k : BitVec 8} {n : Nat} {s : State} {i : Fin hardware.nNodes} (h1 : 1 ≤ n) (hn : n ≤ 96) (hk : k.toNat = i.val)
include h1 hn hk

/-- A loop on the fields of a node changes these fields and dest only. -/
theorem exec_ofType_of_finish {ty : NodeType} (ht : s.nodes[i].body.type = ty) {mk : σ → NodeBody} {r : List Sample × σ}
    (hp : produceAt s.lib 16 k n s.nodes = finish s.nodes i mk r) :
    exec (Instr.ofType ty k n) s = .next { s.setBody i (mk r.2) with dest := r.1 } := by
  rw [exec_ofType_of_type h1 hn hk ht, hp]
  rfl

theorem exec_produceOsc {o : Osc} (hb : s.nodes[i].body = .osc o) :
    exec (.produceOsc k n) s = .next
      { s.setBody i (.osc (runSamples oscSample n o).2) with dest := (runSamples oscSample n o).1 } :=
  exec_ofType_of_finish (ty := .osc) h1 hn hk (by rw [hb]; rfl) (produceAt_osc s.lib 15 n k s.nodes i hk o hb)

theorem exec_producePlayer {p : Player} (hb : s.nodes[i].body = .player p) (hp : playerInLib hardware p = true) :
    exec (.producePlayer k n) s = .next
      { s.setBody i (.player (runSamples (playerSample s.lib s.nodes[i].div) n p).2) with
        dest := (runSamples (playerSample s.lib s.nodes[i].div) n p).1 } :=
  exec_ofType_of_finish (ty := .player) h1 hn hk (by rw [hb]; rfl) (produceAt_player s.lib 15 n k s.nodes i hk p hb hp)

theorem exec_produceLooper {l : Looper} (hb : s.nodes[i].body = .looper l) (hl : looperInLib hardware l = true) :
    exec (.produceLooper k n) s = .next
      { s.setBody i (.looper (runSamples (looperSample hardware s.lib s.nodes[i].div) n l).2) with
        dest := (runSamples (looperSample hardware s.lib s.nodes[i].div) n l).1 } :=
  exec_ofType_of_finish (ty := .looper) h1 hn hk (by rw [hb]; rfl) (produceAt_looper s.lib 15 n k s.nodes i hk l hb hl)

end

/-! ### SILENCE (R300) -/

/-- Settles O19: a SILENCE node has no loop; reset makes every node one. -/
theorem silenceProducesZeros : Obligations.SilenceProducesZeros := by
  refine ⟨fun k n s i hk h1 hn hb => ?_, fun i => ?_⟩
  · refine (exec_ofType_of_type (ty := .silence) h1 hn hk (by rw [← Fin.getElem_fin, hb]; rfl)).trans ?_
    rw [produceAt_silence s.lib 15 n k s.nodes i hk hb]
    rfl
  · simp [State.reset, State.resetOf, Node.atReset]

/-! ### A loop as a chain of samples -/

theorem runSamples_add (body : σ → Sample × σ) (m n : Nat) (st : σ) :
    runSamples body (m + n) st =
      ((runSamples body m st).1 ++ (runSamples body n (runSamples body m st).2).1,
        (runSamples body n (runSamples body m st).2).2) := by
  induction m generalizing st with
  | zero => rw [Nat.zero_add]; rfl
  | succ m ih => rw [Nat.add_right_comm, runSamples, ih]; rfl

/-- Where the body meets a rule in every state that meets P, and keeps P, the states of the loop are a chain of the rule. -/
theorem runSamples_chain {P : σ → Prop} {R : σ → Sample → σ → Prop} {body : σ → Sample × σ}
    (hrule : ∀ st, P st → R st (body st).1 (body st).2) (hkeep : ∀ st, P st → P (body st).2) {st : σ} (h0 : P st) (n m : Nat)
    (hm : m < n) :
    ∃ y, (runSamples body n st).1[m]? = some y ∧ R (stateAfter body m st) y (stateAfter body (m + 1) st) := by
  refine ⟨_, runSamples_get body n m st hm, ?_⟩
  rw [stateAfter_succ]
  exact hrule _ (runSamples_keeps P body hkeep m st h0)

/-! ### PLAYER (R321) -/

theorem playerInLib_of_bodyOk {D : Divisor} {p : Player} (h : bodyOk hardware D (.player p) = true) :
    playerInLib hardware p = true := by
  simp only [bodyOk, Bool.and_eq_true] at h
  exact h.1.1

/-- Settles O22: each sample of the loop meets the rule of R321. -/
theorem playerProducesItsEntry : Obligations.PlayerProducesItsEntry := by
  intro k n s i p hk h1 hn hb hok
  exact ⟨fun m => stateAfter (playerSample s.lib s.nodes[i].div) m p, _,
    exec_producePlayer h1 hn hk hb (playerInLib_of_bodyOk hok), rfl, runSamples_length ..,
    runSamples_chain (playerSample_rule s.lib _) (playerSample_ok s.lib _) hok n⟩

/-! ### LOOPER (R340) -/

theorem looperInLib_of_bodyOk {D : Divisor} {l : Looper} (h : bodyOk hardware D (.looper l) = true) :
    looperInLib hardware l = true := by
  simp only [bodyOk, Bool.and_eq_true, decide_eq_true_eq] at h
  obtain ⟨⟨⟨⟨⟨hlib, hidx⟩, -⟩, -⟩, -⟩, -⟩ := h
  simp only [looperInLib, Bool.and_eq_true, Bool.or_eq_true, decide_eq_true_eq, beq_iff_eq, ← toNat_eq_zero_iff]
  omega

/-- Settles O24: each sample of the loop meets the rule of R340. -/
theorem looperProducesTheLoop : Obligations.LooperProducesTheLoop := by
  intro k n s i l hk h1 hn hb hok
  exact ⟨fun m => stateAfter (looperSample hardware s.lib s.nodes[i].div) m l, _,
    exec_produceLooper h1 hn hk hb (looperInLib_of_bodyOk hok), rfl, runSamples_length ..,
    runSamples_chain (looperSample_rule s.lib _) (looperSample_ok s.lib _) hok n⟩

/-! ### OSC (R310) -/

/-- R310: an oscillator after m samples, in closed form. -/
def oscAfter (o : Osc) (m : Nat) : Osc :=
  { o with
    phase := BitVec.ofNat 32 (o.phase.toNat + m * o.inc.toNat), amp := BitVec.ofNat 32 (o.amp.toNat - m * o.dec.toNat) }

theorem oscAfter_phase (o : Osc) (m : Nat) : (oscAfter o m).phase.toNat = (o.phase.toNat + m * o.inc.toNat) % 2 ^ 32 :=
  BitVec.toNat_ofNat ..

theorem oscAfter_amp (o : Osc) (m : Nat) : (oscAfter o m).amp.toNat = o.amp.toNat - m * o.dec.toNat :=
  Nat.mod_eq_of_lt ((Nat.sub_le _ _).trans_lt o.amp.isLt)

theorem oscSample_oscAfter (o : Osc) (m : Nat) : (oscSample (oscAfter o m)).2 = oscAfter o (m + 1) := by
  have hphase : (oscAfter o m).phase + o.inc = (oscAfter o (m + 1)).phase := by
    rw [← BitVec.toNat_inj, BitVec.toNat_add, oscAfter_phase, oscAfter_phase, Nat.mod_add_mod, Nat.succ_mul, Nat.add_assoc]
  have hamp : BitVec.ofNat 32 ((oscAfter o m).amp.toNat - o.dec.toNat) = (oscAfter o (m + 1)).amp := by
    rw [oscAfter_amp, Nat.sub_sub, ← Nat.succ_mul]
    rfl
  exact congrArg₂ (fun phase amp => ({ o with phase, amp } : Osc)) hphase hamp

theorem stateAfter_oscSample (o : Osc) (m : Nat) : stateAfter oscSample m o = oscAfter o m := by
  induction m with
  | zero => simp [stateAfter, runSamples, oscAfter]
  | succ m ih => rw [stateAfter_succ, ih, oscSample_oscAfter]

/-- The folded phase lies between -8192 and 8192 (R310). -/
theorem triangle_range (phase : Word) : -8192 ≤ triangle phase ∧ triangle phase ≤ 8192 := by
  have hp := phase.isLt
  unfold triangle
  simp only [rshrRound]
  split <;> omega

/-- R310, R63: with amp ≤ 2^30 no output leaves ±8192. -/
theorem oscOutput_range (phase : Word) {a : Nat} (ha : a ≤ 2 ^ 30) :
    -8192 ≤ rshrRound (triangle phase * a) 30 ∧ rshrRound (triangle phase * a) 30 ≤ 8192 := by
  obtain ⟨hlo, hhi⟩ := triangle_range phase
  have hge : -8192 * 2 ^ 30 ≤ triangle phase * a := by nlinarith
  have hle : triangle phase * a ≤ 8192 * 2 ^ 30 := by nlinarith
  exact ⟨(rshrRound_exact (-8192) 30).symm.trans_le (rshrRound_mono 30 hge),
    (rshrRound_mono 30 hle).trans_eq (rshrRound_exact 8192 30)⟩

/-- Settles O20: the states of the loop are the closed form, and each output is the body's on it. -/
theorem oscProducesTheTriangle : Obligations.OscProducesTheTriangle := by
  intro k n s i o hk h1 hn hb phaseAt ampAt waveAt
  have hend : (runSamples oscSample n o).2 = oscAfter o n := stateAfter_oscSample o n
  refine ⟨_, _, exec_produceOsc h1 hn hk hb, ?_, ?_, ?_, ?_, runSamples_length .., fun m hm => ?_⟩
  · rw [hend, oscAfter_phase]
  · rw [hend, oscAfter_amp]
  · rw [hend]; rfl
  · rw [hend]; rfl
  · have hwave : triangle (oscAfter o m).phase = waveAt m := by
      unfold triangle
      rw [oscAfter_phase]
    refine ⟨_, runSamples_get oscSample n m o hm, ?_⟩
    have hout : (oscSample (stateAfter oscSample m o)).1.toInt = sat16 (rshrRound (waveAt m * ampAt m) 30) := by
      rw [stateAfter_oscSample, oscSample, toSample_toInt, oscAfter_amp, hwave]
    refine ⟨hout, fun ha => ?_⟩
    have hr := oscOutput_range (oscAfter o m).phase (a := ampAt m) ((Nat.sub_le _ _).trans ha)
    rw [hwave] at hr
    rw [hout, sat16_of_fits _ (by omega)]
    exact ⟨rfl, hr⟩

/-! ### Calls one after the other (R260) -/

theorem setBody_self {s : State} {i : Fin hardware.nNodes} {b : NodeBody} (hb : s.nodes[i].body = b) : s.setBody i b = s := by
  have hset : setBody s.nodes i b = s.nodes := by
    subst hb
    exact Vector.set_getElem_self _
  rw [State.setBody, hset]

theorem setBody_setBody (s : State) (i : Fin hardware.nNodes) (b b' : NodeBody) :
    (s.setBody i b).setBody i b' = s.setBody i b' := by
  simp [State.setBody, setBody]

/-- The produce operations `instr` run one loop on the fields of node i: while LIB is `lib` and the node's divisor is D, a call
that meets P runs the body once per sample, and the body keeps P. -/
structure LeafLoop (lib : Lib) (D : Divisor) (i : Fin hardware.nNodes) (instr : Nat → Instr) (mk : σ → NodeBody)
    (body : σ → Sample × σ) (P : σ → Prop) : Prop where
  call : ∀ {n : Nat} {s : State} {st : σ}, 1 ≤ n → n ≤ 96 → s.lib = lib → s.nodes[i].div = D → s.nodes[i].body = mk st → P st →
    exec (instr n) s = .next { s.setBody i (mk (runSamples body n st).2) with dest := (runSamples body n st).1 }
  keeps : ∀ st, P st → P (body st).2

/-- However many samples each call asks for, the calls run one loop over all of them. -/
theorem LeafLoop.producedBy_eq {lib : Lib} {D : Divisor} {i : Fin hardware.nNodes} {instr : Nat → Instr} {mk : σ → NodeBody}
    {body : σ → Sample × σ} {P : σ → Prop} (h : LeafLoop lib D i instr mk body P) {ns : List Nat}
    (hns : ∀ n ∈ ns, 1 ≤ n ∧ n ≤ 96) {s : State} {st : σ} (hlib : s.lib = lib) (hD : s.nodes[i].div = D)
    (hb : s.nodes[i].body = mk st) (hP : P st) :
    ∃ xs, producedBy instr ns s = .next ((runSamples body ns.sum st).1,
      { s.setBody i (mk (runSamples body ns.sum st).2) with dest := xs }) := by
  induction ns generalizing s st with
  | nil => exact ⟨s.dest, by rw [List.sum_nil, runSamples, setBody_self hb]; rfl⟩
  | cons n ns ih =>
    obtain ⟨h1, hn⟩ := hns n List.mem_cons_self
    have hcall := h.call h1 hn hlib hD hb hP
    obtain ⟨xs, hxs⟩ := ih (fun m hm => hns m (List.mem_cons_of_mem n hm))
      (s := { s.setBody i (mk (runSamples body n st).2) with dest := (runSamples body n st).1 })
      (st := (runSamples body n st).2) hlib (by simpa using hD) (by simp) (runSamples_keeps P body h.keeps n st hP)
    refine ⟨xs, ?_⟩
    rw [producedBy, hcall, andThen_next, hxs, andThen_next, List.sum_cons, runSamples_add]
    congr 2
    exact congrArg (fun u : State => { u with dest := xs }) (setBody_setBody s i _ _)

/-! ### The end of a note (R316) -/

theorem oscLeafLoop (lib : Lib) (D : Divisor) {k : BitVec 8} {i : Fin hardware.nNodes} (hk : k.toNat = i.val) :
    LeafLoop lib D i (.produceOsc k) .osc oscSample fun _ => True where
  call h1 hn _ _ hb _ := exec_produceOsc h1 hn hk hb
  keeps _ _ := trivial

theorem oscSample_of_amp_zero {o : Osc} (h : o.amp.toNat = 0) : (oscSample o).1 = 0#16 := by
  simp only [oscSample, h, Nat.cast_zero, Int.mul_zero, rshrRound_zero_value]
  rfl

/-- Settles O21: the calls run one loop, whose amplitude after m samples is 2^30 - m * dec. -/
theorem oscNoteIsSilentAfterItsDuration : Obligations.OscNoteIsSilentAfterItsDuration := by
  intro k inc dur s i o hk hb hdur
  obtain ⟨hpos, -, hlo, -⟩ := ceilDiv_least (a := 2 ^ 30) (by decide) hdur
  have hamp (m : Nat) : (oscAfter (noteOsc inc dur) m).amp.toNat = 2 ^ 30 - m * ceilDiv (2 ^ 30) dur.toNat := by
    rw [oscAfter_amp, noteOsc_dec, Nat.max_eq_left hdur]
    rfl
  have hzero {m : Nat} (hm : dur.toNat ≤ m) : (oscAfter (noteOsc inc dur) m).amp.toNat = 0 := by
    rw [hamp, Nat.sub_eq_zero_iff_le, Nat.mul_comm]
    exact hlo.trans (Nat.mul_le_mul_left _ hm)
  refine ⟨_, ceilDiv (2 ^ 30) dur.toNat, exec_oscNote hk hb inc dur, hpos, by rwa [Nat.mul_comm], fun ns hns => ?_⟩
  obtain ⟨xs, hxs⟩ := (oscLeafLoop _ _ hk).producedBy_eq hns (s := s.setBody i (.osc (noteOsc inc dur)))
    (st := noteOsc inc dur) rfl rfl (by simp) trivial
  have hend : (runSamples oscSample ns.sum (noteOsc inc dur)).2 = oscAfter (noteOsc inc dur) ns.sum :=
    stateAfter_oscSample ..
  rw [hend] at hxs
  refine ⟨_, _, oscAfter (noteOsc inc dur) ns.sum, hxs, by simp, runSamples_length .., hamp _,
    fun hm => (toNat_eq_zero_iff _).1 (hzero hm), fun m y hm hy => ?_⟩
  have hlt : m < ns.sum := by simpa using (List.getElem?_eq_some_iff.1 hy).1
  rw [runSamples_get _ _ _ _ hlt, stateAfter_oscSample, oscSample_of_amp_zero (hzero hm)] at hy
  exact (Option.some.inj hy).symm

/-! ### A player at divisor 1 and amplitude 1.0 (R323) -/

theorem playerSample_keeps_range (lib : Lib) (D : Divisor) (p : Player) :
    (playerSample lib D p).2.base = p.base ∧ (playerSample lib D p).2.len = p.len := by
  unfold playerSample
  split
  · exact ⟨rfl, rfl⟩
  · dsimp only
    split <;> exact ⟨rfl, rfl⟩

theorem playerLeafLoop (lib : Lib) (D : Divisor) {k : BitVec 8} {i : Fin hardware.nNodes} (hk : k.toNat = i.val) :
    LeafLoop lib D i (.producePlayer k) .player (playerSample lib D) fun p => playerInLib hardware p = true where
  call h1 hn hlib hD hb hp := by
    subst hlib hD
    exact exec_producePlayer h1 hn hk hb hp
  keeps p hp := by
    obtain ⟨hbase, hlen⟩ := playerSample_keeps_range lib D p
    rwa [playerInLib, hbase, hlen]

theorem playerSample_finished (lib : Lib) (D : Divisor) {p : Player} (h : p.len.toNat ≤ p.idx.toNat) :
    playerSample lib D p = (0#16, p) := if_pos h

/-- R323: the library value, times 64, and the next position. -/
theorem playerSample_unscaled (lib : Lib) {p : Player} (h : p.idx.toNat < p.len.toNat) (hamp : p.amp = 0x40000000#32)
    (hj : p.j = 0#2) :
    playerSample lib .one p = (toSample (libValue lib p.base p.idx.toNat * 64), { p with idx := p.idx + 1#32 }) := by
  have hscaled (c nx : Int) : scaled (interpolate Divisor.one.toNat p.j.toNat c nx) p.amp Divisor.one.log2
      = toSample (c * 64) := by
    have hc : interpolate Divisor.one.toNat p.j.toNat c nx = c := by simp [interpolate, hj, Divisor.log2]
    rw [scaled, hc, hamp]
    exact congrArg toSample (rshrRound_exact (c * 64) 30)
  have hwindow : p.j.toNat + 1 = Divisor.one.toNat := by rw [hj]; rfl
  rw [playerSample, if_neg (Nat.not_le.2 h)]
  dsimp only
  rw [hscaled, if_pos hwindow, hj]

/-- R323: the position after m samples, one library value each, until the end of the entry. -/
def playerPos (p : Player) (m : Nat) : Nat :=
  if p.idx.toNat < p.len.toNat then min (p.idx.toNat + m) p.len.toNat else p.idx.toNat

theorem playerPos_lt_iff (p : Player) (m : Nat) : playerPos p m < p.len.toNat ↔ p.idx.toNat + m < p.len.toNat := by
  unfold playerPos
  split <;> omega

/-- R323: a player after m samples. -/
def playerAfter (p : Player) (m : Nat) : Player := { p with idx := BitVec.ofNat 32 (playerPos p m) }

theorem playerAfter_idx (p : Player) (m : Nat) : (playerAfter p m).idx.toNat = playerPos p m := by
  have hidx := p.idx.isLt
  have hlen := p.len.isLt
  refine Nat.mod_eq_of_lt ?_
  unfold playerPos
  split <;> omega

/-- R323: one sample of a player that has given m. -/
theorem playerSample_playerAfter (lib : Lib) {p : Player} (hamp : p.amp = 0x40000000#32) (hj : p.j = 0#2) (m : Nat) :
    playerSample lib .one (playerAfter p m) =
      (if p.idx.toNat + m < p.len.toNat then toSample (libValue lib p.base (p.idx.toNat + m) * 64) else 0#16,
        playerAfter p (m + 1)) := by
  have hpos := playerAfter_idx p m
  have hlt := playerPos_lt_iff p m
  by_cases h : p.idx.toNat + m < p.len.toNat
  · have hcur : playerPos p m = p.idx.toNat + m := by rw [playerPos, if_pos (by omega)]; omega
    have hnext : playerPos p (m + 1) = playerPos p m + 1 := by rw [hcur, playerPos, if_pos (by omega)]; omega
    rw [if_pos h, playerSample_unscaled lib (p := playerAfter p m) (hpos ▸ hlt.2 h) hamp hj, hpos, hcur]
    refine congrArg (Prod.mk _) ?_
    rw [playerAfter, playerAfter, hnext, BitVec.ofNat_add]
  · have hnext : playerPos p (m + 1) = playerPos p m := by unfold playerPos; split <;> omega
    rw [if_neg h, playerSample_finished lib .one (p := playerAfter p m) (by rw [hpos]; exact Nat.not_lt.1 (mt hlt.1 h)),
      playerAfter, playerAfter, hnext]

theorem stateAfter_playerSample (lib : Lib) {p : Player} (hamp : p.amp = 0x40000000#32) (hj : p.j = 0#2) (m : Nat) :
    stateAfter (playerSample lib .one) m p = playerAfter p m := by
  induction m with
  | zero =>
    have hpos : playerPos p 0 = p.idx.toNat := by unfold playerPos; split <;> omega
    rw [playerAfter, hpos, BitVec.ofNat_toNat, BitVec.setWidth_eq]
    rfl
  | succ m ih => rw [stateAfter_succ, ih, playerSample_playerAfter lib hamp hj]

/-- A library value times 64 is a Sample (R204). -/
theorem sat16_libValue (lib : Lib) (base : Word) (a : Nat) : sat16 (libValue lib base a * 64) = libValue lib base a * 64 := by
  have hlo := BitVec.le_toInt (libRead8 lib (base.toNat + a))
  have hhi := BitVec.toInt_lt (x := libRead8 lib (base.toNat + a))
  refine sat16_of_fits _ ?_
  unfold libValue
  omega

/-- Settles O23: the calls run one loop, whose m-th sample is the value at the position m further on. -/
theorem playerReproducesTheLibrary : Obligations.PlayerReproducesTheLibrary := by
  intro k s i p ns hk hb hD hamp hj hrange hns
  obtain ⟨xs, hxs⟩ := (playerLeafLoop s.lib .one hk).producedBy_eq hns rfl hD hb (decide_eq_true hrange)
  have hend : (runSamples (playerSample s.lib .one) ns.sum p).2 = playerAfter p ns.sum :=
    stateAfter_playerSample s.lib hamp hj ns.sum
  rw [hend] at hxs
  refine ⟨playerAfter p ns.sum, _, _, hxs, rfl, playerAfter_idx .., hj, rfl, rfl, rfl, runSamples_length .., fun m hm => ?_⟩
  refine ⟨_, runSamples_get _ _ _ _ hm, ?_⟩
  rw [stateAfter_playerSample s.lib hamp hj, playerSample_playerAfter s.lib hamp hj]
  dsimp only
  split
  · rw [toSample_toInt, sat16_libValue, libValue]
  · rfl

end Sys2Proof.Machine
end

section
/-!
PROOF. The commands of the combinators: FLT_SET with its feedback coefficient, DLY_SET_DELAY and DLY_SET_FEEDBACK (43_combinators R401,
R430, R431).
-/

namespace Sys2Proof.Machine

open Sys2Proof.Config (hardware)

/-! ### FLT_SET (R401) -/

theorem fltSet_clear_iff (c : Command) :
    (rsvdOf c.word == 0#16 && hiHalf c.arg0 == 0#16 && hiHalf c.arg1 == 0#16) = true ↔
      reservedClear 0xFFFF0000#32 0xFFFF0000#32 c := by
  have h0 := and_highBits_eq_zero_iff c.arg0 (n := 16) (m := 16) rfl
  have h1 := and_highBits_eq_zero_iff c.arg1 (n := 16) (m := 16) rfl
  simp only [Bool.and_eq_true, beq_iff_eq, hiHalf, ← h0, ← h1, and_assoc]
  rfl

theorem fltSet_checksFirst : ChecksFirst 0x08#8 0xFFFF0000#32 0xFFFF0000#32 [.filter] fun k a0 a1 =>
    .fltSet k (loHalf a0) (loHalf a1) :=
  checksFirst_of fltSet_clear_iff (fun c hop => by simp [decode, hop]) (fun _ _ _ => rfl) (fun _ _ _ => rfl)
    fun _ _ _ => ⟨_, rfl, rfl⟩

/-- A quotient of magnitudes with the sign of the divisor is the quotient truncated toward 0. -/
theorem tdiv_eq_of_sign (a : Nat) (d : Int) :
    Int.tdiv a d = if 0 < d then ((a / d.natAbs : Nat) : Int) else -((a / d.natAbs : Nat) : Int) := by
  split
  · next h => rw [Int.ofNat_tdiv, Int.natAbs_of_nonneg h.le]
  · next h => rw [Int.ofNat_tdiv, Int.ofNat_natAbs_of_nonpos (Int.not_lt.1 h), Int.tdiv_neg, Int.neg_neg]

theorem filterFb_eq (f q : Nat) :
    filterFb f q = q + Int.tdiv ((q : Int) * 16384) (if f = 16384 then 1 else 16384 - f) := by
  have hz : (2 : Int) ^ 14 - f = 0 ↔ f = 16384 := by omega
  have hd : (if (2 : Int) ^ 14 - f = 0 then 1 else (2 : Int) ^ 14 - f) = if f = 16384 then 1 else (16384 : Int) - f :=
    if_congr hz rfl rfl
  have hq : (q : Int) * 16384 = (q * 2 ^ 14 : Nat) := by push_cast; rfl
  rw [filterFb, hd, hq, tdiv_eq_of_sign, add_ite]
  rfl

/-- The feedback of a clamped resonance fits its field, whatever the divisor (R67). -/
theorem filterFb_stored (f : Nat) {q : Nat} (hq : q ≤ 16383) : (BitVec.ofInt 32 (filterFb f q)).toInt = filterFb f q := by
  have hm := Int.natAbs_tdiv_le_natAbs ((q : Int) * 16384) (if f = 16384 then 1 else 16384 - f)
  rw [BitVec.toInt_ofInt, Int.bmod_def, filterFb_eq]
  omega

/-- Settles O15: the clamps and the coefficient each fit their field. -/
theorem fltSetComputesTheFeedback : Obligations.FltSetComputesTheFeedback := by
  refine ⟨fltSet_checksFirst, ?_⟩
  intro k fArg qArg s i n hk hb f q d
  refine ⟨{ n with f := BitVec.ofNat 16 f, q := BitVec.ofNat 16 q, fb := BitVec.ofInt 32 (filterFb f q) }, ?_,
    Nat.mod_eq_of_lt (by omega), Nat.mod_eq_of_lt (by omega),
    (filterFb_stored f (Nat.min_le_right _ _)).trans (filterFb_eq f q), rfl, rfl⟩
  refine (onNode_of_eq _ k s _ i hk).trans ?_
  rw [hb]
  rfl

/-! ### DLY_SET_DELAY (R430) -/

theorem dlySetDelay_checksFirst : ChecksFirst 0x09#8 0#32 0#32 [.delay] fun k a0 _ => .dlySetDelay k a0 :=
  checksFirst_of install_clear_iff (fun c hop => by simp [decode, hop]) (fun _ _ _ => rfl) (fun _ _ _ => rfl)
    fun _ _ _ => ⟨_, rfl, rfl⟩

/-- Settles O16: the clamped target fits its field. -/
theorem dlySetDelayClampsTheTarget : Obligations.DlySetDelayClampsTheTarget := by
  refine ⟨dlySetDelay_checksFirst, fun k delay s i n hk hb => ?_⟩
  refine ⟨BitVec.ofNat 32 (clampNat delay.toNat 0x00010000 ((hardware.tankLen - 1) * 2 ^ 16 - 1)), ?_, ?_⟩
  · refine (onNode_of_eq _ k s _ i hk).trans ?_
    rw [hb]
    rfl
  · exact Nat.mod_eq_of_lt ((Nat.min_le_right _ _).trans_lt (by decide))

/-! ### DLY_SET_FEEDBACK (R431) -/

theorem dlySetFeedback_checksFirst : ChecksFirst 0x0A#8 0xFFFF0000#32 0#32 [.delay] fun k a0 _ => .dlySetFeedback k (loHalf a0) :=
  checksFirst_of loopSetpos_clear_iff (fun c hop => by simp [decode, hop]) (fun _ _ _ => rfl) (fun _ _ _ => rfl)
    fun _ _ _ => ⟨_, rfl, rfl⟩

/-- Settles O17: the clamped gain fits its field. -/
theorem dlySetFeedbackClampsTheGain : Obligations.DlySetFeedbackClampsTheGain := by
  refine ⟨dlySetFeedback_checksFirst, fun k fb s i n hk hb => ?_⟩
  refine ⟨BitVec.ofNat 32 (min fb.toNat Config.fbkMax * 2 ^ 15), ?_, ?_⟩
  · refine (onNode_of_eq _ k s _ i hk).trans ?_
    rw [hb]
    rfl
  · have hle : min fb.toNat Config.fbkMax * 2 ^ 15 ≤ Config.fbkMax * 2 ^ 15 := Nat.mul_le_mul_right _ (Nat.min_le_right _ _)
    exact Nat.mod_eq_of_lt (hle.trans_lt (by decide))

end Sys2Proof.Machine
end

section
/-!
PROOF. Produce of the combinators: one call runs produce of the children, then the combinator's own loop over their Samples
(43_combinators R380, R405, R406, R432; 41_delivery_engine R262, R263).
-/

namespace Sys2Proof.Machine

open Sys2Proof.Config (hardware)

variable {C : Config} {σ : Type}

/-! ### The children (R61, R262) -/

/-- The children a node of a type uses lie above it (R61). -/
theorem childrenValid_of_nodesOk {t : NodeTable C} {i : Fin C.nNodes} (h : nodesOk t = true) {ty : NodeType}
    (ht : t[i.val].body.type = ty) :
    childrenValid C ty (BitVec.ofNat 8 i.val) t[i.val].childA t[i.val].childB = true := by
  have hw := ((nodesOk_iff t).1 h i).1
  simp only [wiringOk, Bool.and_eq_true] at hw
  exact ht ▸ hw.2

/-- Both children of a MIXER are nodes above it (R61). -/
theorem mixerChildren_above {t : NodeTable C} {i : Fin C.nNodes} (h : nodesOk t = true) (ht : t[i.val].body.type = .mixer) :
    (∃ c : Fin C.nNodes, t[i.val].childA.toNat = c.val ∧ i.val < c.val)
      ∧ ∃ c : Fin C.nNodes, t[i.val].childB.toNat = c.val ∧ i.val < c.val := by
  have hv := childrenValid_of_nodesOk h ht
  simp only [childrenValid, Bool.and_eq_true] at hv
  exact ⟨childAbove_idx i.val i.isLt _ hv.1, childAbove_idx i.val i.isLt _ hv.2⟩

/-- The one child of a FILTER or a DELAY is a node above it (R61). -/
theorem oneChild_above {t : NodeTable C} {i : Fin C.nNodes} (h : nodesOk t = true)
    (ht : t[i.val].body.type = .filter ∨ t[i.val].body.type = .delay) :
    ∃ c : Fin C.nNodes, t[i.val].childA.toNat = c.val ∧ i.val < c.val := by
  refine childAbove_idx i.val i.isLt _ ?_
  rcases ht with ht | ht
  all_goals
    have hv := childrenValid_of_nodesOk h ht
    simp only [childrenValid, Bool.and_eq_true] at hv
    exact hv.1

/-- Produce of a child of node i, as an instruction and as node i's own produce calls it: one and the same. -/
theorem exec_childInstr_below {n : Nat} {s : State} {i c : Fin hardware.nNodes} {k : BitVec 8} (h1 : 1 ≤ n) (hn : n ≤ 96)
    (h : nodesOk s.nodes = true) (hc : k.toNat = c.val) (hic : i.val < c.val) :
    ∃ (xs : List Sample) (t' : NodeTable), Produces s.lib s.nodes c n xs t'
      ∧ exec (childInstr s c n) s = .next { s with nodes := t', dest := xs }
      ∧ produceAt s.lib 15 k n s.nodes = .next (xs, t') := by
  obtain ⟨xs, t', p, he⟩ := exec_childInstr c ((countOk_iff n).2 ⟨h1, hn⟩) h
  refine ⟨xs, t', p, he, p.eq 15 k hc ?_ (by decide)⟩
  show 16 ≤ 15 + c.val
  omega

/-! ### One call (R260) -/

section
variable {k : BitVec 8} {n : Nat} {s : State} {i : Fin hardware.nNodes} (h1 : 1 ≤ n) (hn : n ≤ 96) (hk : k.toNat = i.val)
  {xs ys : List Sample} {t t' : NodeTable}
include h1 hn hk

theorem exec_produceMixer {m : Mixer} (hb : s.nodes[i].body = .mixer m)
    (ha : produceAt s.lib 15 s.nodes[i].childA n s.nodes = .next (xs, t))
    (hc : produceAt s.lib 15 s.nodes[i].childB n t = .next (ys, t')) :
    exec (.produceMixer k n) s = .next
      { ({ s with nodes := t' } : State).setBody i (.mixer (fillScratch m ys)) with dest := mixSamples xs ys } := by
  refine (exec_ofType_of_type (ty := .mixer) h1 hn hk (by rw [← Fin.getElem_fin, hb]; rfl)).trans ?_
  rw [Fin.getElem_fin] at hb ha hc
  rw [produceAt_mixer s.lib 15 n k s.nodes i hk m hb, ha, andThen_next, hc]
  rfl

theorem exec_produceFilter {f : Filter} (hb : s.nodes[i].body = .filter f)
    (ha : produceAt s.lib 15 s.nodes[i].childA n s.nodes = .next (xs, t)) :
    exec (.produceFilter k n) s = .next
      { ({ s with nodes := t } : State).setBody i (.filter (mapSamples filterSample xs f).2) with
        dest := (mapSamples filterSample xs f).1 } := by
  refine (exec_ofType_of_type (ty := .filter) h1 hn hk (by rw [← Fin.getElem_fin, hb]; rfl)).trans ?_
  rw [Fin.getElem_fin] at hb ha
  rw [produceAt_filter s.lib 15 n k s.nodes i hk f hb, ha]
  rfl

theorem exec_produceDelay {d : Delay} (hb : s.nodes[i].body = .delay d)
    (ha : produceAt s.lib 15 s.nodes[i].childA n s.nodes = .next (xs, t)) :
    exec (.produceDelay k n) s = .next
      { ({ s with nodes := t } : State).setBody i (.delay (mapSamples delaySample xs d).2) with
        dest := (mapSamples delaySample xs d).1 } := by
  refine (exec_ofType_of_type (ty := .delay) h1 hn hk (by rw [← Fin.getElem_fin, hb]; rfl)).trans ?_
  rw [Fin.getElem_fin] at hb ha
  rw [produceAt_delay s.lib 15 n k s.nodes i hk d hb, ha]
  rfl

end

/-! ### MIXER (R380) -/

theorem fillScratch_get (m : Mixer) (ys : List Sample) (j : Fin 96) :
    (fillScratch m ys).scratch[j] = if j.val < ys.length then ys.getD j.val 0#16 else m.scratch[j] := by
  have hget : (fillScratch m ys).scratch[j] = ys.getD j.val m.scratch[j] := by simp [fillScratch]
  rw [hget]
  split
  · next hj => rw [List.getD_eq_getElem _ _ hj, List.getD_eq_getElem _ _ hj]
  · next hj => exact List.getD_eq_default _ _ (Nat.not_lt.1 hj)

theorem mixSamples_get {xs ys : List Sample} {j : Nat} {x y : Sample} (hx : xs[j]? = some x) (hy : ys[j]? = some y) :
    (mixSamples xs ys)[j]? = some (toSample (x.toInt + y.toInt)) := by
  rw [mixSamples, List.getElem?_zipWith, hx, hy]

/-- Settles O25: the children's calls are the mixer's own, the first on the table, the second on what the first left. -/
theorem mixerSumsItsChildren : Obligations.MixerSumsItsChildren := by
  intro k n s i m hk h1 hn hb h
  obtain ⟨⟨ca, hca, hia⟩, cb, hcb, hib⟩ := mixerChildren_above h (congrArg NodeBody.type hb)
  obtain ⟨xs, ta, pa, hea, hpa⟩ := exec_childInstr_below h1 hn h hca hia
  obtain ⟨ys, tb, pb, heb, hpb⟩ := exec_childInstr_below (s := { s with nodes := ta, dest := xs }) h1 hn pa.ok hcb hib
  refine ⟨ca, cb, _, _, _, _, hca, hcb, hea, heb, exec_produceMixer h1 hn hk hb hpa hpb, pa.length, pb.length, ?_, fun j => ?_,
    fun j x y hx hy => ⟨_, mixSamples_get hx hy, toSample_toInt _⟩⟩
  · rw [mixSamples_length, pa.length, pb.length, Nat.min_self]
  · rw [fillScratch_get, pb.length]

/-! ### A loop over a child's Samples as a chain (R262) -/

/-- Where the body meets a rule, the states of the loop are a chain of the rule. -/
theorem mapSamples_chain {R : σ → Sample → Sample → σ → Prop} {body : σ → Sample → Sample × σ}
    (hrule : ∀ st x, R st x (body st x).1 (body st x).2) (xs : List Sample) (st : σ) {m : Nat} {x : Sample}
    (hx : xs[m]? = some x) :
    ∃ y, (mapSamples body xs st).1[m]? = some y ∧ R (stateAfterMap body xs m st) x y (stateAfterMap body xs (m + 1) st) := by
  obtain ⟨hm, rfl⟩ := List.getElem?_eq_some_iff.1 hx
  refine ⟨_, mapSamples_get body xs m st hm, ?_⟩
  rw [stateAfterMap_succ body xs m st hm]
  exact hrule _ _

theorem stateAfterMap_length (body : σ → Sample → Sample × σ) (xs : List Sample) (st : σ) :
    stateAfterMap body xs xs.length st = (mapSamples body xs st).2 := by
  rw [stateAfterMap, List.take_length]

/-- An instruction that runs produce of the one child of node i and a loop over its Samples, whose body meets a rule, goes through a
chain of the rule (R262). -/
theorem exec_oneChild_chain {n : Nat} {s : State} {i : Fin hardware.nNodes} {instr : Instr} {mk : σ → NodeBody}
    {body : σ → Sample → Sample × σ} {st : σ} {R : σ → Sample → Sample → σ → Prop} (h1 : 1 ≤ n) (hn : n ≤ 96)
    (h : nodesOk s.nodes = true) (ht : s.nodes[i].body.type = .filter ∨ s.nodes[i].body.type = .delay)
    (hexec : ∀ {xs : List Sample} {t : NodeTable}, produceAt s.lib 15 s.nodes[i].childA n s.nodes = .next (xs, t) →
      exec instr s = .next
        { ({ s with nodes := t } : State).setBody i (mk (mapSamples body xs st).2) with dest := (mapSamples body xs st).1 })
    (hrule : ∀ st x, R st x (body st x).1 (body st x).2) :
    ∃ (c : Fin hardware.nNodes) (sa : State) (q : Nat → σ) (out : List Sample),
      s.nodes[i].childA.toNat = c.val ∧ exec (childInstr s c n) s = .next sa ∧ sa.dest.length = n
      ∧ exec instr s = .next { withBody sa i (mk (q n)) with dest := out } ∧ q 0 = st ∧ out.length = n
      ∧ ∀ (m : Nat) (x : Sample), sa.dest[m]? = some x → ∃ y : Sample, out[m]? = some y ∧ R (q m) x y (q (m + 1)) := by
  obtain ⟨c, hc, hic⟩ := oneChild_above h ht
  obtain ⟨xs, t, p, he, hp⟩ := exec_childInstr_below h1 hn h hc hic
  refine ⟨c, _, fun m => stateAfterMap body xs m st, (mapSamples body xs st).1, hc, he, p.length, ?_, rfl, ?_,
    fun m x hx => mapSamples_chain hrule xs st hx⟩
  · have hq : stateAfterMap body xs n st = (mapSamples body xs st).2 := p.length ▸ stateAfterMap_length body xs st
    rw [hexec hp, ← hq]
    rfl
  · rw [mapSamples_length, p.length]

/-- Settles O26: each sample of the loop meets the rule of R405. -/
theorem filterProducesTheRecurrence : Obligations.FilterProducesTheRecurrence := by
  intro k n s i f hk h1 hn hb h
  exact exec_oneChild_chain h1 hn h (.inl (congrArg NodeBody.type hb)) (exec_produceFilter h1 hn hk hb) filterSample_rule

/-- Settles O27: each sample of the loop meets the rule of R432. -/
theorem delayProducesTheEcho : Obligations.DelayProducesTheEcho := by
  intro k n s i d hk h1 hn hb h
  exact exec_oneChild_chain h1 hn h (.inr (congrArg NodeBody.type hb)) (exec_produceDelay h1 hn hk hb) delaySample_rule

/-! ### A filter at frequency 0 (R406) -/

/-- A body that keeps its state and gives one Sample whatever it is given repeats it. -/
theorem mapSamples_of_const {body : σ → Sample → Sample × σ} {st : σ} {y : Sample} (h : ∀ x, body st x = (y, st))
    (xs : List Sample) : mapSamples body xs st = (List.replicate xs.length y, st) := by
  induction xs with
  | nil => rfl
  | cons x xs ih => rw [mapSamples, h, ih]; rfl

/-- R406: with f = 0 both sums of the recurrence add nothing. -/
theorem filterSample_of_f_zero {f : Filter} (hf : f.f = 0#16) (x : Sample) :
    filterSample f x = (toSample (rshrRound f.b1.toInt 16), f) := by
  have hkeep (w : Word) : toS32 w.toInt = w := BitVec.eq_of_toInt_eq (by rw [toS32_toInt, sat32_of_fits _ (word_range w)])
  have hz : (f.f.toNat : Int) = 0 := by rw [hf]; rfl
  simp only [filterSample, hz, Int.zero_mul, rshrRound_zero_value, Int.add_zero, hkeep]

/-- Settles O28: the filter's loop repeats one Sample. -/
theorem filterHoldsAtZeroFrequency : Obligations.FilterHoldsAtZeroFrequency := by
  intro k n s i f hk h1 hn hb h hf
  obtain ⟨c, hc, hic⟩ := oneChild_above (i := i) h (.inl (congrArg NodeBody.type hb))
  obtain ⟨xs, t, p, -, hp⟩ := exec_childInstr_below h1 hn h hc hic
  refine ⟨{ s with nodes := t }, _, ?_, toSample_toInt _⟩
  rw [exec_produceFilter h1 hn hk hb hp, mapSamples_of_const (filterSample_of_f_zero hf), p.length]
  rfl

end Sys2Proof.Machine
end

section
/-!
PROOF. A DELAY at rest echoes its input (43_combinators R433): produce of a node does not see the fields of a node below it, so the
calls of the delay run one loop over the Samples its child gives alone; and that loop in closed form.
-/

namespace Sys2Proof.Machine

open Sys2Proof.Config (hardware)

variable {C : Config} {σ : Type}

/-! ### Fields produce does not see (R61, R262) -/

theorem setBody_comm (t : NodeTable C) {i j : Fin C.nNodes} (h : i ≠ j) (b b' : NodeBody C) :
    setBody (setBody t i b) j b' = setBody (setBody t j b') i b := by
  have hv : i.val ≠ j.val := fun hv => h (Fin.ext hv)
  have hj : (setBody t i b)[j] = t[j] := setBody_get_other t i j b h.symm
  have hi : (setBody t j b')[i] = t[i] := setBody_get_other t j i b' h
  unfold setBody at hj hi ⊢
  rw [hj, hi, Vector.set_comm _ _ hv]

/-- The Samples of a produce, and its table with node i's own fields replaced. -/
def replacing (i : Fin C.nNodes) (b : NodeBody C) (o : Produced C) : Produced C :=
  andThen o fun r => .next (r.1, setBody r.2 i b)

theorem finish_setBody {t : NodeTable C} {i c : Fin C.nNodes} (h : i ≠ c) (b : NodeBody C) (mk : σ → NodeBody C)
    (r : List Sample × σ) : finish (setBody t i b) c mk r = replacing i b (finish t c mk r) := by
  rw [finish, setBody_comm t h]
  rfl

theorem andThen_replacing {i : Fin C.nNodes} {b : NodeBody C} {o : Produced C} {k k' : List Sample × NodeTable C → Produced C}
    (h : ∀ a, o = .next a → k (a.1, setBody a.2 i b) = replacing i b (k' a)) :
    andThen (replacing i b o) k = replacing i b (andThen o k') := by
  rw [replacing, replacing, andThen_assoc, andThen_assoc]
  exact andThen_congr h

/-- Produce of node c of a well-formed table gives the same Samples whatever the own fields of a node i below it are, and leaves
them as they are. -/
theorem produceAt_setBody_below (lib : Lib) (n : Nat) (i : Fin C.nNodes) (b : NodeBody C) (depth : Nat) {c : Fin C.nNodes}
    {k : BitVec 8} {t : NodeTable C} (hk : k.toNat = c.val) (hd : C.nNodes ≤ depth + c.val) (h : nodesOk t = true)
    (hic : i.val < c.val) : produceAt lib depth k n (setBody t i b) = replacing i b (produceAt lib depth k n t) := by
  induction depth generalizing c k t with
  | zero => exact absurd c.isLt (by omega)
  | succ depth ih =>
    have hne : i ≠ c := fun he => absurd hic (he ▸ Nat.lt_irrefl _)
    have hget : (setBody t i b)[c.val] = t[c.val] := setBody_get_other t i c b hne.symm
    have hbody {b' : NodeBody C} (hb : t[c.val].body = b') : (setBody t i b)[c.val].body = b' := by rw [hget, hb]
    cases hb : t[c.val].body with
    | silence => rw [produceAt_silence _ _ _ _ _ c hk (hbody hb), produceAt_silence _ _ _ _ _ c hk hb]; rfl
    | osc o =>
      rw [produceAt_osc _ _ _ _ _ c hk o (hbody hb), produceAt_osc _ _ _ _ _ c hk o hb, finish_setBody hne]
    | player p =>
      cases hp : playerInLib C p with
      | true =>
        rw [produceAt_player _ _ _ _ _ c hk p (hbody hb) hp, produceAt_player _ _ _ _ _ c hk p hb hp, finish_setBody hne, hget]
      | false => rw [produceAt_player_outside _ _ _ hk (hbody hb) hp, produceAt_player_outside _ _ _ hk hb hp]; rfl
    | looper l =>
      cases hl : looperInLib C l with
      | true =>
        rw [produceAt_looper _ _ _ _ _ c hk l (hbody hb) hl, produceAt_looper _ _ _ _ _ c hk l hb hl, finish_setBody hne, hget]
      | false => rw [produceAt_looper_outside _ _ _ hk (hbody hb) hl, produceAt_looper_outside _ _ _ hk hb hl]; rfl
    | mixer m =>
      obtain ⟨⟨ca, hca, hcca⟩, cb, hcb, hccb⟩ := mixerChildren_above h (congrArg NodeBody.type hb)
      obtain ⟨xs, ta, pa⟩ := produces_total lib n C.nNodes ca t (by omega) h
      rw [produceAt_mixer _ _ _ _ _ c hk m (hbody hb), produceAt_mixer _ _ _ _ _ c hk m hb, hget,
        ih hca (by omega) h (by omega), pa.eq depth _ hca (by omega) (by omega)]
      refine andThen_replacing fun a ha => ?_
      cases ha
      rw [ih hcb (by omega) pa.ok (by omega)]
      exact andThen_replacing fun x _ => finish_setBody hne b _ _
    | filter f =>
      obtain ⟨ca, hca, hcca⟩ := oneChild_above h (.inl (congrArg NodeBody.type hb))
      rw [produceAt_filter _ _ _ _ _ c hk f (hbody hb), produceAt_filter _ _ _ _ _ c hk f hb, hget,
        ih hca (by omega) h (by omega)]
      exact andThen_replacing fun x _ => finish_setBody hne b _ _
    | delay d =>
      obtain ⟨ca, hca, hcca⟩ := oneChild_above h (.inr (congrArg NodeBody.type hb))
      rw [produceAt_delay _ _ _ _ _ c hk d (hbody hb), produceAt_delay _ _ _ _ _ c hk d hb, hget,
        ih hca (by omega) h (by omega)]
      exact andThen_replacing fun x _ => finish_setBody hne b _ _

/-! ### Calls one after the other (R260) -/

theorem mapSamples_append (body : σ → Sample → Sample × σ) (xs ys : List Sample) (st : σ) :
    mapSamples body (xs ++ ys) st =
      ((mapSamples body xs st).1 ++ (mapSamples body ys (mapSamples body xs st).2).1,
        (mapSamples body ys (mapSamples body xs st).2).2) := by
  induction xs generalizing st with
  | nil => rfl
  | cons x xs ih => simp [mapSamples, ih]

section
variable {k : BitVec 8} {i c : Fin hardware.nNodes} (hk : k.toNat = i.val) (hic : i.val < c.val)
include hk hic

/-- A DELAY whose fields are d in place of those of s: its call gives the loop over the Samples of its child called alone in s, and
leaves the state the child leaves but for these fields and dest. -/
theorem exec_produceDelay_beside {n : Nat} (h1 : 1 ≤ n) (hn : n ≤ 96) {s : State} (h : nodesOk s.nodes = true)
    (hc : s.nodes[i.val].childA.toNat = c.val) (d : Delay) (ws : List Sample) :
    ∃ (xs : List Sample) (t : NodeTable), Produces s.lib s.nodes c n xs t
      ∧ exec (childInstr s c n) s = .next { s with nodes := t, dest := xs }
      ∧ exec (.produceDelay k n) { s.setBody i (.delay d) with dest := ws } = .next
        { ({ s with nodes := t } : State).setBody i (.delay (mapSamples delaySample xs d).2) with
          dest := (mapSamples delaySample xs d).1 } := by
  obtain ⟨xs, t, p, he, hp⟩ := exec_childInstr_below h1 hn h hc hic
  refine ⟨xs, t, p, he, ?_⟩
  have hsame := produceAt_setBody_below s.lib n i (.delay d) 15 hc (by show 16 ≤ 15 + c.val; omega) h hic
  rw [hp] at hsame
  have hget : (setBody s.nodes i (.delay d))[i.val] = { s.nodes[i.val] with body := .delay d } := setBody_get_same ..
  refine (exec_produceDelay (s := { s.setBody i (.delay d) with dest := ws }) h1 hn hk (d := d) (xs := xs)
    (t := setBody t i (.delay d)) (congrArg Node.body hget) ?_).trans ?_
  · rw [Fin.getElem_fin, setBody_nodes, hget]
    exact hsame
  · exact congrArg (fun u : State => Host.Outcome.next { u with dest := (mapSamples delaySample xs d).1 })
      (setBody_setBody { s with nodes := t } i (.delay d) _)

/-- However many Samples each call asks for, the calls of a DELAY run one loop over the Samples its child gives when called alone. -/
theorem producedBy_delay {ns : List Nat} (hns : ∀ n ∈ ns, 1 ≤ n ∧ n ≤ 96) {s : State} (h : nodesOk s.nodes = true)
    (hc : s.nodes[i.val].childA.toNat = c.val) (d : Delay) (ws : List Sample) :
    ∃ (xs zs : List Sample) (u : State), xs.length = ns.sum
      ∧ producedBy (childInstr s c) ns s = .next (xs, u)
      ∧ producedBy (.produceDelay k) ns { s.setBody i (.delay d) with dest := ws } = .next ((mapSamples delaySample xs d).1,
        { u.setBody i (.delay (mapSamples delaySample xs d).2) with dest := zs }) := by
  induction ns generalizing s d ws with
  | nil => exact ⟨[], ws, s, rfl, rfl, rfl⟩
  | cons n ns ih =>
    obtain ⟨h1, hn⟩ := hns n List.mem_cons_self
    obtain ⟨xs, t, p, he, hd⟩ := exec_produceDelay_beside hk hic h1 hn h hc d ws
    obtain ⟨-, -, hchild, -⟩ := p.common i
    obtain ⟨htype, -⟩ := p.common c
    obtain ⟨ys, zs, u, hlen, hu, hv⟩ := ih (fun m hm => hns m (List.mem_cons_of_mem n hm))
      (s := { s with nodes := t, dest := xs }) p.ok (hchild ▸ hc) (mapSamples delaySample xs d).2 (mapSamples delaySample xs d).1
    have hinstr : childInstr ({ s with nodes := t, dest := xs } : State) c = childInstr s c :=
      funext fun m => congrArg (Instr.ofType · _ m) htype
    refine ⟨xs ++ ys, zs, u, by rw [List.length_append, p.length, hlen, List.sum_cons], ?_, ?_⟩
    · rw [producedBy, he, andThen_next, ← hinstr, hu]
      rfl
    · rw [producedBy, hd, andThen_next]
      refine (congrArg (andThen · _) hv).trans ?_
      rw [mapSamples_append]
      rfl

end

/-! ### The tank of a delay at rest (R432, R433) -/

/-- The tank's slot r places ahead of the write position: where the Sample stands that came r samples ago. -/
def tankBack (d : Delay C) (r : Nat) : Sample := tankRead C d.tank (d.wp.val + r)

/-- The delay after a Sample is written to its tank. -/
def pushTank (d : Delay C) (x : Sample) : Delay C := { d with tank := tankWrite C d.tank d.wp.val x, wp := prevSlot d.wp }

theorem prevSlot_add_mod (wp : Fin C.tankLen) (r : Nat) : ((prevSlot wp).val + (r + 1)) % C.tankLen = (wp.val + r) % C.tankLen := by
  have hL := C.tankLen_pos
  rw [prevSlot, Nat.mod_add_mod, show wp.val + (C.tankLen - 1) + (r + 1) = wp.val + r + C.tankLen by omega, Nat.add_mod_right]

theorem tankBack_pushTank (d : Delay C) (x : Sample) (r : Nat) :
    tankBack (pushTank d x) (r + 1) = tankRead C (tankWrite C d.tank d.wp.val x) (d.wp.val + r) := by
  rw [tankBack, pushTank, tankRead, tankRead, prevSlot_add_mod]

theorem tankBack_pushTank_one (d : Delay C) (x : Sample) : tankBack (pushTank d x) 1 = x :=
  (tankBack_pushTank d x 0).trans (tankRead_write_same d.tank d.wp.val x)

theorem tankBack_pushTank_succ (d : Delay C) (x : Sample) {r : Nat} (h0 : 1 ≤ r) (hr : r < C.tankLen) :
    tankBack (pushTank d x) (r + 1) = tankBack d r := by
  rw [tankBack_pushTank]
  refine tankRead_write_other d.tank d.wp.val _ x fun hmod => ?_
  have hdvd : r ≡ 0 [MOD C.tankLen] := Nat.ModEq.add_left_cancel' d.wp.val hmod
  exact absurd (Nat.le_of_dvd h0 (Nat.modEq_zero_iff_dvd.1 hdvd)) (Nat.not_le.2 hr)

/-- A delay at rest at m samples, without feedback: no slew moves (R433). -/
structure AtRest (m : Nat) (d : Delay C) : Prop where
  run : d.dRun.toNat = m * 2 ^ 16
  tgt : d.dTgt = d.dRun
  fbRun : d.fbRun = 0#32
  fbTgt : d.fbTgt = 0#32

theorem slew_self (v : Word) (s : Nat) : slew v v s = v :=
  (slew_eq_self_iff v v s).2 (by rw [Int.sub_self, rshrRound_zero_value])

theorem AtRest.delayTap_eq {m : Nat} {d : Delay C} (h : AtRest m d) : delayTap d = (tankBack d m).toInt := by
  have hdiv : m * 2 ^ 16 / 2 ^ 16 = m := Nat.mul_div_cancel m (by decide)
  have hmod : m * 2 ^ 16 % 2 ^ 16 = 0 := Nat.mul_mod_left m _
  simp only [delayTap, tapOf, h.run, hdiv, hmod, Nat.cast_zero, Int.sub_zero, Int.mul_zero, Int.add_zero]
  exact rshrRound_exact _ 16

/-- R432 of a delay at rest: the tap is the Sample m before, and the Sample itself goes to the tank. -/
theorem AtRest.delaySample_eq {m : Nat} {d : Delay C} (h : AtRest m d) (x : Sample) :
    delaySample d x = (toSample (x.toInt + (tankBack d m).toInt), pushTank d x) := by
  have hfb : (d.fbRun.toNat : Int) = 0 := by rw [h.fbRun]; rfl
  simp only [delaySample, h.delayTap_eq, hfb, Int.mul_zero, rshrRound_zero_value, Int.add_zero, toSample_of_toInt, h.tgt,
    h.fbTgt, ← h.fbRun, slew_self, pushTank]

theorem AtRest.after {m : Nat} {d : Delay C} (h : AtRest m d) (xs : List Sample) (t : Nat) :
    AtRest m (stateAfterMap delaySample xs t d) :=
  mapSamples_keeps (AtRest m) _ (fun d x h => by rw [h.delaySample_eq]; exact ⟨h.run, h.tgt, h.fbRun, h.fbTgt⟩) _ d h

section
variable {m : Nat} {d : Delay C} (h : AtRest m d) {xs : List Sample}
include h

theorem AtRest.after_succ {t : Nat} (ht : t < xs.length) :
    stateAfterMap delaySample xs (t + 1) d =
      pushTank (stateAfterMap delaySample xs t d) xs[t] := by
  rw [stateAfterMap_succ _ xs t d ht, (h.after xs t).delaySample_eq]

/-- What stands r places ahead stands r + j places ahead j samples later, while the tank does not come round. -/
theorem AtRest.tankBack_shift {r : Nat} (hr : 1 ≤ r) (t : Nat) {j : Nat} (hj : t + j ≤ xs.length) (hL : r + j ≤ C.tankLen) :
    tankBack (stateAfterMap delaySample xs (t + j) d) (r + j) =
      tankBack (stateAfterMap delaySample xs t d) r := by
  induction j with
  | zero => rfl
  | succ j ih =>
    rw [← Nat.add_assoc, ← Nat.add_assoc, h.after_succ (by omega), tankBack_pushTank_succ _ _ (by omega) (by omega)]
    exact ih (by omega) (by omega)

/-- Before m samples have come, the tap is what the tank held. -/
theorem AtRest.tankBack_early {t : Nat} (ht : t < xs.length) (hm : m < C.tankLen) (htm : t < m) :
    tankBack (stateAfterMap delaySample xs t d) m = tankBack d (m - t) := by
  have hshift := h.tankBack_shift (xs := xs) (r := m - t) (by omega) 0 (j := t) (by omega) (by omega)
  rwa [Nat.zero_add, Nat.sub_add_cancel htm.le] at hshift

/-- From m samples on, the tap is the Sample m before. -/
theorem AtRest.tankBack_late {t : Nat} (ht : t < xs.length) (hm : m < C.tankLen) (hm1 : 1 ≤ m) (hmt : m ≤ t) :
    tankBack (stateAfterMap delaySample xs t d) m = xs[t - m] := by
  have hshift := h.tankBack_shift (xs := xs) le_rfl (t - m + 1) (j := m - 1) (by omega) (by omega)
  rw [show t - m + 1 + (m - 1) = t by omega, show 1 + (m - 1) = m by omega, h.after_succ (by omega),
    tankBack_pushTank_one] at hshift
  exact hshift

end

/-- The bounds of the delay time (R68). -/
theorem delay_bounds_of_bodyOk {D : Divisor} {d : Delay} (hb : bodyOk hardware D (.delay d) = true) {m : Nat}
    (hm : d.dRun.toNat = m * 2 ^ 16) : 1 ≤ m ∧ m < 8192 := by
  simp only [bodyOk, Bool.and_eq_true, decide_eq_true_eq] at hb
  obtain ⟨⟨⟨⟨-, hlo⟩, hhi⟩, -⟩, -⟩ := hb
  simp only [Config.hardware] at hhi
  omega

/-- Settles O29: the delay's calls run one loop over the child's Samples, whose tap at time t is known. -/
theorem delayEchoesItsInput : Obligations.DelayEchoesItsInput := by
  intro k s i c d m ns hk h hb hc hrun htgt hfbRun hfbTgt hns
  have hrest : AtRest m d := ⟨hrun, htgt, hfbRun, hfbTgt⟩
  obtain ⟨c', hc', hic⟩ := oneChild_above (i := i) h (.inr (congrArg NodeBody.type hb))
  obtain rfl : c' = c := Fin.ext (hc'.symm.trans hc)
  obtain ⟨hm1, hm⟩ := delay_bounds_of_bodyOk (hb ▸ ((nodesOk_iff s.nodes).1 h i).2) hrun
  obtain ⟨xs, zs, u, hlen, hu, hv⟩ := producedBy_delay hk hic hns h hc' d s.dest
  have hs : ({ s.setBody i (.delay d) with dest := s.dest } : State) = s := setBody_self hb
  rw [hs] at hv
  refine ⟨xs, _, u, _, hu, hv, hlen, by rw [mapSamples_length, hlen], fun t x hx => ?_⟩
  obtain ⟨ht, rfl⟩ := List.getElem?_eq_some_iff.1 hx
  refine ⟨_, mapSamples_get delaySample xs t d ht, ?_⟩
  rw [(hrest.after xs t).delaySample_eq, toSample_toInt]
  refine ⟨fun htm => ?_, fun hmt e he => ?_⟩
  · rw [hrest.tankBack_early ht hm htm, tankBack]
  · obtain ⟨-, rfl⟩ := List.getElem?_eq_some_iff.1 he
    rw [hrest.tankBack_late ht hm hm1 hmt]

end Sys2Proof.Machine
end

section
/-!
PROOF. Errors and interrupts (60_exceptions R501, R505, R520): what the record of an error shows in STATUS and in the latch, the
interrupt line bit by bit, which steps keep a sticky bit, and that no step of a machine that meets the invariant stops (R515).
-/

namespace Sys2Proof.Machine

variable {C : Config}

/-! ### No step stops -/

/-- Settles O43: a step that keeps the invariant answers a next state, whatever entry the schedule holds. -/
theorem stepNeverStops : Obligations.StepNeverStops := fun s hs =>
  have ⟨t, ht, _⟩ := stepOf_keeps ((inv_iff s).1 hs)
  ⟨t, ht⟩

/-! ### The interrupt line (R520) -/

theorem getLsbD_irqEnWord (s : State C) {b : Nat} (h : b < 6) : (irqEnWord s).getLsbD (b + 3) = s.irqEn.getLsbD b := by
  rw [irqEnWord, BitVec.getLsbD_append, if_neg (by omega), Nat.add_sub_cancel, BitVec.getLsbD_append, if_pos h]

/-- The line is high where a bit of STATUS[8:3] and the same bit of IRQ_EN[8:3] are set. -/
theorem irq_iff (s : State C) :
    irq s = true ↔ ∃ b, b < 6 ∧ s.sticky.getLsbD b = true ∧ s.irqEn.getLsbD b = true := by
  rw [irq, bne_iff_ne, ne_eq, BitVec.eq_of_getLsbD_eq_iff]
  simp

/-- Settles O48: bits 3 to 8 of the two words are the fields whose common bits the line looks at. -/
theorem interruptLineIsTheEnabledOr : Obligations.InterruptLineIsTheEnabledOr := by
  intro s
  rw [irq_iff]
  constructor
  · rintro ⟨b, hb, hs, he⟩
    exact ⟨b + 3, by omega, by omega, (getLsbD_statusWord_sticky s hb).trans hs, (getLsbD_irqEnWord s hb).trans he⟩
  · rintro ⟨i, h3, h8, hs, he⟩
    obtain ⟨b, rfl⟩ := Nat.exists_eq_add_of_le' h3
    have hb : b < 6 := by omega
    exact ⟨b, hb, (getLsbD_statusWord_sticky s hb).symm.trans hs, (getLsbD_irqEnWord s hb).symm.trans he⟩

/-! ### The record of an error (R505) -/

theorem StatusBit.index_range (b : StatusBit) : 3 ≤ b.index ∧ b.index ≤ 8 := by cases b <;> decide

theorem getLsbD_mask (b : StatusBit) (i : Nat) : b.mask.getLsbD i = (i + 3 == b.index) := by
  have hb := b.index_range
  rw [StatusBit.mask, BitVec.getLsbD_twoPow, Bool.eq_iff_iff]
  simp only [Bool.and_eq_true, decide_eq_true_eq, beq_iff_eq]
  omega

/-- The record shows in STATUS as the error's own bit (R500, R501). -/
theorem getLsbD_statusWord_recordError (e : ErrorCode) (info : Word) (s : State C) (b : Nat) :
    (statusWord (recordError e info s)).getLsbD b = ((statusWord s).getLsbD b || b == e.bit.index) := by
  have hidx := e.bit.index_range
  simp only [getLsbD_statusWord]
  by_cases hb : 3 ≤ b ∧ b < 9
  · obtain ⟨i, rfl⟩ := Nat.exists_eq_add_of_le' hb.1
    have hi : i < 6 := by omega
    simp only [← getLsbD_statusWord, getLsbD_statusWord_sticky _ hi, recordError_sticky, BitVec.getLsbD_or, getLsbD_mask]
  · have hne : (b == e.bit.index) = false := beq_eq_false_iff_ne.2 (by omega)
    rw [hne, Bool.or_false, statusBit, statusBit]
    simp only [recordError_running, recordError_inflight, recordError_fillReq, recordError_periphReady, recordError_fifo]
    split_ifs <;> first | rfl | omega

/-- Settles O46: R500's table is that of `code` and `bit`; the clearing of the latch and of STATUS are writes of two registers. -/
theorem errorsAreLatchedOnce : Obligations.ErrorsAreLatchedOnce := by
  refine ⟨fun p hp info s => ?_, fun s v rest hs => stepOf_hostWrite_reg hs busTarget_errCause, fun s v rest hs =>
    ⟨_, stepOf_hostWrite_reg hs busTarget_status⟩⟩
  have hrow : p.2.1 = p.1.code ∧ p.2.2 = p.1.bit.index := by
    revert p
    decide
  obtain ⟨hcode, hbit⟩ := hrow
  refine ⟨?_, fun b _ => ?_, fun hv => ?_, fun hv => ?_⟩
  · rw [recordError_eq]
  · rw [hbit]
    exact getLsbD_statusWord_recordError p.1 info s b
  · simp [hv, hcode]
  · simp [hv]

/-! ### Steps that keep the sticky bits (R501) -/

/-- Every sticky bit that was set is still set. -/
def StickyKept (s t : State C) : Prop := ∀ b, s.sticky.getLsbD b = true → t.sticky.getLsbD b = true

theorem StickyKept.of_eq {s t : State C} (h : t.sticky = s.sticky) : StickyKept s t := fun _ hb => h ▸ hb

theorem StickyKept.trans {s t u : State C} (h : StickyKept s t) (h' : StickyKept t u) : StickyKept s u :=
  fun b hb => h' b (h b hb)

theorem recordError_stickyKept (e : ErrorCode) (info : Word) (s : State C) : StickyKept s (recordError e info s) :=
  fun b hb => by simp [hb]

/-- A command ends in a record or within its frame, in which the sticky bits are as before. -/
theorem applyCommand_stickyKept {c : Command} {s t : State C} (h : applyCommand c s = .next t) : StickyKept s t := by
  cases hd : decode c with
  | error e =>
    cases (applyCommand_of_error hd s).symm.trans h
    exact recordError_stickyKept _ _ _
  | ok i =>
    rw [applyCommand_of_decode hd] at h
    rcases perform_outcome (decode_isCommand hd) s with ⟨e, w, -, -, ho⟩ | ⟨u, ho, hu⟩ <;> cases ho.symm.trans h
    · exact recordError_stickyKept _ _ _
    · exact .of_eq (by rw [hu.rest])

theorem applyAll_stickyKept {cs : List Command} {s t : State C} (h : applyAll cs s = .next t) : StickyKept s t := by
  induction cs generalizing s with
  | nil =>
    cases h
    exact .of_eq rfl
  | cons c cs ih =>
    obtain ⟨u, hu, ht⟩ := andThen_inv h
    exact (applyCommand_stickyKept hu).trans (ih ht)

/-- Filling a buffer runs a produce operation, which raises no error (R265). -/
theorem fillInto_sticky {x : BufId} {s t : State C} (h : fillInto x s = .next t) : t.sticky = s.sticky := by
  obtain ⟨u, hu, ht⟩ := andThen_inv h
  cases ht
  rw [storeDest_sticky, produceOp_next _ _ _ s u ((perform_ofType ..).symm.trans hu)]

theorem issue_stickyKept {w : Word} {s t : State C} (h : issue w s = .next t) : StickyKept s t := by
  cases hr : s.running with
  | false => exact applyCommand_stickyKept ((issue_idle w hr).symm.trans h)
  | true =>
    rcases Nat.lt_or_ge s.fifo.length C.fifoDepth with hlt | hfull
    · cases (issue_queues w hr hlt).symm.trans h
      exact .of_eq rfl
    · cases (issue_drops w hr hfull).symm.trans h
      exact recordError_stickyKept _ _ _

theorem startEngine_stickyKept {s t : State C} (h : startEngine s = .next t) : StickyKept s t := by
  unfold startEngine at h
  split at h
  · cases h
    exact .of_eq rfl
  · split at h
    · cases h
      exact recordError_stickyKept _ _ _
    · obtain ⟨u, hu, h⟩ := andThen_inv h
      obtain ⟨v, hv, h⟩ := andThen_inv h
      cases h
      exact .of_eq ((fillInto_sticky hv).trans (fillInto_sticky hu))

theorem drainComplete_stickyKept (s : State C) : StickyKept s (drainComplete s) := by
  intro b hb
  rw [drainComplete_eq]
  dsimp only
  split <;> simp [hb]

theorem tickStep_stickyKept (s : State C) : StickyKept s (tickStep s) := by
  unfold tickStep
  split
  · exact .of_eq rfl
  · dsimp only
    split
    · exact .of_eq rfl
    · exact fun b hb => drainComplete_stickyKept _ b hb

theorem fillStep_stickyKept {s t : State C} (h : fillStep s = .next t) : StickyKept s t := by
  unfold fillStep at h
  split at h
  · cases h
    exact .of_eq rfl
  · obtain ⟨u, hu, h⟩ := andThen_inv h
    obtain ⟨v, hv, h⟩ := andThen_inv h
    cases h
    have hfill := fillInto_sticky hv
    exact (applyAll_stickyKept hu).trans (.of_eq hfill)

theorem hostRead_stickyKept (addr : Word) (n : AccessSize) (s : State C) : StickyKept s (hostRead addr n s) := by
  unfold hostRead
  split
  · exact .of_eq rfl
  · exact .of_eq rfl
  · exact recordError_stickyKept _ _ _

/-- No write of a register but STATUS clears a sticky bit; clearing the latch leaves them (R505). -/
theorem writeReg_stickyKept {r : Reg C} {v : Word} {s t : State C} (hr : r ≠ .status) (h : writeReg r v s = .next t) :
    StickyKept s t := by
  cases r with
  | ctrl =>
    unfold writeReg at h
    dsimp only at h
    split at h
    · exact startEngine_stickyKept h
    · cases h
      exact .of_eq rfl
  | cmdWord => exact issue_stickyKept h
  | status => exact absurd rfl hr
  | _ =>
    cases h
    exact .of_eq rfl

/-- An access reaches a register only as a whole aligned word at the register's word index (R110, R112, R130). -/
theorem of_busTarget_eq_reg {addr n : Nat} {r : Reg C} (h : busTarget C addr n = .reg r) :
    n = 4 ∧ addr % 4 = 0 ∧ regAt? C (addr / 4) = some r := by
  unfold busTarget at h
  split at h
  · split at h
    · cases h
    · rename_i hword
      split at h <;> cases h
      exact ⟨by omega, by omega, ‹_›⟩
  · split at h
    · split at h <;> cases h
    · cases h

theorem regAt?_eq_status {q : Nat} (h : regAt? C q = some .status) : q = 2 := by
  unfold regAt? at h
  split at h
  case h_3 => rfl
  case h_20 => split_ifs at h <;> cases h
  all_goals cases h

/-- STATUS is reached by one access only. -/
theorem busTarget_eq_status {addr : Word} {n : AccessSize} (h : busTarget C addr.toNat n.bytes = .reg .status) :
    addr = 0x008#32 ∧ n = .b4 := by
  obtain ⟨hn, hal, hr⟩ := of_busTarget_eq_reg h
  have hq := regAt?_eq_status hr
  refine ⟨BitVec.eq_of_toNat_eq ?_, ?_⟩
  · show addr.toNat = 8
    omega
  · cases n with
    | b4 => rfl
    | b1 | b2 => cases hn

theorem hostWrite_stickyKept {addr : Word} {n : AccessSize} {v : Word} {s t : State C}
    (ha : ¬ (addr = 0x008#32 ∧ n = .b4)) (h : hostWrite addr n v s = .next t) : StickyKept s t := by
  unfold hostWrite at h
  split at h
  · rename_i r hr
    exact writeReg_stickyKept (fun hs => ha (busTarget_eq_status (hs ▸ hr))) h
  · cases h
    exact .of_eq rfl
  · cases h
    exact recordError_stickyKept _ _ _

/-- The W1C write leaves a bit set that is written as 0 (R46). -/
theorem clearSticky_getLsbD_of_zero {v : Word} {s : State C} {b : Nat} (hs : s.sticky.getLsbD b = true)
    (hv : v.getLsbD (b + 3) = false) : (clearSticky v s).sticky.getLsbD b = true := by
  rw [getLsbD_clearSticky v s (BitVec.lt_of_getLsbD hs), hs, hv]
  rfl

/-- Settles O47, by the agent whose step it is; of the host's writes only the one of STATUS can clear a bit. -/
theorem stickyBitsStayUntilCleared : Obligations.StickyBitsStayUntilCleared := by
  intro s t e rest b hs he h hb hclear
  rw [step_cons s e rest hs] at h
  have kept (k : StickyKept { s with sched := rest } t) : t.sticky.getLsbD b = true := k b hb
  cases e with
  | hostRead addr n =>
    cases h
    exact kept (hostRead_stickyKept _ _ _)
  | hostWrite addr n v =>
    by_cases ha : addr = 0x008#32 ∧ n = .b4
    · obtain ⟨rfl, rfl⟩ := ha
      cases h
      exact clearSticky_getLsbD_of_zero hb (hclear v rfl)
    · exact kept (hostWrite_stickyKept ha h)
  | tick =>
    cases h
    exact kept (tickStep_stickyKept _)
  | fill => exact kept (fillStep_stickyKept h)
  | reset => exact absurd rfl he
  | periphReady level =>
    cases h
    exact kept (.of_eq rfl)

end Sys2Proof.Machine
end

section
/-!
PROOF. RESET (70_reset_and_hazards R600), which steps keep the schedule and the queued commands (10_state R73, log 1), and the runs
that meet P_DEADLINE (R621, R622).
-/

namespace Sys2Proof.Machine

open Sys2Proof.Config (hardware)

variable {C : Config}

/-! ### RESET (R600) -/

/-- Settles O39: the RESET's state is the reset state with the fields of logs 1, 4, 5 and 8 kept. -/
theorem resetStepResetsAllButLib : Obligations.ResetStepResetsAllButLib := fun s rest hs => step_cons s .reset rest hs

/-! ### The schedule and the FIFO (R73, log 1) -/

/-- The schedule and the FIFO are as before. -/
structure QueuesKept (s t : State C) : Prop where
  sched : t.sched = s.sched
  fifo : t.fifo = s.fifo

theorem QueuesKept.trans {s t u : State C} (h : QueuesKept s t) (h' : QueuesKept t u) : QueuesKept s u :=
  ⟨h'.sched.trans h.sched, h'.fifo.trans h.fifo⟩

theorem InstrEffect.queuesKept {s t : State C} (h : InstrEffect s t) : QueuesKept s t := by
  rw [h.frame]
  exact ⟨rfl, rfl⟩

theorem recordError_queuesKept (e : ErrorCode) (info : Word) (s : State C) : QueuesKept s (recordError e info s) :=
  ⟨by simp, by simp⟩

theorem fillInto_queuesKept {x : BufId} {s t : State C} (h : fillInto x s = .next t) : QueuesKept s t := by
  obtain ⟨u, hu, ht⟩ := andThen_inv h
  cases ht
  exact (perform_effect hu).queuesKept.trans ⟨by simp, by simp⟩

theorem startEngine_queuesKept {s t : State C} (h : startEngine s = .next t) : QueuesKept s t := by
  unfold startEngine at h
  split at h
  · cases h
    exact ⟨rfl, rfl⟩
  · split at h
    · cases h
      exact recordError_queuesKept ..
    · obtain ⟨u, hu, h⟩ := andThen_inv h
      obtain ⟨v, hv, h⟩ := andThen_inv h
      cases h
      have kept := (fillInto_queuesKept hu).trans (fillInto_queuesKept hv)
      exact ⟨kept.sched, kept.fifo⟩

theorem tickStep_queuesKept (s : State C) : QueuesKept s (tickStep s) := by
  unfold tickStep
  split
  · exact ⟨rfl, rfl⟩
  · dsimp only
    split
    · exact ⟨rfl, rfl⟩
    · exact ⟨by simp, by simp⟩

theorem hostRead_queuesKept (addr : Word) (n : AccessSize) (s : State C) : QueuesKept s (hostRead addr n s) := by
  unfold hostRead
  split
  · exact ⟨rfl, rfl⟩
  · exact ⟨rfl, rfl⟩
  · exact ⟨by simp, by simp⟩

/-- The schedule is as before; the commands queued in a running engine stand at the head of the FIFO still. -/
structure QueuesGrown (s t : State C) : Prop where
  sched : t.sched = s.sched
  fifo : s.running = true → s.fifo <+: t.fifo

theorem QueuesKept.grown {s t : State C} (h : QueuesKept s t) : QueuesGrown s t where
  sched := h.sched
  fifo _ := h.fifo ▸ List.prefix_rfl

/-- An issue appends to the FIFO of a running engine, or leaves it (R246). -/
theorem issue_queuesGrown {w : Word} {s t : State C} (h : issue w s = .next t) : QueuesGrown s t := by
  cases hr : s.running with
  | false => exact (applyCommand_effect ((issue_idle w hr).symm.trans h)).queuesKept.grown
  | true =>
    rcases Nat.lt_or_ge s.fifo.length C.fifoDepth with hlt | hfull
    · cases (issue_queues w hr hlt).symm.trans h
      exact ⟨rfl, fun _ => List.prefix_append _ _⟩
    · cases (issue_drops w hr hfull).symm.trans h
      exact (recordError_queuesKept ..).grown

theorem writeReg_queuesGrown {r : Reg C} {v : Word} {s t : State C} (h : writeReg r v s = .next t) : QueuesGrown s t := by
  cases r with
  | ctrl =>
    unfold writeReg at h
    dsimp only at h
    split at h
    · exact (startEngine_queuesKept h).grown
    · cases h
      exact ⟨rfl, fun _ => List.prefix_rfl⟩
  | cmdWord => exact issue_queuesGrown h
  | _ =>
    cases h
    exact ⟨rfl, fun _ => List.prefix_rfl⟩

theorem hostWrite_queuesGrown {addr : Word} {n : AccessSize} {v : Word} {s t : State C}
    (h : hostWrite addr n v s = .next t) : QueuesGrown s t := by
  unfold hostWrite at h
  split at h
  · exact writeReg_queuesGrown h
  · cases h
    exact ⟨rfl, fun _ => List.prefix_rfl⟩
  · cases h
    exact (recordError_queuesKept ..).grown

/-- Only a FILL and a RESET take commands from the FIFO of a running engine. -/
theorem runEvent_queuesGrown {e : Event} {s t : State C} (hreset : e ≠ .reset) (hfill : e ≠ .fill)
    (h : runEvent e s = .next t) : QueuesGrown s t := by
  cases e with
  | hostRead addr n =>
    cases h
    exact (hostRead_queuesKept ..).grown
  | hostWrite addr n v => exact hostWrite_queuesGrown h
  | tick =>
    cases h
    exact (tickStep_queuesKept s).grown
  | fill => exact absurd rfl hfill
  | reset => exact absurd rfl hreset
  | periphReady level =>
    cases h
    exact ⟨rfl, fun _ => List.prefix_rfl⟩

/-- A FILL leaves the schedule; an enabled one leaves the FIFO empty (R253). -/
theorem fillStep_queues {s t : State C} (h : fillStep s = .next t) :
    t.sched = s.sched ∧ (s.running = true → s.fillReq = true → t.fifo = []) := by
  unfold fillStep at h
  split at h
  · rename_i hd
    cases h
    exact ⟨rfl, fun hr hf => by simp [hr, hf] at hd⟩
  · obtain ⟨u, hu, h⟩ := andThen_inv h
    obtain ⟨v, hv, h⟩ := andThen_inv h
    cases h
    have kept := fillInto_queuesKept hv
    exact ⟨kept.sched.trans (applyAll_effect hu).queuesKept.sched, fun _ _ => kept.fifo⟩

/-- No agent writes the schedule (log 1). -/
theorem runEvent_sched {e : Event} {s t : State C} (h : runEvent e s = .next t) : t.sched = s.sched := by
  by_cases hreset : e = .reset
  · subst hreset
    cases h
    rfl
  · by_cases hfill : e = .fill
    · subst hfill
      exact (fillStep_queues h).1
    · exact (runEvent_queuesGrown hreset hfill h).sched

/-! ### Finite runs -/

theorem run_succ {s t : State} (n : Nat) (h : step s = .next t) :
    Sys2Proof.core.run (n + 1) s = Sys2Proof.core.run n t := by
  have hcore : Sys2Proof.core.step s = .next t := h
  simp only [Host.Core.run, hcore]

/-- A property of the state and of the number of steps taken that every step keeps, none of them stopping, holds at the end of every
run. -/
theorem run_keeps {J : Nat → State → Prop} (hstep : ∀ k s, J k s → ∃ t, step s = .next t ∧ J (k + 1) t) (n : Nat)
    {k : Nat} {s : State} (h : J k s) : ∃ t, Sys2Proof.core.run n s = .next t ∧ J (k + n) t := by
  induction n generalizing k s with
  | zero => exact ⟨s, rfl, h⟩
  | succ n ih =>
    obtain ⟨t, ht, hJ⟩ := hstep k s h
    obtain ⟨u, hu, hend⟩ := ih hJ
    exact ⟨u, (run_succ n ht).trans hu, by rwa [Nat.add_right_comm] at hend⟩

/-! ### The deadline (R621, R622) -/

theorem deadlineMet_cons {w : Watch} {e : Event} {rest : List Event} :
    deadlineMet C w (e :: rest) = true ↔ w.missed C e = false ∧ deadlineMet C (w.next C e) rest = true := by
  simp [deadlineMet]

/-- An agent step that misses no deadline sets no OVERRUN (R252). -/
theorem Watched.no_overrun {e : Event} {s t : State C} (h : Watched e s t) (hover : s.sticky.getLsbD 1 = false)
    (hm : (Watch.of s).missed C e = false) : t.sticky.getLsbD 1 = false := by
  refine Bool.eq_false_iff.2 fun ho => ?_
  rcases h.overrun ho with hb | hb
  · exact absurd (hover.symm.trans hb) Bool.false_ne_true
  · exact absurd (hm.symm.trans hb) Bool.false_ne_true

/-- The schedule from here on meets P_DEADLINE. -/
def OnTime (s : State C) : Prop := deadlineMet C (.of s) s.sched = true

/-- The first entry of a schedule on time misses no deadline. -/
theorem OnTime.not_missed {s : State C} {e : Event} {rest : List Event} (h : OnTime s) (hs : s.sched = e :: rest) :
    (Watch.of s).missed C e = false := by
  rw [OnTime, hs] at h
  exact (deadlineMet_cons.1 h).1

/-- A step takes the first entry of a schedule on time, and the rest is on time. -/
theorem OnTime.next {s t : State C} {e : Event} {rest : List Event} (h : OnTime s) (hs : s.sched = e :: rest)
    (ht : stepOf s = .next t) : t.sched = rest ∧ OnTime t := by
  rw [OnTime, hs] at h
  rw [stepOf_cons s e rest hs] at ht
  have hsched : t.sched = rest := runEvent_sched ht
  refine ⟨hsched, ?_⟩
  rw [OnTime, (runEvent_watched ht).watch, hsched]
  exact (deadlineMet_cons.1 h).2

/-- A step on time sets no OVERRUN, and the schedule it leaves is on time. -/
theorem OnTime.step {s t : State C} (h : OnTime s) (hover : s.sticky.getLsbD 1 = false) (ht : stepOf s = .next t) :
    OnTime t ∧ t.sticky.getLsbD 1 = false := by
  cases hs : s.sched with
  | nil =>
    cases (stepOf_rest s hs).symm.trans ht
    exact ⟨h, hover⟩
  | cons e rest =>
    have hm := h.not_missed hs
    obtain ⟨-, hrest⟩ := h.next hs ht
    rw [stepOf_cons s e rest hs] at ht
    exact ⟨hrest, (runEvent_watched ht).no_overrun hover hm⟩

/-- No step of an infinite run that meets P_DEADLINE misses a deadline. -/
theorem RunMeetsDeadline.not_missed {ev : Nat → Event} {σ : Nat → State} (h : RunMeetsDeadline ev σ) (hrun : IsRun ev σ)
    (n : Nat) : (Watch.of (σ n)).missed hardware (ev n) = false := by
  have hn := h (n + 1)
  rw [List.range_succ, List.map_append, deadlineMet_append, ← hrun.watch_eq n, Bool.and_eq_true] at hn
  exact (deadlineMet_cons.1 hn.2).1

/-- Settles O44: OVERRUN is set by a missed deadline only, and the invariant keeps the run from stopping. -/
theorem deadlineMeansNoOverrun : Obligations.DeadlineMeansNoOverrun := by
  refine ⟨fun n s hinv hdead hover => ?_, fun ev σ hrun hdead hover n => ?_⟩
  · have hstep (k : Nat) (s : State) (h : Invariant s ∧ OnTime s ∧ s.sticky.getLsbD 1 = false) :
        ∃ t, step s = .next t ∧ Invariant t ∧ OnTime t ∧ t.sticky.getLsbD 1 = false := by
      obtain ⟨hi, ht, ho⟩ := h
      obtain ⟨t, hs, hi'⟩ := stepOf_keeps hi
      exact ⟨t, hs, hi', ht.step ho hs⟩
    obtain ⟨t, ht, -, -, ho⟩ := run_keeps hstep n (k := 0) ⟨(inv_iff s).1 hinv, hdead, hover⟩
    exact ⟨t, ht, ho⟩
  · induction n with
    | zero => exact hover
    | succ n ih => exact (hrun.watched n).no_overrun ih (hdead.not_missed hrun n)

end Sys2Proof.Machine
end

section
/-!
PROOF. Fair infinite runs (70_reset_and_hazards R620, R123): until a RESET, every request meets its FILL, DRAIN_IDX comes to the last
word, and the queued commands are applied; and a running machine served at once has such a run.
-/

namespace Sys2Proof.Machine

open Sys2Proof.Config (hardware)

variable {C : Config}

/-! ### What the watch keeps until an agent's step -/

/-- A property that stays until P comes holds when P first comes. -/
theorem exists_first_keeping {P Q : Nat → Prop} {n : Nat} (hP : ∃ m, n ≤ m ∧ P m) (hn : Q n)
    (hQ : ∀ k, n ≤ k → ¬ P k → Q k → Q (k + 1)) : ∃ m, n ≤ m ∧ P m ∧ Q m := by
  obtain ⟨m, hm, hp⟩ := hP
  obtain ⟨d, rfl⟩ := Nat.exists_eq_add_of_le hm
  clear hm
  induction d generalizing n with
  | zero => exact ⟨n, Nat.le_refl n, hp, hn⟩
  | succ d ih =>
    by_cases hPn : P n
    · exact ⟨n, Nat.le_refl n, hPn, hn⟩
    · obtain ⟨m, hm, h⟩ := ih (hQ n (Nat.le_refl n) hPn hn) (fun k hk => hQ k (by omega)) (by rwa [Nat.add_right_comm])
      exact ⟨m, by omega, h⟩

/-- A block that runs is not started again, so its watch is changed by TICK, FILL, RESET and PERIPH_READY only. -/
theorem Watch.next_hostWrite_running {w : Watch} (hr : w.running = true) (addr : Word) (n : AccessSize) (v : Word) :
    w.next C (.hostWrite addr n v) = w := by
  simp [Watch.next, Watch.starts, hr]

theorem Watch.next_running {w : Watch} {e : Event} (hr : w.running = true) (he : e ≠ .reset) :
    (w.next C e).running = true := by
  cases e with
  | hostWrite addr n v => rwa [next_hostWrite_running hr]
  | tick =>
    simp only [Watch.next, hr, Bool.true_eq_false, if_false]
    split <;> rfl
  | fill => simp [Watch.next, hr]
  | reset => exact absurd rfl he
  | hostRead | periphReady => exact hr

/-- A request stands until a FILL or a RESET. -/
theorem Watch.next_owed {w : Watch} {e : Event} (hr : w.running = true) (ho : w.owed = true) (hreset : e ≠ .reset)
    (hfill : e ≠ .fill) : (w.next C e).owed = true := by
  cases e with
  | hostWrite addr n v => rwa [next_hostWrite_running hr]
  | tick =>
    simp only [Watch.next, hr, Bool.true_eq_false, if_false]
    split
    · rfl
    · exact ho
  | fill => exact absurd rfl hfill
  | reset => exact absurd rfl hreset
  | hostRead | periphReady => exact ho

/-- Only a TICK or a RESET moves DRAIN_IDX of a block that runs. -/
theorem Watch.next_idx {w : Watch} {e : Event} (hr : w.running = true) (hreset : e ≠ .reset) (htick : e ≠ .tick) :
    (w.next C e).idx = w.idx := by
  cases e with
  | hostWrite addr n v => rw [next_hostWrite_running hr]
  | tick => exact absurd rfl htick
  | fill => simp [Watch.next, hr]
  | reset => exact absurd rfl hreset
  | hostRead | periphReady => rfl

theorem Watch.next_tick_advances {w : Watch} (hr : w.running = true) (hi : w.idx + 1 ≠ C.bufLen) :
    (w.next C .tick).idx = w.idx + 1 := by
  simp [Watch.next, hr, hi]

/-! ### The steps of a run -/

namespace IsRun

variable {ev : Nat → Event} {σ : Nat → State} (h : IsRun ev σ)
include h

/-- What a step of the run is, the schedule emptied of its entry. -/
theorem event (n : Nat) : runEvent (ev n) { σ n with sched := [] } = .next (σ (n + 1)) :=
  (step_cons { σ n with sched := [ev n] } (ev n) [] rfl).symm.trans (h.steps n)

theorem enabled_tick {n : Nat} (he : ev n = .tick) : (σ n).running = true := by simpa [Enabled, he] using h.enabled n

theorem enabled_fill {n : Nat} (he : ev n = .fill) : (σ n).running = true ∧ (σ n).fillReq = true := by
  simpa [Enabled, he] using h.enabled n

theorem running_succ {n : Nat} (hr : (σ n).running = true) (he : ev n ≠ .reset) : (σ (n + 1)).running = true :=
  (congrArg Watch.running (h.watched n).watch).trans (Watch.next_running hr he)

theorem fillReq_succ {n : Nat} (hr : (σ n).running = true) (hf : (σ n).fillReq = true) (hreset : ev n ≠ .reset)
    (hfill : ev n ≠ .fill) : (σ (n + 1)).fillReq = true :=
  (congrArg Watch.owed (h.watched n).watch).trans (Watch.next_owed hr hf hreset hfill)

theorem drainIdx_succ {n : Nat} (hr : (σ n).running = true) (hreset : ev n ≠ .reset) (htick : ev n ≠ .tick) :
    (σ (n + 1)).drainIdx.val = (σ n).drainIdx.val :=
  (congrArg Watch.idx (h.watched n).watch).trans (Watch.next_idx hr hreset htick)

theorem drainIdx_tick {n : Nat} (hr : (σ n).running = true) (he : ev n = .tick) (hi : (σ n).drainIdx.val ≠ 95) :
    (σ (n + 1)).drainIdx.val = (σ n).drainIdx.val + 1 := by
  have hw := (h.watched n).watch
  rw [he] at hw
  exact (congrArg Watch.idx hw).trans (Watch.next_tick_advances hr fun hl => hi (Nat.succ.inj hl))

/-- The TICK that takes the last word requests a FILL and counts the drain (R251). -/
theorem drain_succ {n : Nat} (he : ev n = .tick) (hi : (σ n).drainIdx.val = 95) :
    (σ (n + 1)).fillReq = true ∧ (σ (n + 1)).completions = (σ n).completions + 1#32 := by
  have hr := h.enabled_tick he
  have hn := h.event n
  rw [he, runEvent, tickStep_wraps (s := { σ n with sched := [] }) hr (congrArg (· + 1) hi)] at hn
  rw [← Host.Outcome.next.inj hn]
  exact ⟨drainComplete_fillReq _, drainComplete_completions _⟩

theorem fifo_succ {n : Nat} (hr : (σ n).running = true) (hreset : ev n ≠ .reset) (hfill : ev n ≠ .fill) :
    (σ n).fifo <+: (σ (n + 1)).fifo :=
  (runEvent_queuesGrown hreset hfill (h.event n)).fifo hr

theorem fifo_fill {n : Nat} (he : ev n = .fill) : (σ (n + 1)).fifo = [] := by
  obtain ⟨hr, hf⟩ := h.enabled_fill he
  have hn := h.event n
  rw [he] at hn
  exact (fillStep_queues hn).2 hr hf

/-! ### What fairness gives -/

variable (hfair : Fair ev σ)
include hfair

/-- A request that no RESET withdraws stays enabled, so its FILL comes. -/
theorem exists_fill {n : Nat} (hr : (σ n).running = true) (hf : (σ n).fillReq = true) :
    ∃ m, n ≤ m ∧ (ev m = .reset ∨ ev m = .fill) := by
  by_contra! hnone
  have henabled (m : Nat) (hm : n ≤ m) : (σ m).running = true ∧ (σ m).fillReq = true := by
    induction m, hm using Nat.le_induction with
    | base => exact ⟨hr, hf⟩
    | succ m hm ih =>
      obtain ⟨hreset, hfill⟩ := hnone m hm
      exact ⟨h.running_succ ih.1 hreset, h.fillReq_succ ih.1 ih.2 hreset hfill⟩
  obtain ⟨m, hm, he⟩ := hfair.fills n henabled
  exact (hnone m hm).2 he

/-- DRAIN_IDX stands until the next TICK, which comes unless a RESET does. -/
theorem exists_tick {n : Nat} (hr : (σ n).running = true) :
    ∃ m, n ≤ m ∧ (ev m = .reset ∨ ev m = .tick)
      ∧ (σ m).running = true ∧ (σ m).drainIdx.val = (σ n).drainIdx.val := by
  obtain ⟨m, hm, he⟩ := hfair.ticks n
  refine exists_first_keeping (Q := fun k => (σ k).running = true ∧ (σ k).drainIdx.val = (σ n).drainIdx.val)
    ⟨m, hm, .inr he⟩ ⟨hr, rfl⟩ fun k _ hk ⟨hrk, hik⟩ => ?_
  obtain ⟨hreset, htick⟩ := not_or.1 hk
  exact ⟨h.running_succ hrk hreset, (h.drainIdx_succ hrk hreset htick).trans hik⟩

/-- With r words to drain before the last one, a RESET comes or the TICK of the last word. -/
theorem exists_drain (r : Nat) {n : Nat} (hr : (σ n).running = true) (hi : (σ n).drainIdx.val + r = 95) :
    ∃ m, n ≤ m ∧ (ev m = .reset ∨ (ev m = .tick ∧ (σ m).drainIdx.val = 95)) := by
  induction r generalizing n with
  | zero =>
    obtain ⟨m, hm, he, hd⟩ := h.exists_tick hfair hr
    exact ⟨m, hm, he.imp_right fun ht => ⟨ht, hd.2.trans hi⟩⟩
  | succ r ih =>
    obtain ⟨m, hm, he | he, hrm, hd⟩ := h.exists_tick hfair hr
    · exact ⟨m, hm, .inl he⟩
    · have hnext := h.drainIdx_tick hrm he (by omega)
      obtain ⟨k, hk, hend⟩ := ih (h.running_succ hrm (by simp [he])) (by omega)
      exact ⟨k, by omega, hend⟩

/-- A drain requests a FILL, which takes the commands queued by then (R123, R253). -/
theorem exists_fifo_served {n : Nat} (hr : (σ n).running = true) :
    ∃ m, n ≤ m ∧ (ev m = .reset ∨ (ev m = .fill ∧ (σ n).fifo <+: (σ m).fifo ∧ (σ (m + 1)).fifo = [])) := by
  have hlt : (σ n).drainIdx.val < 96 := (σ n).drainIdx.isLt
  have hserved : ∃ m, n ≤ m ∧ (ev m = .reset ∨ ev m = .fill) := by
    obtain ⟨m, hm, he | ⟨he, hi⟩⟩ := h.exists_drain hfair (95 - (σ n).drainIdx.val) hr (by omega)
    · exact ⟨m, hm, .inl he⟩
    · have hrm := h.running_succ (h.enabled_tick he) (by simp [he])
      obtain ⟨k, hk, hend⟩ := h.exists_fill hfair hrm (h.drain_succ he hi).1
      exact ⟨k, by omega, hend⟩
  obtain ⟨m, hm, he, -, hq⟩ := exists_first_keeping
    (Q := fun k => (σ k).running = true ∧ (σ n).fifo <+: (σ k).fifo) hserved ⟨hr, List.prefix_rfl⟩ fun k _ hk ⟨hrk, hqk⟩ => by
      obtain ⟨hreset, hfill⟩ := not_or.1 hk
      exact ⟨h.running_succ hrk hreset, hqk.trans (h.fifo_succ hrk hreset hfill)⟩
  exact ⟨m, hm, he.imp_right fun hf => ⟨hf, hq, h.fifo_fill hf⟩⟩

end IsRun

/-! ### The prompt agent -/

/-- The prompt agent's step of a running machine keeps the invariant, and the machine runs on. -/
theorem promptEvent_keeps {s : State} (h : Invariant s) (hr : s.running = true) :
    ∃ t, step { s with sched := [promptEvent s] } = .next t ∧ Invariant t ∧ t.running = true := by
  obtain ⟨t, ht, hinv⟩ := stepOf_keeps (s := { s with sched := [promptEvent s] })
    ⟨h.nodes, h.lib, h.fifo, h.idle, h.latch, h.dest⟩
  have hreset : promptEvent s ≠ .reset := by unfold promptEvent; split <;> nofun
  have hw := (runEvent_watched ((stepOf_cons _ (promptEvent s) [] rfl).symm.trans ht)).watch
  exact ⟨t, ht, hinv, (congrArg Watch.running hw).trans (Watch.next_running hr hreset)⟩

/-- Settles O58: until a RESET a request stays enabled, DRAIN_IDX rises TICK by TICK, and the FIFO only grows; the prompt agent's
run meets the premise. -/
theorem fairRunsServeEveryRequest : Obligations.FairRunsServeEveryRequest := by
  refine ⟨fun ev σ hrun hfair n hr => ⟨fun hf => ?_, ?_, hrun.exists_fifo_served hfair hr⟩, fun s hinv hr => ?_⟩
  · obtain ⟨m, hm, he⟩ := hrun.exists_fill hfair hr hf
    exact ⟨m, hm, he.imp_right fun hfill => ⟨hfill, (hrun.enabled_fill hfill).2⟩⟩
  · have hlt : (σ n).drainIdx.val < 96 := (σ n).drainIdx.isLt
    obtain ⟨m, hm, he⟩ := hrun.exists_drain hfair (95 - (σ n).drainIdx.val) hr (by omega)
    exact ⟨m, hm, he.imp_right fun ⟨ht, hi⟩ => ⟨ht, hi, (hrun.drain_succ ht hi).2⟩⟩
  · exact ⟨_, promptRun s, rfl, promptRun_fair (fun s => Invariant s ∧ s.running = true) s ⟨(inv_iff s).1 hinv, hr⟩
      (fun _ h => h.2) fun _ h => promptEvent_keeps h.1 h.2⟩

end Sys2Proof.Machine
end

section
/-!
PROOF. The stream the DAC port drives (70_reset_and_hazards R622, 41_delivery_engine R240): a node's produce calls one after the other
give the blocks of one stream of Samples, and a started machine that is served in time takes the root's stream word by word.
-/

namespace Sys2Proof.Machine

open Sys2Proof.Config (hardware)

variable {C : Config}

/-! ### The stream of a node (R260) -/

/-- Block k of a stream of Samples, as one produce call for a buffer gives it. -/
def block (y : Nat → Sample) (k : Nat) : List Sample := (List.range' (96 * k) 96).map y

/-- The stream y of node i: the calls of produce for 96 Samples each, one after the other, give its blocks, and leave the tables
`tab`. -/
structure NodeStream (lib : Lib) (i : Fin hardware.nNodes) (y : Nat → Sample) (tab : Nat → NodeTable) : Prop where
  ok : ∀ k, nodesOk (tab k) = true
  call : ∀ k, Produces lib (tab k) i 96 (block y k) (tab (k + 1))

/-- Lists of 96 Samples are the blocks of one stream. -/
theorem exists_blocks {xs : Nat → List Sample} (h : ∀ k, (xs k).length = 96) :
    ∃ y : Nat → Sample, ∀ k, block y k = xs k := by
  refine ⟨fun m => (xs (m / 96)).getD (m % 96) 0#16, fun k => List.ext_getElem (by simp [block, h]) fun j hj hj' => ?_⟩
  have hlt : j < 96 := h k ▸ hj'
  have hdiv : (96 * k + j) / 96 = k := by omega
  have hmod : (96 * k + j) % 96 = j := by omega
  simp [block, hdiv, hmod, h, hlt]

/-- Every node of a well-formed table has a stream, for produce completes and keeps the table well-formed. -/
theorem exists_nodeStream (lib : Lib) (i : Fin hardware.nNodes) {t : NodeTable} (h : nodesOk t = true) :
    ∃ (y : Nat → Sample) (tab : Nat → NodeTable), tab 0 = t ∧ NodeStream lib i y tab := by
  have htotal (t : { t : NodeTable // nodesOk t = true }) :
      ∃ (xs : List Sample) (t' : { t : NodeTable // nodesOk t = true }), Produces lib t.1 i 96 xs t'.1 := by
    obtain ⟨xs, t', p⟩ := produces_total lib 96 hardware.nNodes i t.1 (by omega) t.2
    exact ⟨xs, ⟨t', p.ok⟩, p⟩
  choose xs next hcall using htotal
  obtain ⟨y, hy⟩ := exists_blocks (xs := fun k => xs (next^[k] ⟨t, h⟩)) fun k => (hcall _).length
  refine ⟨y, fun k => (next^[k] ⟨t, h⟩).1, rfl, fun k => (next^[k] ⟨t, h⟩).2, fun k => ?_⟩
  rw [hy, Function.iterate_succ_apply']
  exact hcall _

/-- Produce of a node of a table has one outcome. -/
theorem Produces.unique {lib : Lib} {t t₁ t₂ : NodeTable C} {i : Fin C.nNodes} {n : Nat} {xs₁ xs₂ : List Sample}
    (p₁ : Produces lib t i n xs₁ t₁) (p₂ : Produces lib t i n xs₂ t₂) : xs₁ = xs₂ ∧ t₁ = t₂ := by
  have hk := (nodeIdx?_eq_some _ _).1 (nodeIdx?_ofNat i)
  have hpos := C.nNodes_pos
  have heq := (p₁.eq C.nNodes _ hk (by omega) hpos).symm.trans (p₂.eq C.nNodes _ hk (by omega) hpos)
  exact Prod.mk.inj (Host.Outcome.next.inj heq)

namespace NodeStream

variable {lib : Lib} {i : Fin hardware.nNodes} {y : Nat → Sample} {tab : Nat → NodeTable} (h : NodeStream lib i y tab)
include h

/-- A call of the node's produce from the k-th table gives the k-th block. -/
theorem exec_eq {s : State} {k : Nat} (hlib : s.lib = lib) (hs : s.nodes = tab k) :
    exec (childInstr s i 96) s = .next { s with nodes := tab (k + 1), dest := block y k } := by
  obtain ⟨xs, t', p, heq⟩ := exec_childInstr (n := 96) i (by decide) (hs ▸ h.ok k)
  subst hlib
  rw [hs] at p
  obtain ⟨rfl, rfl⟩ := p.unique (h.call k)
  exact heq

/-- Filling a buffer from the k-th table stores the k-th block (R254). -/
theorem fillInto_eq (x : BufId) {s : State} {k : Nat} (hlib : s.lib = lib) (hroot : s.rootIdx = i) (hs : s.nodes = tab k) :
    fillInto x s = .next (storeDest x { s with nodes := tab (k + 1), dest := block y k }) := by
  subst hroot
  rw [fillInto, perform_eq_exec]
  exact congrArg (andThen · _) (h.exec_eq hlib hs)

/-- The calls one after the other give the stream from block k on. -/
theorem producedBy_eq (c : Nat) {s : State} {k : Nat} (hlib : s.lib = lib) (hs : s.nodes = tab k) :
    ∃ u, producedBy (childInstr s i) (List.replicate c 96) s = .next ((List.range' (96 * k) (96 * c)).map y, u) := by
  induction c generalizing s k with
  | zero => exact ⟨s, rfl⟩
  | succ c ih =>
    obtain ⟨u, hu⟩ := ih (s := { s with nodes := tab (k + 1), dest := block y k }) (k := k + 1) hlib rfl
    have hinstr : childInstr ({ s with nodes := tab (k + 1), dest := block y k } : State) i = childInstr s i := by
      obtain ⟨htype, -⟩ := (h.call k).common i
      rw [← hs] at htype
      exact funext fun n => congrArg (Instr.ofType · _ n) htype
    refine ⟨u, ?_⟩
    rw [List.replicate_succ, producedBy, h.exec_eq hlib hs, andThen_next, ← hinstr, hu, andThen_next, block, ← List.map_append,
      Nat.mul_succ 96 k, List.range'_append_1]
    congr 4
    omega

end NodeStream

/-! ### A started machine in step with the stream (R240, R622) -/

/-- After T TICKs the machine is in step with the stream: the buffer in flight holds the block T stands in, the other the block
after it unless its FILL is still due, the table is the one the calls so far left, and DAC_WORD is the code of the last Sample. -/
structure InStep (lib : Lib) (i : Fin hardware.nNodes) (y : Nat → Sample) (tab : Nat → NodeTable) (T : Nat) (s : State) :
    Prop where
  running : s.running = true
  lib : s.lib = lib
  root : s.rootIdx = i
  fifo : s.fifo = []
  drainIdx : s.drainIdx.val = T % 96
  nodes : s.nodes = tab (T / 96 + if s.fillReq then 1 else 2)
  inflight : s.buf s.inflight = codesOf hardware (block y (T / 96))
  fillable : s.fillReq = false → s.buf s.inflight.other = codesOf hardware (block y (T / 96 + 1))
  dacWord : 1 ≤ T → s.dacWord = native hardware (y (T - 1))

/-- The word of a block at DRAIN_IDX is the code of the stream's next Sample. -/
theorem codesOf_block_get (y : Nat → Sample) {T : Nat} {j : Fin hardware.bufLen} (hj : j.val = T % 96) :
    (codesOf hardware (block y (T / 96)))[j] = native hardware (y T) := by
  have hlt : j.val < 96 := j.isLt
  have hT : 96 * (T / 96) + j.val = T := by omega
  refine (codesOf_get _ j).trans ?_
  simp [block, hlt, hT]

/-- The end of a FILL stores the codes in the buffer not in flight. -/
theorem endFill_buf_fillable (s u : State C) : (endFill s u).buf u.inflight.other = codesOf C u.dest := by
  cases h : u.inflight with
  | A => rw [endFill_of_A h]; rfl
  | B => rw [endFill_of_B h]; rfl

namespace InStep

variable {lib : Lib} {i : Fin hardware.nNodes} {y : Nat → Sample} {tab : Nat → NodeTable} {T : Nat} {s : State}

/-- START primes both buffers with the stream's first two blocks (R241). -/
theorem start (h : NodeStream s.lib s.rootIdx y tab) (h0 : s.nodes = tab 0) (hr : s.running = false)
    (hp : s.periphReady = true) (hq : s.fifo = []) :
    ∃ t, startEngine s = .next t ∧ InStep s.lib s.rootIdx y tab 0 t := by
  rw [startEngine, if_neg (by simp [hr]), if_neg (by simp [hp]), h.fillInto_eq .A rfl rfl h0, andThen_next,
    h.fillInto_eq .B (k := 1) (by simp) (by simp) (by simp), andThen_next,
    storeDest_A, storeDest_B]
  exact ⟨_, rfl,
    { running := rfl, lib := rfl, root := rfl, fifo := hq, drainIdx := rfl, nodes := rfl, inflight := rfl,
      fillable := fun _ => rfl, dacWord := nofun }⟩

/-- A TICK that misses no deadline takes the next Sample's code (R250, R251). -/
theorem tick (h : InStep lib i y tab T s) (hm : (Watch.of s).missed hardware .tick = false) :
    InStep lib i y tab (T + 1) (tickStep s) := by
  have hword : (s.buf s.inflight)[s.drainIdx] = native hardware (y T) := by
    rw [h.inflight]
    exact codesOf_block_get y h.drainIdx
  have hidx := h.drainIdx
  by_cases hl : s.drainIdx.val + 1 < 96
  · have hdiv : (T + 1) / 96 = T / 96 := by omega
    rw [tickStep_advances h.running ⟨_, hl⟩ rfl, hword]
    exact
      { running := h.running, lib := h.lib, root := h.root, fifo := h.fifo
        drainIdx := by show s.drainIdx.val + 1 = _; omega
        nodes := hdiv ▸ h.nodes
        inflight := hdiv ▸ h.inflight
        fillable := hdiv ▸ h.fillable
        dacWord := fun _ => rfl }
  · have hlt : s.drainIdx.val < 96 := s.drainIdx.isLt
    have hlast : s.drainIdx.val + 1 = hardware.bufLen := by show _ = 96; omega
    have hdiv : (T + 1) / 96 = T / 96 + 1 := by omega
    have hf : s.fillReq = false := by simpa [Watch.missed, Watch.of, h.running, hlast] using hm
    have hbuf := h.fillable hf
    have hnodes := h.nodes
    rw [hf] at hnodes
    rw [tickStep_wraps h.running hlast, hword, drainComplete_eq]
    dsimp only
    rw [if_neg (by simp [hf])]
    exact
      { running := h.running, lib := h.lib, root := h.root, fifo := h.fifo
        drainIdx := by show 0 = _; omega
        nodes := hdiv ▸ hnodes
        inflight := hdiv ▸ hbuf
        fillable := nofun
        dacWord := fun _ => rfl }

/-- The end of a due FILL: the block after the one in flight stands in the other buffer. -/
theorem endFill (h : InStep lib i y tab T s) :
    InStep lib i y tab T (endFill s
      { s with fillReq := false, fifo := [], nodes := tab (T / 96 + 2), dest := block y (T / 96 + 1) }) := by
  have hflight (u : State) : (Machine.endFill s u).inflight = u.inflight := storeDest_inflight ..
  have hreq (u : State) : (Machine.endFill s u).fillReq = u.fillReq := storeDest_fillReq ..
  exact
    { running := (storeDest_running ..).trans h.running
      lib := (storeDest_lib ..).trans h.lib
      root := (storeDest_rootIdx ..).trans h.root
      fifo := storeDest_fifo ..
      drainIdx := (congrArg Fin.val (storeDest_drainIdx ..)).trans h.drainIdx
      nodes := by rw [hreq]; exact storeDest_nodes ..
      inflight := by rw [hflight, endFill_buf_inflight]; exact h.inflight
      fillable := fun _ => by rw [hflight, endFill_buf_fillable]
      dacWord := fun hT => (storeDest_dacWord ..).trans (h.dacWord hT) }

/-- A FILL, where one is due, stores the next block in the buffer not in flight (R253). -/
theorem fill (h : InStep lib i y tab T s) (hstream : NodeStream lib i y tab) :
    ∃ t, fillStep s = .next t ∧ InStep lib i y tab T t := by
  cases hf : s.fillReq with
  | false => exact ⟨s, fillStep_disabled (.inr hf), h⟩
  | true =>
    have hnodes := h.nodes
    rw [hf, if_pos rfl] at hnodes
    obtain rfl := h.root
    have hexec := hstream.exec_eq (s := { s with fillReq := false, fifo := [] }) h.lib hnodes
    refine ⟨_, ?_, h.endFill⟩
    rw [fillStep_enabled h.running hf, h.fifo, applyAll, andThen_next, perform_eq_exec]
    exact congrArg (andThen · _) hexec

end InStep

/-- The machine after START and k entries of a schedule of TICKs and FILLs: what is left of the schedule is on time, and the machine
is in step with the stream. -/
structure Served (lib : Lib) (i : Fin hardware.nNodes) (y : Nat → Sample) (tab : Nat → NodeTable) (evs : List Event) (k : Nat)
    (s : State) : Prop where
  sched : s.sched = evs.drop k
  onTime : OnTime s
  inStep : InStep lib i y tab ((evs.take k).count .tick) s

/-- A TICK or FILL on time keeps the machine in step; with the schedule done it rests. -/
theorem Served.step {lib : Lib} {i : Fin hardware.nNodes} {y : Nat → Sample} {tab : Nat → NodeTable} {evs : List Event}
    (hstream : NodeStream lib i y tab) (hevs : ∀ e ∈ evs, e = .tick ∨ e = .fill) (k : Nat) (s : State)
    (h : Served lib i y tab evs k s) : ∃ t, step s = .next t ∧ Served lib i y tab evs (k + 1) t := by
  rcases Nat.lt_or_ge k evs.length with hk | hk
  · have hs : s.sched = evs[k] :: evs.drop (k + 1) := h.sched.trans (List.drop_eq_getElem_cons hk)
    have h0 : InStep lib i y tab ((evs.take k).count .tick) { s with sched := evs.drop (k + 1) } := { h.inStep with }
    have hcount : (evs.take (k + 1)).count .tick = (evs.take k).count .tick + [evs[k]].count .tick := by
      rw [← List.take_concat_get' evs k hk, List.count_append]
    obtain ⟨t, ht, hin⟩ : ∃ t, Machine.step s = .next t ∧ InStep lib i y tab ((evs.take (k + 1)).count .tick) t := by
      rw [step_cons s _ _ hs, hcount]
      rcases hevs _ (List.getElem_mem hk) with he | he <;> rw [he] at hs ⊢
      · exact ⟨_, rfl, h0.tick (h.onTime.not_missed hs)⟩
      · exact h0.fill hstream
    obtain ⟨hsched, htime⟩ := h.onTime.next hs ht
    exact ⟨t, ht, hsched, htime, hin⟩
  · have hs : s.sched = [] := h.sched.trans (List.drop_eq_nil_of_le hk)
    refine ⟨s, step_rest s hs, hs.trans (List.drop_eq_nil_of_le (by omega)).symm, h.onTime, ?_⟩
    rw [List.take_of_length_le (by omega), ← List.take_of_length_le hk]
    exact h.inStep

/-- Before START no command is queued (R245). -/
theorem Invariant.fifo_idle {s : State C} (h : Invariant s) (hr : s.running = false) : s.fifo = [] := by
  have hidle := h.idle
  simp only [idleOk, hr, Bool.false_or, Bool.and_eq_true, beq_iff_eq] at hidle
  tauto

/-- Settles O45: START primes the stream's first two blocks, every FILL in time adds the next, and the TICKs take them word by
word. -/
theorem dacStreamIsGapFree : Obligations.DacStreamIsGapFree := by
  intro s evs v m hinv hr hp hv hs hevs hdead hT T
  have hI := (inv_iff s).1 hinv
  obtain ⟨y, tab, h0, hstream⟩ := exists_nodeStream s.lib s.rootIdx hI.nodes
  obtain ⟨x, hx, hin⟩ := InStep.start (s := { s with sched := evs }) hstream h0.symm hr hp
    (hI.fifo_idle hr)
  have hstep : step s = .next x := by rw [step_ctrl hs, if_pos hv, hx]
  obtain ⟨hsched, htime⟩ := OnTime.next hdead hs hstep
  obtain ⟨t, ht, hend⟩ := run_keeps (Served.step hstream hevs) m (k := 0) (s := x) ⟨hsched, htime, hin⟩
  obtain ⟨u, hu⟩ := hstream.producedBy_eq (T / 96 + 2) (s := s) (k := 0) rfl h0.symm
  rw [Nat.zero_add] at hend
  have hlt : T - 1 < 96 * (T / 96 + 2) := by omega
  exact ⟨t, u, _, y (T - 1), (run_succ m hstep).trans ht, hu, by simp [hlt], hend.inStep.dacWord hT⟩

end Sys2Proof.Machine
end
